-- ==== Sys2Proof/Word.lean ====
section
/-! DEFINITION. The widths of the spec's values (00_scope.md R6, 40_primitives.md R60): every multi-byte value is also read as an
unsigned little-endian integer, byte `i` holding bits `[8i+7 : 8i]`, so each is one bit vector. -/
namespace Sys2Proof

/-- A byte, 8 bits, bit 7 most significant (R6). -/
abbrev Byte := BitVec 8

/-- A block: 16 bytes, byte `i` at bits `[8i+7 : 8i]` (R6). -/
abbrev Block := BitVec 128

/-- A 256-bit key: 32 bytes, byte `i` at bits `[8i+7 : 8i]` (R2, R6). -/
abbrev Key := BitVec 256

/-- The key-schedule store: `KS_BYTES` = 240 bytes, byte `i` at bits `[8i+7 : 8i]` (R5, R14). -/
abbrev Schedule := BitVec 1920

/-- A register word of the host port (R15). -/
abbrev RegWord := BitVec 32

/-- The three buffer address spaces (R32). -/
inductive Space where
  /-- `AAD_BUF`: the associated data. -/
  | aadBuf
  /-- `IN_BUF`: the message handed in. -/
  | inBuf
  /-- `OUT_BUF`: the result. -/
  | outBuf
  deriving DecidableEq, Repr

/-- An encoded instruction: the two formats of R40. A phase code is read together with the sequencer register `OPC`, because
code 9 names two rules and `OPC` selects which (R45, R102, R114). -/
inductive Code where
  /-- Format `CMD`: the 32-bit word written to register word 0 (R41). -/
  | cmd (word : BitVec 32)
  /-- Format `PHASE`: the 5-bit code of R45, with the content of `OPC`. -/
  | phase (opc : BitVec 4) (code : BitVec 5)
  deriving DecidableEq, Repr

end Sys2Proof
end

