-- ==== Sys2Proof/Syntax.lean ====
section
/-! DEFINITION. The instructions of this block: its five command words and its seventeen phases, one constructor per row of
spec/opcode_table.json (30_encoding.md R40, R44, R45). No instruction has an operand field (R48). -/
namespace Sys2Proof

inductive Instr where
  /-- `SEAL`, word 0x00000001 (R100). -/
  | sealAuto
  /-- `SEAL.SEQ`, word 0x00000011: SEAL with the sequential strategy forced (R43, R100). -/
  | sealSeq
  /-- `SEAL.TABLE`, word 0x00000021: SEAL with the table strategy forced (R43, R100). -/
  | sealTable
  /-- `OPEN`, word 0x00000002 (R110). -/
  | openCmd
  /-- `CLEAR_CONTEXT`, word 0x00000003 (R131). -/
  | clearContext
  /-- Phase 0, `IDLE` (R46). -/
  | idle
  /-- Phase 1, `DERIVE_H` (R72). -/
  | deriveH
  /-- Phase 2, `DERIVE_K1` (R73). -/
  | deriveK1
  /-- Phase 3, `DERIVE_K2` (R74). -/
  | deriveK2
  /-- Phase 4, `HT_BUILD` (R84). -/
  | htBuild
  /-- Phase 5, `HASH_AAD` (R83). -/
  | hashAad
  /-- Phase 6, `HASH_MSG` (R86). -/
  | hashMsg
  /-- Phase 7, `HASH_LEN` (R88). -/
  | hashLen
  /-- Phase 8, `FINAL` (R89). -/
  | final
  /-- Phase 9 with `OPC` = 1, `TAG_ENC` of a SEAL (R102). -/
  | tagEncSeal
  /-- Phase 9 with `OPC` = 2, `TAG_ENC` of an OPEN (R114). -/
  | tagEncOpen
  /-- Phase 10, `CTR_ENC` (R105). -/
  | ctrEnc
  /-- Phase 11, `KS_REK` (R112). -/
  | ksRek
  /-- Phase 12, `DEC_HASH` (R113). -/
  | decHash
  /-- Phase 13, `TAG_CMP` (R120). -/
  | tagCmp
  /-- Phase 14, `COPYBACK` (R122). -/
  | copyback
  /-- Phase 15, `WIPE` (R130). -/
  | wipe
  /-- Phase 16, `CLEAR` (R132). -/
  | clear
  deriving DecidableEq, Repr

end Sys2Proof
end

