-- ==== Sys2Proof/Decode.lean ====
section
/-! DEFINITION. The decoder of both formats (30_encoding.md R40 to R47), total on every word and code, rejecting by name, and after
it the encoder. -/
namespace Sys2Proof

/-- Why a code is no instruction: the illegal classes of R47, the reserved phase codes of R45, and the one phase code that has no
rule under the content of `OPC`. -/
inductive Reject where
  /-- `OPC` = 0 or 4 to 15 (R42). -/
  | reservedOpcode
  /-- `HMODE` = 3 (R43). -/
  | reservedMode
  /-- `HMODE` 1 or 2 with OPEN or CLEAR_CONTEXT (R43). -/
  | modeNotAllowed
  /-- A 1 in bits [31:6] (R41). -/
  | reservedBits
  /-- Phase codes 17 to 31 (R45). -/
  | reservedPhase
  /-- Code 9 while `OPC` is neither 1 nor 2 (R46 has no row for it). -/
  | tagEncWithoutCommand
  deriving DecidableEq, Repr

/-- A command word (R41 to R44). -/
def decodeCmd (word : BitVec 32) : Except Reject Instr :=
  let opc := word.extractLsb' 0 4
  let hmode := word.extractLsb' 4 2
  let rsvd := word.extractLsb' 6 26
  if rsvd ≠ 0 then .error .reservedBits
  else if opc = 0 ∨ 4 ≤ opc.toNat then .error .reservedOpcode
  else if hmode = 3 then .error .reservedMode
  else if opc = 1 then
    if hmode = 0 then .ok .sealAuto else if hmode = 1 then .ok .sealSeq else .ok .sealTable
  else if hmode ≠ 0 then .error .modeNotAllowed
  else if opc = 2 then .ok .openCmd
  else .ok .clearContext

/-- `TAG_ENC` is one code with two rules, selected by `OPC` (R45, R46). -/
def decodeTagEnc (opc : BitVec 4) : Except Reject Instr :=
  if opc = 1 then .ok .tagEncSeal
  else if opc = 2 then .ok .tagEncOpen
  else .error .tagEncWithoutCommand

/-- A phase code (R45), read with the content of `OPC`. -/
def decodePhase (opc : BitVec 4) (code : BitVec 5) : Except Reject Instr :=
  match code.toNat with
  | 0 => .ok .idle
  | 1 => .ok .deriveH
  | 2 => .ok .deriveK1
  | 3 => .ok .deriveK2
  | 4 => .ok .htBuild
  | 5 => .ok .hashAad
  | 6 => .ok .hashMsg
  | 7 => .ok .hashLen
  | 8 => .ok .final
  | 9 => decodeTagEnc opc
  | 10 => .ok .ctrEnc
  | 11 => .ok .ksRek
  | 12 => .ok .decHash
  | 13 => .ok .tagCmp
  | 14 => .ok .copyback
  | 15 => .ok .wipe
  | 16 => .ok .clear
  | _ => .error .reservedPhase

/-- The decoder of both formats. -/
def decode : Code → Except Reject Instr
  | .cmd word => decodeCmd word
  | .phase opc code => decodePhase opc code

/-- The code of an instruction (R44, R45). `OPC` is given for the two rules of code 9; a phase whose code does not need it is
encoded with `OPC` = 0. -/
def encode : Instr → Code
  | .sealAuto => .cmd 0x00000001
  | .sealSeq => .cmd 0x00000011
  | .sealTable => .cmd 0x00000021
  | .openCmd => .cmd 0x00000002
  | .clearContext => .cmd 0x00000003
  | .idle => .phase 0 0
  | .deriveH => .phase 0 1
  | .deriveK1 => .phase 0 2
  | .deriveK2 => .phase 0 3
  | .htBuild => .phase 0 4
  | .hashAad => .phase 0 5
  | .hashMsg => .phase 0 6
  | .hashLen => .phase 0 7
  | .final => .phase 0 8
  | .tagEncSeal => .phase 1 9
  | .tagEncOpen => .phase 2 9
  | .ctrEnc => .phase 0 10
  | .ksRek => .phase 0 11
  | .decHash => .phase 0 12
  | .tagCmp => .phase 0 13
  | .copyback => .phase 0 14
  | .wipe => .phase 0 15
  | .clear => .phase 0 16

/-- The format of a code handed over as a number: 32 bits are a command word, one byte is a phase code in its low five bits with
zeros above. Code 9 is given with `OPC` = 1: the table's two rows of code 9 differ only in that register, which the number does
not hold (log 9, log 13). -/
def codeOfTableWord (nbits w : Nat) : Option Code :=
  if nbits = 32 then
    if w < 2 ^ 32 then some (.cmd (BitVec.ofNat 32 w)) else none
  else if nbits ≤ 8 then
    if w < 32 then some (.phase 1 (BitVec.ofNat 5 w)) else none
  else none

/-- The instruction this decoder reads from `nbits` bits of value `w` (host interface). -/
def decodeTableWord (nbits w : Nat) : Option Instr :=
  match codeOfTableWord nbits w with
  | some code =>
    match decode code with
    | .ok i => some i
    | .error _ => none
  | none => none

end Sys2Proof
end

