-- ==== Sys2Proof/Config.lean ====
section
/-! DEFINITION. The implementation parameters of 00_scope.md R5 as plain data, and the free values of the model.
The spec keeps the collaborator primitives and the counter increment OPEN with a default each; a configuration names, for each,
either the default or one of the uninterpreted collaborators below, which have no body, so that no proof can learn a value of theirs
(log 1, log 2). -/
namespace Sys2Proof

/-- The block cipher in use: the default AES-256 of R62 to R65, or collaborator number `n`, of which nothing is known but that it
is a total function of its arguments (R61, PA3). -/
inductive Cipher where
  | aes256
  | supplied (n : Nat)
  deriving DecidableEq, Repr

/-- The field multiplier in use: the default of R68, or collaborator number `n`, a total function of its arguments (R69, PD4). -/
inductive Multiplier where
  | polyval
  | supplied (n : Nat)
  deriving DecidableEq, Repr

/-- The counter increment `CtrNext` in use: the default of R103, or function number `n`. -/
inductive Increment where
  | le32
  | supplied (n : Nat)
  deriving DecidableEq, Repr

/-- The parameters of R5 whose value the spec leaves OPEN. -/
structure Config where
  /-- `AAD_CAP`: capacity of `AAD_BUF` in bytes, 1 to 2^36. -/
  aadCap : Nat
  /-- `MSG_CAP`: capacity of `IN_BUF` and of `OUT_BUF` in bytes, 1 to 2^36. -/
  msgCap : Nat
  /-- `E`, `KeyExpand`, `EncKS`. -/
  cipher : Cipher
  /-- `Dot`. -/
  multiplier : Multiplier
  /-- `REK_FIRST_AT_HIGH_BYTES`. -/
  rekFirstAtHighBytes : Bool
  /-- `CTR_INIT_MSB_SET`. -/
  ctrInitMsbSet : Bool
  /-- `CtrNext`. -/
  increment : Increment
  deriving DecidableEq, Repr

/-- `MAX_LEN` = 2^36 (R5): the largest legal AAD length and message length in bytes. -/
abbrev Config.maxLen : Nat := 2 ^ 36

/-- `THRESHOLD` = 128 (R5): the largest total size for which AUTO uses the sequential strategy and 4-way batches. -/
abbrev Config.threshold : Nat := 128

/-- `HT_ENTRIES` = 8 (R5). -/
abbrev Config.htEntries : Nat := 8

/-- Every parameter at the spec's default (R5). DESIGN CHOICE (unsafe, log 3): R5 gives the two capacities no default; the model
takes the largest value R5 allows, so that no length the spec calls legal is turned away. UNVERIFIED (log 15): the default primitives
are the spec's own, which it marks as decisions or general knowledge. -/
def Config.default : Config where
  aadCap := 2 ^ 36
  msgCap := 2 ^ 36
  cipher := .aes256
  multiplier := .polyval
  rekFirstAtHighBytes := true
  ctrInitMsbSet := false
  increment := .le32

/-- FREE VALUE (log 4): the byte at an offset of a buffer space that nothing has written since reset event number `launch`
(R151: "each byte is an arbitrary value, the same on every read until written"). -/
opaque Config.bufInit : (launch : Nat) → Space → (offset : Nat) → Byte

/-- FREE VALUE (log 2): the key expansion of collaborator cipher `n` (R60). -/
opaque Config.suppliedKeyExpand : (n : Nat) → Key → Schedule

/-- FREE VALUE (log 2): the block encryption of collaborator cipher `n` (R60). -/
opaque Config.suppliedEncKS : (n : Nat) → Schedule → Block → Block

/-- FREE VALUE (log 2): the product of collaborator multiplier `n` (R67). -/
opaque Config.suppliedDot : (n : Nat) → Block → Block → Block

/-- FREE VALUE (log 2): increment function `n` (R103). -/
opaque Config.suppliedCtrNext : (n : Nat) → Block → Block

end Sys2Proof
end

