-- ==== Sys2Proof/Machine/State.lean ====
section
/-! DEFINITION. The state of the machine (10_state.md R10 to R23, 20_memory.md R32) as plain data, the reasons a step can stop, and
the state after reset (70_reset_and_hazards.md R150, R151). -/
namespace Sys2Proof.Machine

/-- A buffer memory: (offset, byte) pairs, offsets strictly rising. An offset that is not listed holds no byte that anything has
written; what reading it gives is `State.readByte` in Machine/Ops.lean (R151, log 4). -/
abbrev Memory := List Host.Cell

/-- The seventeen phases of R45. The codes 17 to 31 are unreachable and cannot be written here (R13, U10; log 16). -/
inductive Phase where
  | idle
  | deriveH
  | deriveK1
  | deriveK2
  | htBuild
  | hashAad
  | hashMsg
  | hashLen
  | final
  | tagEnc
  | ctrEnc
  | ksRek
  | decHash
  | tagCmp
  | copyback
  | wipe
  | clear
  deriving DecidableEq, Repr

/-- The bits of `STATUS` (R17), bit 0 first; bits 31 to 7 read as 0 and have no storage (log 16). -/
structure Status where
  /-- Bit 0: a command is executing. -/
  busy : Bool
  /-- Bit 1: the last accepted command has completed. -/
  done : Bool
  /-- Bit 2: the last completed command was an OPEN whose tags matched. -/
  authOk : Bool
  /-- Bit 3: the last completed command was an OPEN whose tags differed. -/
  authFail : Bool
  /-- Bit 4: the hashing strategy, 0 sequential, 1 table-accelerated. -/
  stratTable : Bool
  /-- Bit 5: the batch width, 0 four-way, 1 eight-way. -/
  ways8 : Bool
  /-- Bit 6: the last write to `CMD` was rejected. -/
  cmdErr : Bool
  deriving DecidableEq, Repr

/-- The four host operations of R30, R31, R33. A word index is 6 bits, a buffer offset 37 bits. -/
inductive HostOp where
  | regRead (w : BitVec 6)
  | regWrite (w : BitVec 6) (v : RegWord)
  | bufRead (sp : Space) (a : BitVec 37)
  | bufWrite (sp : Space) (a : BitVec 37) (b : Byte)
  deriving DecidableEq, Repr

/-- One move still to come from outside the engine's own rules (R8, R30, R50; log 5). -/
inductive Input where
  /-- The host performs one operation. -/
  | host (op : HostOp)
  /-- The engine is scheduled for one step. -/
  | engine
  /-- The spin-wait `WAIT` of R49: read `STATUS` until `DONE` is 1 (log 6). -/
  | wait
  /-- The reset input is applied (R150; log 7). -/
  | reset
  deriving DecidableEq, Repr

/-- A value a host read has returned. -/
inductive Reply where
  | word (v : RegWord)
  | byte (b : Byte)
  deriving DecidableEq, Repr

/-- Why a step can fault. -/
inductive Fault where
  /-- Raised by the engine step when `PHASE` is `TAG_ENC` and `OPC` is neither 1 nor 2: R46 has no row for it, so the machine is
  stuck (log 9). Safe: no accepted command reaches such a state. -/
  | noRuleForPhase
  deriving DecidableEq, Repr

/-- Why the model has no meaning for a step. -/
inductive Refusal where
  /-- Raised by the acceptance of SEAL and OPEN: a length register is above `min(2^36, capacity)`, and the spec refuses the launch
  (R100, R110, R149). Safe. -/
  | lengthPrecondition
  /-- Raised by an engine access that would leave its buffer: the spec refuses it rather than give it a meaning (R39, U1). Safe: it
  needs a length register above the capacity, and no accepted command runs with one. -/
  | engineAccessOutOfRange
  /-- Raised by an arm of `exec` that has no meaning yet (none is left). Safe. -/
  | notModelled (mnemonic : String)
  deriving DecidableEq, Repr

structure State where
  /-- The parameters of R5 (model's own field: R10 calls them parameters of the step relation, log 1). No step changes it. -/
  cfg : Config
  /-- `AAD_LEN`, byte length of the associated data (R11, R18). -/
  aadLen : BitVec 64
  /-- `MSG_LEN`, byte length of the message (R11, R18). -/
  msgLen : BitVec 64
  /-- `NONCE` (R11). -/
  nonce : Block
  /-- `TAG` (R11). -/
  tag : Block
  /-- `KEY`, the master key (R11). -/
  key : Key
  /-- `H`, the record hash key (R12). -/
  h : Block
  /-- `REK`, the record encryption key (R12). -/
  rek : Key
  /-- `ACC`, the running hash (R12). -/
  acc : Block
  /-- `PRETAG` (R12). -/
  pretag : Block
  /-- `TAGC`, the tag the engine computed (R12). -/
  tagc : Block
  /-- `CB`, the current counter block (R12). -/
  cb : Block
  /-- `DIFF`, the OR-accumulated byte difference (R12). -/
  diff : Byte
  /-- `PHASE` (R13). -/
  phase : Phase
  /-- `OPC`, the opcode of the last accepted command (R13). -/
  opc : BitVec 4
  /-- `BLK`, the block index within the current looping phase (R13). -/
  blk : BitVec 64
  /-- `KS`, the expanded key schedule (R14). -/
  ks : Schedule
  /-- `HTABLE`, the powers of the hash key (R14). -/
  htable : Vector Block 8
  /-- `SCRATCH`: block `i` is bytes `16i .. 16i+15` (R14). -/
  scratch : Vector Block 8
  /-- `STATUS` (R17). -/
  status : Status
  /-- `AAD_BUF` (R32). -/
  aadBuf : Memory
  /-- `IN_BUF` (R32). -/
  inBuf : Memory
  /-- `OUT_BUF` (R32). -/
  outBuf : Memory
  /-- How many reset events there have been (model's own field: the argument of the free buffer contents, log 4, log 7). -/
  launch : Nat
  /-- The moves still to come, the next one first (model's own field, log 5). -/
  inputs : List Input
  /-- What the host's reads have returned, oldest first (model's own field, log 5). -/
  replies : List Reply
  deriving DecidableEq, Repr

/-- The outcome of one step. -/
abbrev Result := Host.Outcome State Fault Refusal

/-- `STATUS` = 0x00000000 (R150). -/
def Status.zero : Status where
  busy := false
  done := false
  authOk := false
  authFail := false
  stratTable := false
  ways8 := false
  cmdErr := false

/-- The machine after reset: every register, `STATUS` and the context zero, `PHASE` = `IDLE` (R150), the buffers with nothing
written (R151). The parameters are the spec's defaults (log 1, log 3); the model's own fields start empty (log 4, log 5). -/
def State.reset : State where
  cfg := Config.default
  aadLen := 0
  msgLen := 0
  nonce := 0
  tag := 0
  key := 0
  h := 0
  rek := 0
  acc := 0
  pretag := 0
  tagc := 0
  cb := 0
  diff := 0
  phase := .idle
  opc := 0
  blk := 0
  ks := 0
  htable := Vector.replicate 8 0
  scratch := Vector.replicate 8 0
  status := Status.zero
  aadBuf := []
  inBuf := []
  outBuf := []
  launch := 0
  inputs := []
  replies := []

end Sys2Proof.Machine
end

