-- ==== Sys2Proof/Machine/Ops.lean ====
section
/-! DEFINITION. The named operations over bytes, memories and registers: byte and word fields (00_scope.md R6), the buffer memories
(20_memory.md R32 to R34), the busy lockout (R36) and the two ends of a command that every command shares (43_seal.md R100,
44_open.md R110, 45_context.md R131). There is no operation for taking an exception or returning from one: the block has neither
(60_exceptions.md R140, R144, R145). -/
namespace Sys2Proof.Machine

/-! ## Byte strings as little-endian values (R6) -/

/-- Byte `i` of a value: bits `[8i+7 : 8i]` (R6). -/
def byteAt {n : Nat} (v : BitVec n) (i : Nat) : Byte := v.extractLsb' (8 * i) 8

/-- Word `i` of a multi-word register: bits `[32i+31 : 32i]` (R19). -/
def wordAt {n : Nat} (v : BitVec n) (i : Nat) : RegWord := v.extractLsb' (32 * i) 32

/-- The value `v` with word `i` replaced and every other bit kept (R18, R19). -/
def putWord {n : Nat} (v : BitVec n) (i : Nat) (w : RegWord) : BitVec n :=
  (v &&& ~~~((BitVec.allOnes 32).setWidth n <<< (32 * i))) ||| (w.setWidth n <<< (32 * i))

/-- The block whose byte `i` is `f i` for `i < n`, and 0 from byte `n` on. -/
def blockOf (f : Nat → Byte) : (n : Nat) → Block
  | 0 => 0
  | n + 1 => blockOf f n ||| ((f n).setWidth 128 <<< (8 * n))

/-- The first `n` bytes of a block, the bytes from `n` on zero: `v[0 .. n-1] ‖ (16 - n zero bytes)` (R35, R113). -/
def firstBytes (n : Nat) (v : Block) : Block := v &&& ((1#128 <<< (8 * n)) - 1#128)

/-! ## The buffer memories -/

/-- The byte listed at an offset, if one is. -/
def Memory.find : Memory → Nat → Option Byte
  | [], _ => none
  | (c, d) :: m, a => if a = c then some d else Memory.find m a

/-- The memory with byte `b` at offset `a`, everything else kept, in canonical form. -/
def Memory.put : Memory → Nat → Byte → Memory
  | [], a, b => [(a, b)]
  | (c, d) :: m, a, b =>
    if a < c then (a, b) :: (c, d) :: m
    else if a = c then (a, b) :: m
    else (c, d) :: Memory.put m a b

/-- Every listed offset is above `lo`, and they rise strictly. -/
def Memory.above (lo : Nat) : Memory → Bool
  | [] => true
  | (c, _) :: m => decide (lo < c) && Memory.above c m

/-- The canonical form: offsets strictly rising. An unlisted offset holds no written byte, so no entry can repeat what it holds. -/
def Memory.wf : Memory → Bool
  | [] => true
  | (c, _) :: m => Memory.above c m

/-- Every listed offset is inside a capacity. -/
def Memory.within (cap : Nat) (m : Memory) : Bool := m.all fun cell => decide (cell.1 < cap)

/-- The memory of a space (R32). -/
def State.mem (s : State) : Space → Memory
  | .aadBuf => s.aadBuf
  | .inBuf => s.inBuf
  | .outBuf => s.outBuf

/-- The state with the memory of one space replaced (R32: the three spaces are physically distinct). -/
def State.setMem (s : State) (sp : Space) (m : Memory) : State :=
  match sp with
  | .aadBuf => { s with aadBuf := m }
  | .inBuf => { s with inBuf := m }
  | .outBuf => { s with outBuf := m }

/-- The capacity of a space in bytes (R32). -/
def State.capacity (s : State) : Space → Nat
  | .aadBuf => s.cfg.aadCap
  | .inBuf => s.cfg.msgCap
  | .outBuf => s.cfg.msgCap

/-- The byte of a space at an offset: what was last written there, and until something is written the free value of this launch,
the same on every read (R151; log 4). -/
def State.readByte (s : State) (sp : Space) (a : Nat) : Byte :=
  ((s.mem sp).find a).getD (Config.bufInit s.launch sp a)

/-- The state with one byte of a space written. -/
def State.writeByte (s : State) (sp : Space) (a : Nat) (b : Byte) : State :=
  s.setMem sp ((s.mem sp).put a b)

/-- `MemRead(space, addr, n)` (R34), the `n` bytes as the low bytes of a block, zero above (log 14). -/
def memRead (s : State) (sp : Space) (addr n : Nat) : Block :=
  blockOf (fun i => s.readByte sp (addr + i)) n

/-- `MemWrite(space, addr, n, v)` (R34): the low `n` bytes of `v`. -/
def memWrite (s : State) (sp : Space) (addr : Nat) (v : Block) : (n : Nat) → State
  | 0 => s
  | n + 1 => (memWrite s sp addr v n).writeByte sp (addr + n) (byteAt v n)

/-- An engine step that accesses offsets below `top` of a space. Beyond the capacity the spec gives the access no meaning and the
model refuses (R39, U1; log 12). -/
def engineAccess (s : State) (sp : Space) (top : Nat) (r : Result) : Result :=
  if top ≤ s.capacity sp then r else .refused .engineAccessOutOfRange

/-! ## Commands -/

/-- The busy lockout of R36 on a host write, command writes among them: while `BUSY = 1` it is dropped without any effect. -/
def unlessBusy (s : State) (r : Result) : Result :=
  if s.status.busy then .next s else r

/-- What `STATUS` becomes when a command is accepted (R100, R110, R131): `BUSY` and the two mode bits, everything else 0. -/
def Status.accepted (stratTable ways8 : Bool) : Status where
  busy := true
  done := false
  authOk := false
  authFail := false
  stratTable := stratTable
  ways8 := ways8
  cmdErr := false

/-- The length precondition of R100 and R110. -/
def lengthsLegal (s : State) : Bool :=
  decide (s.aadLen.toNat ≤ min Config.maxLen s.cfg.aadCap) && decide (s.msgLen.toNat ≤ min Config.maxLen s.cfg.msgCap)

/-- The assignments every acceptance makes (R100, R110, R131). -/
def accept (s : State) (opc : BitVec 4) (stratTable ways8 : Bool) (phase : Phase) : State :=
  { s with opc := opc, blk := 0, status := Status.accepted stratTable ways8, phase := phase }

/-- Acceptance of SEAL or OPEN (R100, R110): refused outside the length precondition, dropped while busy (R36). -/
def launchCommand (s : State) (opc : BitVec 4) (stratTable ways8 : Bool) : Result :=
  unlessBusy s <|
    if lengthsLegal s then .next (accept s opc stratTable ways8 .deriveH) else .refused .lengthPrecondition

/-- The internal data registers, `KEY` and `BLK` zeroed, `PHASE` = `IDLE`: what `WIPE` and `CLEAR` share (R130, R132). -/
def State.zeroSecrets (s : State) : State :=
  { s with
    h := 0, rek := 0, key := 0, acc := 0, pretag := 0, tagc := 0, cb := 0, diff := 0, blk := 0, phase := .idle }

end Sys2Proof.Machine
end

