-- ==== Sys2Proof/Machine/Operands.lean ====
section
/-! DEFINITION. Every operand form: the registers behind the word index of the host port (10_state.md R15, 20_memory.md R31), blocks
of a buffer (R7, R35), the length block (42_polyval.md R87) and the batch sizes (R83, R105, R113). -/
namespace Sys2Proof.Machine

/-- `nblk(len) = ceil(len / 16)` (R7). -/
def nblk (len : BitVec 64) : Nat := (len.toNat + 15) / 16

/-- How many bytes of block `j` are valid: `min(16, len - 16j)` (R35, R105). -/
def validBytes (len : BitVec 64) (j : Nat) : Nat := min 16 (len.toNat - 16 * j)

/-- `Blk(space, len, j)`: block `j` of a buffer of `len` valid bytes, zero-padded (R35). -/
def blk (s : State) (sp : Space) (len : BitVec 64) (j : Nat) : Block :=
  memRead s sp (16 * j) (validBytes len j)

/-- Blocks `j, ..., j + r - 1` of a buffer, in order (R83). -/
def blks (s : State) (sp : Space) (len : BitVec 64) (j : Nat) : (r : Nat) → List Block
  | 0 => []
  | r + 1 => blk s sp len j :: blks s sp len (j + 1) r

/-- The offset just above the valid bytes of blocks below `j`: the highest an engine step reaches (R34). -/
def topOffset (len : BitVec 64) (j : Nat) : Nat := min (16 * j) len.toNat

/-- How many blocks the next batch of at most `w` holds: `min(w, n - BLK)` (R83, R105, R113). -/
def batchSize (w n blkIndex : Nat) : Nat := min w (n - blkIndex)

/-- `LENBLK = le64(8 * AAD_LEN) ‖ le64(8 * MSG_LEN)` (R87). -/
def lenblk (aadLen msgLen : BitVec 64) : Block :=
  (BitVec.ofNat 64 (8 * msgLen.toNat)) ++ (BitVec.ofNat 64 (8 * aadLen.toNat))

/-- The low half of a 256-bit key: bytes 0 to 15. -/
def lowHalf (k : Key) : Block := k.extractLsb' 0 128

/-- The high half of a 256-bit key: bytes 16 to 31 (R73: "the high half is bytes 16 to 31"). -/
def highHalf (k : Key) : Block := k.extractLsb' 128 128

/-- The key with bytes 16 to 31 replaced. -/
def putHigh (k : Key) (b : Block) : Key := b ++ lowHalf k

/-- The key with bytes 0 to 15 replaced. -/
def putLow (k : Key) (b : Block) : Key := highHalf k ++ b

/-- What a register word holds for a read, `STATUS` apart (R15): write-only and unmapped words read 0. -/
def wordContents (s : State) (w : BitVec 6) : RegWord :=
  let i := w.toNat
  if i = 2 ∨ i = 3 then wordAt s.aadLen (i - 2)
  else if i = 4 ∨ i = 5 then wordAt s.msgLen (i - 4)
  else if 8 ≤ i ∧ i ≤ 11 then wordAt s.nonce (i - 8)
  else if 12 ≤ i ∧ i ≤ 15 then wordAt s.tag (i - 12)
  else 0

/-- A multi-word register whose words are `base .. base + n - 1`, after a write of `v` to word `i`: one of its words replaced if `i` is
one of them, else as it was. -/
def storeInto {m : Nat} (r : BitVec m) (base n i : Nat) (v : RegWord) : BitVec m :=
  if base ≤ i ∧ i < base + n then putWord r (i - base) v else r

/-- Storing into a register word other than `CMD` (R15, R31): words 2 and 3 are `AAD_LEN`, 4 and 5 `MSG_LEN`, 8 to 11 `NONCE`, 12 to 15
`TAG`, 16 to 23 `KEY`; a write to a read-only or unmapped word changes nothing. -/
def storeWord (s : State) (w : BitVec 6) (v : RegWord) : State :=
  { s with
    aadLen := storeInto s.aadLen 2 2 w.toNat v
    msgLen := storeInto s.msgLen 4 2 w.toNat v
    nonce := storeInto s.nonce 8 4 w.toNat v
    tag := storeInto s.tag 12 4 w.toNat v
    key := storeInto s.key 16 8 w.toNat v }

end Sys2Proof.Machine
end

