-- ==== Sys2Proof/Machine/Flags.lean ====
section
/-! DEFINITION. Every flag of the machine (10_state.md R17, R20): the `STATUS` word, the size predicate behind `STRAT_TABLE` and
`WAYS8` (42_polyval.md R92, 43_seal.md R106), `DIFF` (44_open.md R120), what `WIPE` and `CLEAR` make of `STATUS` (45_context.md R130,
R132), and the output wire `done` (60_exceptions.md R142). -/
namespace Sys2Proof.Machine

/-- The word a read of `STATUS` returns (R17): bit 0 `BUSY` to bit 6 `CMD_ERR`, bits 31 to 7 zero. -/
def Status.word (st : Status) : RegWord :=
  (0#25 ++ BitVec.ofBool st.cmdErr ++ BitVec.ofBool st.ways8 ++ BitVec.ofBool st.stratTable ++ BitVec.ofBool st.authFail ++
    BitVec.ofBool st.authOk ++ BitVec.ofBool st.done ++ BitVec.ofBool st.busy : BitVec 32)

/-- `Big(AAD_LEN, MSG_LEN) = (AAD_LEN + MSG_LEN > THRESHOLD)`, exact integer sum (R92). -/
def big (s : State) : Bool := decide (s.aadLen.toNat + s.msgLen.toNat > Config.threshold)

/-- The OR over bytes `0 .. n-1` of the bytewise xors (R120): every byte is examined. -/
def tagDiff (a b : Block) : (n : Nat) → Byte
  | 0 => 0
  | n + 1 => tagDiff a b n ||| (byteAt a n ^^^ byteAt b n)

/-- `STATUS` after `WIPE` (R130): `AUTH_OK` and `AUTH_FAIL` from `OPC` and `DIFF`, `DONE` set, `BUSY` cleared; `STRAT_TABLE`, `WAYS8` and
`CMD_ERR` are not written. -/
def Status.wiped (st : Status) (opc : BitVec 4) (diff : Byte) : Status :=
  { st with
    authOk := opc == 2 && diff == 0
    authFail := opc == 2 && diff != 0
    done := true
    busy := false }

/-- `STATUS` after `CLEAR` (R132): `DONE` only. -/
def Status.cleared : Status := { Status.zero with done := true }

/-- The output wire `done`: "equal to `STATUS.DONE` at all times" (R142). -/
def State.doneWire (s : State) : Bool := s.status.done

end Sys2Proof.Machine
end

