-- ==== Sys2Proof/Machine/Commands.lean ====
section
/-! DEFINITION. The five command words: their acceptance, which is part of the host's write to `CMD` and not an engine step
(43_seal.md R100, 44_open.md R110, 45_context.md R131). A command written while `BUSY` = 1 is dropped (20_memory.md R36; log 11). -/
namespace Sys2Proof.Machine

/-- `SEAL` (R100, `HMODE` = 0): strategy and width follow `Big` (R92, R106). -/
def execSeal (s : State) : Result := launchCommand s 1 (big s) (big s)

/-- `SEAL.SEQ` (R100, `HMODE` = 1): the sequential strategy, the width still follows `Big`. -/
def execSealSeq (s : State) : Result := launchCommand s 1 false (big s)

/-- `SEAL.TABLE` (R100, `HMODE` = 2): the table strategy, the width still follows `Big`. -/
def execSealTable (s : State) : Result := launchCommand s 1 true (big s)

/-- `OPEN` (R110): always the table strategy, always 8-way. -/
def execOpen (s : State) : Result := launchCommand s 2 true true

/-- `CLEAR_CONTEXT` (R131): no precondition. -/
def execClearContext (s : State) : Result := unlessBusy s (.next (accept s 3 false false .clear))

end Sys2Proof.Machine
end

