-- ==== Sys2Proof/Machine/Primitives.lean ====
section
/-! DEFINITION. The collaborator primitives (40_primitives.md R60 to R69): the default block cipher AES-256, the default field
multiplication, and the selection of primitive by configuration. The defaults are the spec's, marked there as general knowledge. -/
namespace Sys2Proof.Machine

/-! ## AES-256 (R62 to R65) -/

/-- The rows of the S-box as R63 prints them: row `r`, column `c` is byte `15 - c` of entry `r`. -/
def sboxRows : List (BitVec 128) :=
  [0x637c777bf26b6fc53001672bfed7ab76, 0xca82c97dfa5947f0add4a2af9ca472c0,
   0xb7fd9326363ff7cc34a5e5f171d83115, 0x04c723c31896059a071280e2eb27b275,
   0x09832c1a1b6e5aa0523bd6b329e32f84, 0x53d100ed20fcb15b6acbbe394a4c58cf,
   0xd0efaafb434d338545f9027f503c9fa8, 0x51a3408f929d38f5bcb6da2110fff3d2,
   0xcd0c13ec5f974417c4a77e3d645d1973, 0x60814fdc222a908846eeb814de5e0bdb,
   0xe0323a0a4906245cc2d3ac629195e479, 0xe7c8376d8dd54ea96c56f4ea657aae08,
   0xba78252e1ca6b4c6e8dd741f4bbd8b8a, 0x703eb5664803f60e613557b986c11d9e,
   0xe1f8981169d98e949b1e87e9ce5528df, 0x8ca1890dbfe6426841992d0fb054bb16]

/-- `SBOX[x]` (R63). -/
def sbox (x : Byte) : Byte := byteAt (sboxRows.getD (x.toNat / 16) 0) (15 - x.toNat % 16)

/-- Multiplication by `x` in GF(2^8) modulo 0x11B (R62). -/
def xtime (a : Byte) : Byte := (a <<< 1) ^^^ (if a.getLsbD 7 then 0x1b else 0)

/-- `mul(a, 3)` (R62). -/
def mul3 (a : Byte) : Byte := xtime a ^^^ a

/-- The S-box on each byte of a 4-byte word. -/
def subWord (t : BitVec 32) : BitVec 32 :=
  sbox (byteAt t 3) ++ sbox (byteAt t 2) ++ sbox (byteAt t 1) ++ sbox (byteAt t 0)

/-- Word `w[i]` of the key expansion from the words before it, latest first (R64); `rcon` is the round constant of this word. -/
def expandWord (i : Nat) (rcon : Byte) (ws : List (BitVec 32)) : BitVec 32 :=
  let t := ws.headD 0
  let t' :=
    if i % 8 = 0 then subWord (t.rotateRight 8) ^^^ rcon.setWidth 32
    else if i % 8 = 4 then subWord t
    else t
  ws.getD 7 0 ^^^ t'

/-- `n` more words from index `i` on, latest first; the round constant advances by `xtime` where it is used (R64). -/
def expandWords : (n i : Nat) → (rcon : Byte) → List (BitVec 32) → List (BitVec 32)
  | 0, _, _, ws => ws
  | n + 1, i, rcon, ws =>
    expandWords n (i + 1) (if i % 8 = 0 then xtime rcon else rcon) (expandWord i rcon ws :: ws)

/-- Words, latest first, as one byte string with `w[0]` at byte 0. -/
def packWords : List (BitVec 32) → Schedule
  | [] => 0
  | w :: ws => packWords ws ||| (w.setWidth 1920 <<< (32 * ws.length))

/-- Words `w[n-1], ..., w[0]` of the key, latest first. -/
def keyWords (k : Key) : (n : Nat) → List (BitVec 32)
  | 0 => []
  | n + 1 => wordAt k n :: keyWords k n

/-- The default `KeyExpand(K)` (R64). -/
def aesKeyExpand (k : Key) : Schedule := packWords (expandWords 52 8 1 (keyWords k 8))

/-- `RK(r)`: bytes `16r .. 16r+15` of the schedule (R65). -/
def roundKey (ks : Schedule) (r : Nat) : Block := ks.extractLsb' (128 * r) 128

/-- `SubBytes` (R65). -/
def subBytes (s : Block) : Block := blockOf (fun i => sbox (byteAt s i)) 16

/-- `ShiftRows` (R65): `s'[r + 4c] = s[r + 4((c + r) mod 4)]`. -/
def shiftRows (s : Block) : Block := blockOf (fun i => byteAt s (i % 4 + 4 * ((i / 4 + i % 4) % 4))) 16

/-- `MixColumns` (R65): with `a` the column of byte `i` and `r` its row, the byte becomes `2 a[r] + 3 a[r+1] + a[r+2] + a[r+3]`, rows
modulo 4. -/
def mixColumns (s : Block) : Block :=
  blockOf (fun i =>
    let a := fun k => byteAt s (4 * (i / 4) + (i % 4 + k) % 4)
    xtime (a 0) ^^^ mul3 (a 1) ^^^ a 2 ^^^ a 3) 16

/-- Round `rnd` of R65; the last, 14, has no `MixColumns`. -/
def aesRound (ks : Schedule) (rnd : Nat) (s : Block) : Block :=
  let t := shiftRows (subBytes s)
  (if rnd = 14 then t else mixColumns t) ^^^ roundKey ks rnd

/-- Rounds `1 .. n`. -/
def aesRounds (ks : Schedule) (s : Block) : (n : Nat) → Block
  | 0 => s
  | n + 1 => aesRound ks (n + 1) (aesRounds ks s n)

/-- The default `EncKS(S, B)` (R65). -/
def aesEncKS (ks : Schedule) (b : Block) : Block := aesRounds ks (b ^^^ roundKey ks 0) 14

/-! ## The field multiplication (R68) -/

/-- The carry-less product of `a` with bits `0 .. n-1` of `b`. -/
def clProduct (a b : Block) : (n : Nat) → BitVec 256
  | 0 => 0
  | n + 1 => clProduct a b n ^^^ (if b.getLsbD n then a.setWidth 256 <<< n else 0)

/-- `x^127 + x^126 + x^121 + 1`, which `x^128` is modulo `p` (R68). -/
def polyLow : BitVec 256 := 0xc2000000000000000000000000000001

/-- For `i` from `127 + n` down to 128: a set bit `i` is replaced by `x^(i-128) * (x^127 + x^126 + x^121 + 1)` (R68). -/
def clReduce : (n : Nat) → BitVec 256 → BitVec 256
  | 0, r => r
  | n + 1, r => clReduce n (r ^^^ (if r.getLsbD (128 + n) then (1#256 <<< (128 + n)) ^^^ (polyLow <<< n) else 0))

/-- `clmod(a, b)` (R68). -/
def clmod (a b : Block) : Block := (clReduce 127 (clProduct a b 128)).setWidth 128

/-- The element `x^(-128) = x^127 + x^124 + x^121 + x^114 + 1`, the block `01000000000000000000000000000492` (R68). -/
def xInv128 : Block := 0x92040000000000000000000000000001

/-- The default `Dot(A, B) = clmod(clmod(A, B), X)` (R68). -/
def polyvalDot (a b : Block) : Block := clmod (clmod a b) xInv128

/-! ## The primitives of a configuration -/

/-- `KeyExpand(K)` (R60). -/
def keyExpand (c : Config) (k : Key) : Schedule :=
  match c.cipher with
  | .aes256 => aesKeyExpand k
  | .supplied n => Config.suppliedKeyExpand n k

/-- `EncKS(S, B)` (R60). -/
def encKS (c : Config) (ks : Schedule) (b : Block) : Block :=
  match c.cipher with
  | .aes256 => aesEncKS ks b
  | .supplied n => Config.suppliedEncKS n ks b

/-- `E(K, B) = EncKS(KeyExpand(K), B)` (R60, PA1). -/
def cipherE (c : Config) (k : Key) (b : Block) : Block := encKS c (keyExpand c k) b

/-- `Dot(A, B)` (R67). -/
def dot (c : Config) (a b : Block) : Block :=
  match c.multiplier with
  | .polyval => polyvalDot a b
  | .supplied n => Config.suppliedDot n a b

/-- The default `CtrNext`: the little-endian integer in bytes 0 to 3 plus 1 modulo 2^32, bytes 4 to 15 unchanged (R103). -/
def le32Increment (b : Block) : Block := b.extractLsb' 32 96 ++ (b.extractLsb' 0 32 + 1#32)

/-- `CtrNext(C)` (R103). -/
def ctrNext (c : Config) (b : Block) : Block :=
  match c.increment with
  | .le32 => le32Increment b
  | .supplied n => Config.suppliedCtrNext n b

/-- `CtrInit(T)` (R103): the tag, or the tag with bit 127 set to 1 when `CTR_INIT_MSB_SET`. -/
def ctrInit (c : Config) (t : Block) : Block := if c.ctrInitMsbSet then t ||| (1#128 <<< 127) else t

end Sys2Proof.Machine
end

