-- ==== Sys2Proof/Machine/Polyval.lean ====
section
/-! DEFINITION. The POLYVAL hash engine (42_polyval.md R80 to R93): phases `HT_BUILD`, `HASH_AAD`, `HASH_MSG`, `HASH_LEN`, `FINAL`. -/
namespace Sys2Proof.Machine

/-- One sequential absorption `Mac(ACC, H, X) = Dot(ACC xor X, H)` (R82), over a multiplication. -/
def macWith (mul : Block → Block → Block) (acc h x : Block) : Block := mul (acc ^^^ x) h

/-- Entry `k` of `HTABLE`; there is none from 8 on (log 18). -/
def tableEntry (ht : Vector Block 8) (k : Nat) : Block := ht[k]?.getD 0

/-- The products of a batch after its first block: `Dot(X[i], HTABLE[r-1-i])` summed by xor (R85); the index of a block is the number
of blocks behind it. -/
def batchTail (mul : Block → Block → Block) (ht : Vector Block 8) : List Block → Block
  | [] => 0
  | x :: xs => mul x (tableEntry ht xs.length) ^^^ batchTail mul ht xs

/-- `BatchAbsorb(ACC, X[0..r-1])` (R85): the old accumulator rides with block 0. Absorbing no block leaves `ACC` (R85 has `r >= 1`). -/
def batchAbsorbWith (mul : Block → Block → Block) (ht : Vector Block 8) (acc : Block) : List Block → Block
  | [] => acc
  | x :: xs => mul (x ^^^ acc) (tableEntry ht xs.length) ^^^ batchTail mul ht xs

/-- `HTABLE[0] <- H`, then `HTABLE[k] <- Dot(HTABLE[k-1], H)` up to entry `n` (R84). -/
def buildTableWith (mul : Block → Block → Block) (h : Block) : (n : Nat) → Vector Block 8 → Vector Block 8
  | 0, ht => ht.setIfInBounds 0 h
  | n + 1, ht =>
    let t := buildTableWith mul h n ht
    t.setIfInBounds (n + 1) (mul (tableEntry t n) h)

/-- `Mac` with the machine's `Dot` and `H` (R82). -/
def mac (s : State) (x : Block) : Block := macWith (dot s.cfg) s.acc s.h x

/-- `BatchAbsorb` with the machine's `Dot`, `HTABLE` and `ACC` (R85). -/
def batchAbsorb (s : State) (xs : List Block) : Block := batchAbsorbWith (dot s.cfg) s.htable s.acc xs

/-- `HT_BUILD` (R84). -/
def execHtBuild (s : State) : Result :=
  .next { s with htable := buildTableWith (dot s.cfg) s.h (Config.htEntries - 1) s.htable, phase := .hashAad }

/-- One step of a hash pass over a buffer (R83, R86): one block in sequential mode, one batch in batch mode, or the exit. -/
def hashPass (s : State) (sp : Space) (len : BitVec 64) (exit : Phase) : Result :=
  let n := nblk len
  let j := s.blk.toNat
  if j < n then
    if s.status.stratTable then
      let r := batchSize Config.htEntries n j
      engineAccess s sp (topOffset len (j + r))
        (.next { s with acc := batchAbsorb s (blks s sp len j r), blk := s.blk + BitVec.ofNat 64 r })
    else
      engineAccess s sp (topOffset len (j + 1)) (.next { s with acc := mac s (blk s sp len j), blk := s.blk + 1 })
  else .next { s with blk := 0, phase := exit }

/-- `HASH_AAD` (R83): the exit is `HASH_MSG` if `OPC` = 1 (SEAL), else `KS_REK` (log 10). -/
def execHashAad (s : State) : Result := hashPass s .aadBuf s.aadLen (if s.opc = 1 then .hashMsg else .ksRek)

/-- `HASH_MSG` (R86). -/
def execHashMsg (s : State) : Result := hashPass s .inBuf s.msgLen .hashLen

/-- `HASH_LEN` (R88): the length block is always absorbed, in a pass of its own. -/
def execHashLen (s : State) : Result :=
  let x := lenblk s.aadLen s.msgLen
  .next { s with acc := if s.status.stratTable then batchAbsorb s [x] else mac s x, phase := .final }

/-- The pre-tag of R89: `ACC xor NONCE` with bit 127 cleared, the other bits as they are. -/
def finalize (acc nonce : Block) : Block := (acc ^^^ nonce) &&& 0x7fffffffffffffffffffffffffffffff

/-- `FINAL` (R89). -/
def execFinal (s : State) : Result := .next { s with pretag := finalize s.acc s.nonce, phase := .tagEnc }

end Sys2Proof.Machine
end

