-- ==== Sys2Proof/Machine/Counter.lean ====
section
/-! DEFINITION. The counter-mode orchestrator: `TAG_ENC` of a SEAL and `CTR_ENC` (43_seal.md R102 to R107), and the keystream batch that
`DEC_HASH` shares (R104). -/
namespace Sys2Proof.Machine

/-- `KeystreamBatch(r)` (R104): `SCRATCH` block `i` becomes `EncKS(KS, C)` for the `i`-th counter value, `CB` the next unused one; the
blocks of `SCRATCH` from `r` on keep their values. -/
def keystreamBatch (s : State) : (r : Nat) → State
  | 0 => s
  | r + 1 =>
    let t := keystreamBatch s r
    { t with scratch := t.scratch.setIfInBounds r (encKS t.cfg t.ks t.cb), cb := ctrNext t.cfg t.cb }

/-- Keystream block `i` of the batch in `SCRATCH`. -/
def keystreamBlock (s : State) (i : Nat) : Block := s.scratch[i]?.getD 0

/-- The valid bytes of message block `j` xored with a keystream block, zero from there on (R105, R113). -/
def xorBlock (s : State) (j : Nat) (z : Block) : Block :=
  firstBytes (validBytes s.msgLen j) (blk s .inBuf s.msgLen j ^^^ z)

/-- Blocks `j .. j + r - 1` of `IN_BUF` xored with the batch's keystream into `OUT_BUF` (R105, R113). -/
def xorBlocks (s : State) (j : Nat) : (r : Nat) → State
  | 0 => s
  | r + 1 =>
    let t := xorBlocks s j r
    memWrite t .outBuf (16 * (j + r)) (xorBlock t (j + r) (keystreamBlock t r)) (validBytes t.msgLen (j + r))

/-- `TAG_ENC` when `OPC` = 1 (R102). -/
def execTagEncSeal (s : State) : Result :=
  let t := encKS s.cfg (keyExpand s.cfg s.rek) s.pretag
  .next { s with
    ks := keyExpand s.cfg s.rek
    tagc := t
    tag := t
    cb := ctrInit s.cfg t
    phase := .ctrEnc }

/-- `W`: 8 if `WAYS8` = 1 else 4 (R105). -/
def batchWidth (s : State) : Nat := if s.status.ways8 then 8 else 4

/-- `CTR_ENC` (R105). -/
def execCtrEnc (s : State) : Result :=
  let n := nblk s.msgLen
  let j := s.blk.toNat
  if j < n then
    let r := batchSize (batchWidth s) n j
    engineAccess s .inBuf (topOffset s.msgLen (j + r)) <|
      .next { xorBlocks (keystreamBatch s r) j r with blk := s.blk + BitVec.ofNat 64 r }
  else .next { s with blk := 0, phase := .wipe }

end Sys2Proof.Machine
end

