-- ==== Sys2Proof/Machine/Derivation.lean ====
section
/-! DEFINITION. Phase `IDLE` (30_encoding.md R46) and the record-key derivation (41_key_derivation.md R70 to R75). -/
namespace Sys2Proof.Machine

/-- `IDLE` (R46): there is no engine step; "all state survives it unchanged" (R148; log 8). -/
def execIdle (s : State) : Result := .next s

/-- `DERIVE_H` (R72). -/
def execDeriveH (s : State) : Result :=
  .next { s with
    ks := keyExpand s.cfg s.key
    h := encKS s.cfg (keyExpand s.cfg s.key) s.nonce
    phase := .deriveK1 }

/-- The half of `REK` that `DERIVE_K1` writes, and the other, by `REK_FIRST_AT_HIGH_BYTES` (R73, R74). -/
def firstHalf (c : Config) (k : Key) : Block := if c.rekFirstAtHighBytes then highHalf k else lowHalf k

def putFirstHalf (c : Config) (k : Key) (b : Block) : Key := if c.rekFirstAtHighBytes then putHigh k b else putLow k b

def putSecondHalf (c : Config) (k : Key) (b : Block) : Key := if c.rekFirstAtHighBytes then putLow k b else putHigh k b

/-- `DERIVE_K1` (R73). -/
def execDeriveK1 (s : State) : Result :=
  .next { s with rek := putFirstHalf s.cfg s.rek (encKS s.cfg s.ks s.h), phase := .deriveK2 }

/-- `DERIVE_K2` (R74). -/
def execDeriveK2 (s : State) : Result :=
  .next { s with
    rek := putSecondHalf s.cfg s.rek (encKS s.cfg s.ks (firstHalf s.cfg s.rek))
    acc := 0
    phase := if s.status.stratTable then .htBuild else .hashAad }

end Sys2Proof.Machine
end

