-- ==== Sys2Proof/Machine/Hygiene.lean ====
section
/-! DEFINITION. Key hygiene: `WIPE` and `CLEAR` (45_context.md R130, R132). -/
namespace Sys2Proof.Machine

/-- `WIPE` (R130): the outcome is read from `OPC` and `DIFF` before `DIFF` is zeroed; the context, `NONCE`, `TAG`, the lengths and the
buffers are not touched. -/
def execWipe (s : State) : Result :=
  .next { s.zeroSecrets with status := s.status.wiped s.opc s.diff }

/-- `CLEAR` (R132): the context and all key material zeroed, `STATUS` = `DONE` only. -/
def execClear (s : State) : Result :=
  .next { s.zeroSecrets with
    ks := 0
    htable := Vector.replicate 8 0
    scratch := Vector.replicate 8 0
    status := Status.cleared }

end Sys2Proof.Machine
end

