-- ==== Sys2Proof/Machine/Opening.lean ====
section
/-! DEFINITION. OPEN: `KS_REK`, the fused `DEC_HASH`, `TAG_ENC` of an OPEN, the constant-time `TAG_CMP` and `COPYBACK` (44_open.md R110 to
R125). -/
namespace Sys2Proof.Machine

/-- `TAG_ENC` when `OPC` = 2 (R114): `KS`, `TAG` and `CB` are not touched. -/
def execTagEncOpen (s : State) : Result :=
  .next { s with tagc := encKS s.cfg s.ks s.pretag, phase := .tagCmp }

/-- `KS_REK` (R112). -/
def execKsRek (s : State) : Result :=
  .next { s with ks := keyExpand s.cfg s.rek, cb := ctrInit s.cfg s.tag, phase := .decHash }

/-- The recovered plaintext blocks `j .. j + r - 1`, zero-padded (R113: `X[i]`). -/
def plainBlocks (s : State) (j : Nat) : (r i : Nat) → List Block
  | 0, _ => []
  | r + 1, i => xorBlock s (j + i) (keystreamBlock s i) :: plainBlocks s j r (i + 1)

/-- `DEC_HASH` (R113): what is absorbed is the recovered plaintext, its padding zero. -/
def execDecHash (s : State) : Result :=
  let n := nblk s.msgLen
  let j := s.blk.toNat
  if j < n then
    let r := batchSize Config.htEntries n j
    let t := keystreamBatch s r
    engineAccess s .inBuf (topOffset s.msgLen (j + r)) <|
      .next { xorBlocks t j r with acc := batchAbsorb t (plainBlocks t j r 0), blk := s.blk + BitVec.ofNat 64 r }
  else .next { s with blk := 0, phase := .hashLen }

/-- `TAG_CMP` (R120): all 16 bytes, no early exit. -/
def execTagCmp (s : State) : Result :=
  let d := tagDiff s.tag s.tagc 16
  .next { s with diff := d, phase := if d = 0 then .wipe else .copyback }

/-- `COPYBACK` (R122): one block per step. -/
def execCopyback (s : State) : Result :=
  let n := nblk s.msgLen
  let j := s.blk.toNat
  if j < n then
    let m := validBytes s.msgLen j
    engineAccess s .inBuf (topOffset s.msgLen (j + 1)) <|
      .next { memWrite s .outBuf (16 * j) (memRead s .inBuf (16 * j) m) m with blk := s.blk + 1 }
  else .next { s with blk := 0, phase := .wipe }

end Sys2Proof.Machine
end

