-- ==== Sys2Proof/Machine/Dispatch.lean ====
section
/-! DEFINITION. One arm per instruction: the acceptance of a command word, or the rule of a phase (30_encoding.md R44, R45). -/
namespace Sys2Proof.Machine

def exec (i : Instr) (s : State) : Host.Outcome State Fault Refusal :=
  match i with
  | .sealAuto => Sys2Proof.Machine.execSeal s
  | .sealSeq => Sys2Proof.Machine.execSealSeq s
  | .sealTable => Sys2Proof.Machine.execSealTable s
  | .openCmd => Sys2Proof.Machine.execOpen s
  | .clearContext => Sys2Proof.Machine.execClearContext s
  | .idle => Sys2Proof.Machine.execIdle s
  | .deriveH => Sys2Proof.Machine.execDeriveH s
  | .deriveK1 => Sys2Proof.Machine.execDeriveK1 s
  | .deriveK2 => Sys2Proof.Machine.execDeriveK2 s
  | .htBuild => Sys2Proof.Machine.execHtBuild s
  | .hashAad => Sys2Proof.Machine.execHashAad s
  | .hashMsg => Sys2Proof.Machine.execHashMsg s
  | .hashLen => Sys2Proof.Machine.execHashLen s
  | .final => Sys2Proof.Machine.execFinal s
  | .tagEncSeal => Sys2Proof.Machine.execTagEncSeal s
  | .tagEncOpen => Sys2Proof.Machine.execTagEncOpen s
  | .ctrEnc => Sys2Proof.Machine.execCtrEnc s
  | .ksRek => Sys2Proof.Machine.execKsRek s
  | .decHash => Sys2Proof.Machine.execDecHash s
  | .tagCmp => Sys2Proof.Machine.execTagCmp s
  | .copyback => Sys2Proof.Machine.execCopyback s
  | .wipe => Sys2Proof.Machine.execWipe s
  | .clear => Sys2Proof.Machine.execClear s

end Sys2Proof.Machine
end

