-- ==== Sys2Proof/Machine/HostPort.lean ====
section
/-! DEFINITION. What moves the machine: the engine step (00_scope.md R8, 30_encoding.md R46), the four host operations (20_memory.md R30,
R31, R33), the command attempt (R44), the reset input (70_reset_and_hazards.md R150) and the spin-wait of R49; and where an
instruction is put so that it is the next to run. -/
namespace Sys2Proof.Machine

/-! ## The engine -/

/-- The code of a phase (R45). -/
def Phase.code : Phase → BitVec 5
  | .idle => 0
  | .deriveH => 1
  | .deriveK1 => 2
  | .deriveK2 => 3
  | .htBuild => 4
  | .hashAad => 5
  | .hashMsg => 6
  | .hashLen => 7
  | .final => 8
  | .tagEnc => 9
  | .ctrEnc => 10
  | .ksRek => 11
  | .decHash => 12
  | .tagCmp => 13
  | .copyback => 14
  | .wipe => 15
  | .clear => 16

/-- The phase of a code, if it is one of the seventeen (R45). -/
def Phase.ofCode (code : BitVec 5) : Option Phase :=
  [Phase.idle, .deriveH, .deriveK1, .deriveK2, .htBuild, .hashAad, .hashMsg, .hashLen, .final, .tagEnc, .ctrEnc, .ksRek, .decHash,
    .tagCmp, .copyback, .wipe, .clear][code.toNat]?

/-- The code the sequencer stands at: `PHASE`, read with `OPC` (R13, R46). -/
def State.nextCode (s : State) : Code := .phase s.opc s.phase.code

/-- One engine step executes the rule R45 names for `PHASE` (R46); in `IDLE` there is none and nothing changes (log 8). -/
def engineStep (s : State) : Result :=
  match decode s.nextCode with
  | .ok i => exec i s
  | .error _ => .fault .noRuleForPhase

/-! ## The host port -/

/-- `RegRead(w)` (R31): `STATUS` at any time, anything else 0 while busy (R36), else the contents of R15. -/
def regRead (s : State) (w : BitVec 6) : RegWord :=
  if w = 1 then s.status.word
  else if s.status.busy then 0
  else wordContents s w

/-- A command attempt (R44): a legal word is accepted, any other sets `CMD_ERR` and changes nothing else. -/
def commandAttempt (s : State) (v : RegWord) : Result :=
  match decode (.cmd v) with
  | .ok i => exec i s
  | .error _ => .next { s with status := { s.status with cmdErr := true } }

/-- `RegWrite(w, v)` (R31). -/
def regWrite (s : State) (w : BitVec 6) (v : RegWord) : Result :=
  unlessBusy s (if w = 0 then commandAttempt s v else .next (storeWord s w v))

/-- `BufRead(space, a)` (R33): 0 while busy and beyond the capacity. -/
def bufRead (s : State) (sp : Space) (a : BitVec 37) : Byte :=
  if s.status.busy then 0
  else if s.capacity sp ≤ a.toNat then 0
  else s.readByte sp a.toNat

/-- `BufWrite(space, a, b)` (R33): dropped while busy and beyond the capacity. -/
def bufWrite (s : State) (sp : Space) (a : BitVec 37) (b : Byte) : Result :=
  unlessBusy s (.next (if s.capacity sp ≤ a.toNat then s else s.writeByte sp a.toNat b))

/-- The state with one more value returned to the host. -/
def State.reply (s : State) (r : Reply) : State := { s with replies := s.replies ++ [r] }

/-- One host operation (R30). -/
def hostOp (s : State) : HostOp → Result
  | .regRead w => .next (s.reply (.word (regRead s w)))
  | .regWrite w v => regWrite s w v
  | .bufRead sp a => .next (s.reply (.byte (bufRead s sp a)))
  | .bufWrite sp a b => bufWrite s sp a b

/-- `WAIT` (R49): read `STATUS`; if `DONE` is not 1, let the engine take a step and read again (log 6). -/
def hostWait (s : State) : State :=
  let t := s.reply (.word (regRead s 1))
  if s.status.done then t else { t with inputs := .engine :: .wait :: t.inputs }

/-- The reset event (R150): every register, `STATUS` and the context at their reset values, whatever the engine was doing is
abandoned; the buffers hold unspecified bytes again, other ones than before (R151; log 7). The parameters stay, and so does what
lies outside the block: the moves to come and the replies received. -/
def applyReset (s : State) : State :=
  { State.reset with cfg := s.cfg, launch := s.launch + 1, inputs := s.inputs, replies := s.replies }

/-- One move taken from the list of inputs. -/
def applyInput (s : State) : Input → Result
  | .host op => hostOp s op
  | .engine => engineStep s
  | .wait => .next (hostWait s)
  | .reset => .next (applyReset s)

/-- The next move: the first of the inputs, or an engine step when none is left (R50; log 5). -/
def nextMove (s : State) : Result :=
  match s.inputs with
  | [] => engineStep s
  | i :: rest => applyInput { s with inputs := rest } i

/-! ## Putting an instruction where it is the next to run -/

/-- `OPC` as a phase of code 9 needs it: kept if it selects one of the two rules, else 1 (log 9, log 13). -/
def opcForCode (opc : BitVec 4) (code : BitVec 5) : BitVec 4 :=
  if code = 9 ∧ opc ≠ 1 ∧ opc ≠ 2 then 1 else opc

/-- The state in which the instruction with this code is the next to run: a command word as the host's next write to `CMD`, a phase
code in `PHASE` with the engine scheduled (log 13). A phase code above 16 cannot be placed and leaves the state as it is. -/
def placeCode (s : State) : Code → State
  | .cmd v => { s with inputs := .host (.regWrite 0 v) :: s.inputs }
  | .phase _ code =>
    match Phase.ofCode code with
    | some p => { s with phase := p, opc := opcForCode s.opc code, inputs := .engine :: s.inputs }
    | none => s

end Sys2Proof.Machine
end

