-- ==== Sys2Proof/Machine/Step.lean ====
section
/-! DEFINITION. One step of the machine, and the placing of an instruction for the host. Everything either does is said in
Machine/HostPort.lean. -/
namespace Sys2Proof.Machine

/-- One step: the next move of the total order of host operations and engine steps (R50); it carries no time (R158; log 17). -/
def step (s : State) : Host.Outcome State Fault Refusal := nextMove s

/-- `s` with the instruction of these bits stored where `step` takes its next one from (log 13). -/
def State.withFetchWord (s : State) (nbits w : Nat) : State :=
  match codeOfTableWord nbits w with
  | some code => placeCode s code
  | none => s

end Sys2Proof.Machine
end

