-- ==== Sys2Proof/Machine/Functions.lean ====
section
/-! DEFINITION. What the commands compute, as functions of the operands, the way the spec states it beside the phases: the derivation
(41_key_derivation.md R75), powers and the hash (42_polyval.md R84, R91), counter mode (43_seal.md R107), SEAL (R101), OPEN (44_open.md
R111) and the step counts (R108, R115). No step uses this file; statements compare the machine with it. -/
namespace Sys2Proof.Machine

/-- `H = E(KEY, NONCE)` (R75). -/
def recordHashKey (c : Config) (key : Key) (nonce : Block) : Block := cipherE c key nonce

/-- `REK`: with `F1 = E(KEY, H)` and `F2 = E(KEY, F1)`, `F2 ‖ F1` when `REK_FIRST_AT_HIGH_BYTES`, else `F1 ‖ F2` (R75); the lower bytes
stand on the right of `++`. -/
def recordEncKey (c : Config) (key : Key) (nonce : Block) : Key :=
  let f1 := cipherE c key (recordHashKey c key nonce)
  let f2 := cipherE c key f1
  if c.rekFirstAtHighBytes then f1 ++ f2 else f2 ++ f1

/-- `H^(k+1)`: `H^1 = H`, `H^(j+1) = Dot(H^j, H)` (R84). -/
def power (mul : Block → Block → Block) (h : Block) : (k : Nat) → Block
  | 0 => h
  | k + 1 => mul (power mul h k) h

/-- Sequential absorption of blocks one after another (R90, right side). -/
def macAll (mul : Block → Block → Block) (h acc : Block) : List Block → Block
  | [] => acc
  | x :: xs => macAll mul h (macWith mul acc h x) xs

/-- `Polyval(H, X_1..X_n)`: `S_0 = 0`, `S_j = Dot(S_(j-1) xor X_j, H)` (R91). -/
def polyvalHash (mul : Block → Block → Block) (h : Block) (xs : List Block) : Block := macAll mul h 0 xs

/-- `Pad(AAD)`: the blocks of the associated data, the last one zero-padded (R91). -/
def aadBlocks (s : State) : List Block := blks s .aadBuf s.aadLen 0 (nblk s.aadLen)

/-- `Pad` of the message in `IN_BUF` (R91). -/
def msgBlocks (s : State) : List Block := blks s .inBuf s.msgLen 0 (nblk s.msgLen)

/-- `CB_j = CtrNext^j(CtrInit(TAG))` (R103). -/
def counterBlock (c : Config) (tag : Block) : (j : Nat) → Block
  | 0 => ctrInit c tag
  | j + 1 => ctrNext c (counterBlock c tag j)

/-- Byte `a` of `Ctr(K, T, IN_BUF)` (R107): `D[16j + b] xor E(K, CB_j)[b]`. -/
def ctrByte (s : State) (k : Key) (tag : Block) (a : Nat) : Byte :=
  s.readByte .inBuf a ^^^ byteAt (cipherE s.cfg k (counterBlock s.cfg tag (a / 16))) (a % 16)

/-- Block `j` of `Ctr(K, T, IN_BUF[0..MSG_LEN-1])`, zero-padded (R107, R91). -/
def ctrBlock (s : State) (k : Key) (tag : Block) (j : Nat) : Block :=
  firstBytes (validBytes s.msgLen j) (blk s .inBuf s.msgLen j ^^^ cipherE s.cfg k (counterBlock s.cfg tag j))

/-- Blocks `j .. j + r - 1` of `Ctr(K, T, IN_BUF)`. -/
def ctrBlocks (s : State) (k : Key) (tag : Block) (j : Nat) : (r : Nat) → List Block
  | 0 => []
  | r + 1 => ctrBlock s k tag j :: ctrBlocks s k tag (j + 1) r

/-- `E(REK, PreTag(H, NONCE, A, P))` for a message given by its padded blocks (R91, R101, R111). -/
def tagOf (s : State) (msg : List Block) : Block :=
  let h := recordHashKey s.cfg s.key s.nonce
  let x := polyvalHash (dot s.cfg) h (aadBlocks s ++ msg ++ [lenblk s.aadLen s.msgLen])
  cipherE s.cfg (recordEncKey s.cfg s.key s.nonce) (finalize x s.nonce)

/-- The tag a SEAL of these operands makes (R101). -/
def sealTag (s : State) : Block := tagOf s (msgBlocks s)

/-- The padded plaintext blocks an OPEN of these operands recovers: `P = Ctr(REK, TAG, C)` (R111). -/
def recovered (s : State) : List Block :=
  ctrBlocks s (recordEncKey s.cfg s.key s.nonce) s.tag 0 (nblk s.msgLen)

/-- The tag an OPEN of these operands recomputes (R111). -/
def openTag (s : State) : Block := tagOf s (recovered s)

/-- `hs(n)`: the steps of a hash pass of `n` blocks (R108): `n + 1` in sequential mode, `ceil(n/8) + 1` in batch mode. -/
def hashSteps (stratTable : Bool) (n : Nat) : Nat := if stratTable then (n + 7) / 8 + 1 else n + 1

/-- `steps(SEAL)` (R108), of a state in which the SEAL has been accepted. -/
def sealSteps (s : State) : Nat :=
  let a := nblk s.aadLen
  let m := nblk s.msgLen
  let w := batchWidth s
  3 + (if s.status.stratTable then 1 else 0) + hashSteps s.status.stratTable a + hashSteps s.status.stratTable m + 3 +
    ((m + w - 1) / w + 1) + 1

/-- `steps(OPEN)` (R115); `differ` is the outcome of the tag comparison. -/
def openSteps (s : State) (differ : Bool) : Nat :=
  let a := nblk s.aadLen
  let m := nblk s.msgLen
  3 + 1 + ((a + 7) / 8 + 1) + 1 + ((m + 7) / 8 + 1) + 4 + (if differ then m + 1 else 0) + 1

end Sys2Proof.Machine
end

