-- ==== Sys2Proof/WellFormed.lean ====
section
/-! DEFINITION. What is well formed, said from the spec's lists and not from the decoder: the legal encodings (R44, R45), the
instructions (none has an operand field, R48) and the configurations (R5). -/
namespace Sys2Proof

/-- The five legal command words (R44: "The legal words are therefore exactly five"). -/
def legalCommandWords : List (BitVec 32) := [0x00000001, 0x00000011, 0x00000021, 0x00000002, 0x00000003]

/-- A code is well formed when it is one of the five command words, or a phase code up to 16 (R13, R45); code 9 has a rule only
under `OPC` = 1 (R102) and `OPC` = 2 (R114). -/
def Code.wellFormed : Code → Bool
  | .cmd word => legalCommandWords.contains word
  | .phase opc code => decide (code.toNat ≤ 16) && (code != 9 || opc == 1 || opc == 2)

/-- Every instruction is well formed: "Commands carry no immediate and no register-number field", "Phases carry no operand field
either" (R48). -/
def Instr.wellFormed (_ : Instr) : Bool := true

/-- The bounds R5 puts on the capacities: `1 <= AAD_CAP <= 2^36`, `1 <= MSG_CAP <= 2^36`. -/
def Config.wellFormed (c : Config) : Bool :=
  decide (1 ≤ c.aadCap) && decide (c.aadCap ≤ 2 ^ 36) && decide (1 ≤ c.msgCap) && decide (c.msgCap ≤ 2 ^ 36)

end Sys2Proof
end

