-- ==== Sys2Proof/Safety.lean ====
section
/-! DEFINITION. What a safe state is, in the terms the statements use: the invariants of 10_state.md R13, R17, R23 and the conditions
under which the spec says a command runs (43_seal.md R100, 60_exceptions.md R149). -/
namespace Sys2Proof.Machine

/-- The internal data registers and `BLK` are zero: what R23 says of every idle state. -/
def State.secretsZero (s : State) : Prop :=
  s.h = 0 ∧ s.rek = 0 ∧ s.acc = 0 ∧ s.pretag = 0 ∧ s.tagc = 0 ∧ s.cb = 0 ∧ s.diff = 0 ∧ s.blk = 0

/-- Every byte of the context is zero (R14, R132). -/
def State.contextZero (s : State) : Prop :=
  s.ks = 0 ∧ s.htable = Vector.replicate 8 0 ∧ s.scratch = Vector.replicate 8 0

/-- The `STATUS` bits are ones R17 allows: `BUSY` exactly when `PHASE` is not `IDLE`, nothing but `BUSY` and the two mode bits while
busy, never both outcomes of an OPEN, an outcome only together with `DONE`. -/
def State.statusLegal (s : State) : Prop :=
  (s.status.busy = true ↔ s.phase ≠ .idle) ∧
  (s.status.busy = true →
    s.status.done = false ∧ s.status.authOk = false ∧ s.status.authFail = false ∧ s.status.cmdErr = false) ∧
  ¬ (s.status.authOk = true ∧ s.status.authFail = true) ∧
  (s.status.authOk = true ∨ s.status.authFail = true → s.status.done = true)

/-- The command a phase belongs to (R46: the phase sequences of the three commands). -/
def opcAllows (opc : BitVec 4) : Phase → Bool
  | .idle => decide (opc.toNat ≤ 3)
  | .clear => opc == 3
  | .hashMsg | .ctrEnc => opc == 1
  | .ksRek | .decHash | .tagCmp | .copyback => opc == 2
  | _ => opc == 1 || opc == 2

/-- The bound of `BLK` in a phase: the number of blocks of its buffer in a looping phase, 0 elsewhere (R13). -/
def blkBound (s : State) : Nat :=
  match s.phase with
  | .hashAad => nblk s.aadLen
  | .hashMsg | .ctrEnc | .decHash | .copyback => nblk s.msgLen
  | _ => 0

/-- A buffer in canonical form, nothing listed at or beyond its capacity (R32). -/
def State.bufferLegal (s : State) (sp : Space) : Prop :=
  (s.mem sp).wf = true ∧ (s.mem sp).within (s.capacity sp) = true

/-- The invariant of the machine. -/
structure State.Inv (s : State) : Prop where
  /-- The capacities are ones R5 allows. -/
  config : s.cfg.wellFormed = true
  /-- Every buffer is in canonical form and inside its capacity. -/
  buffers : ∀ sp, s.bufferLegal sp
  /-- R17. -/
  status : s.statusLegal
  /-- R23. -/
  idle : s.phase = .idle → s.secretsZero
  /-- `OPC` is the command the phase belongs to (R46). -/
  opc : opcAllows s.opc s.phase = true
  /-- R100, R110: a command that reads the buffers runs only with legal lengths. -/
  lengths : s.phase ≠ .idle → s.phase ≠ .clear → lengthsLegal s = true
  /-- R13: `BLK` is at most the number of blocks, and 0 outside the looping phases. -/
  blk : s.blk.toNat ≤ blkBound s
  /-- R110: an OPEN always runs with the table strategy, 8-way. -/
  openMode : s.opc = 2 → s.phase ≠ .idle → s.status.stratTable = true ∧ s.status.ways8 = true
  /-- R46: `HT_BUILD` is entered only with the table strategy. -/
  table : s.phase = .htBuild → s.status.stratTable = true

/-- The next move is a write to `CMD` that launches SEAL or OPEN outside the length precondition (R100, R110, R149). -/
def State.launchesIllegally (s : State) : Prop :=
  s.status.busy = false ∧ lengthsLegal s = false ∧
    ∃ v rest, s.inputs = .host (.regWrite 0 v) :: rest ∧ (v = 0x01 ∨ v = 0x11 ∨ v = 0x21 ∨ v = 0x02)

/-- PD2 of R69: the multiplication is linear over xor in each argument. -/
def Bilinear (mul : Block → Block → Block) : Prop :=
  (∀ a b c, mul (a ^^^ b) c = mul a c ^^^ mul b c) ∧ (∀ a b c, mul a (b ^^^ c) = mul a b ^^^ mul a c)

/-- PD3 of R69: the multiplication is associative. -/
def Associative (mul : Block → Block → Block) : Prop := ∀ a b c, mul (mul a b) c = mul a (mul b c)

/-- `HTABLE[k] = H^(k+1)` for every entry (R84). -/
def State.tableOfPowers (s : State) : Prop := ∀ k, k < 8 → tableEntry s.htable k = power (dot s.cfg) s.h k

/-- The machine right after the acceptance of a SEAL (R100): `PHASE` = `DERIVE_H`, `OPC` = 1, `BLK` = 0, `STATUS` as accepted, legal
lengths, and no host move pending, so that the engine runs. -/
structure State.SealAccepted (s : State) : Prop where
  phase : s.phase = .deriveH
  opc : s.opc = 1
  blk : s.blk = 0
  status : s.status = Status.accepted s.status.stratTable s.status.ways8
  lengths : lengthsLegal s = true
  inputs : s.inputs = []

/-- The machine right after the acceptance of an OPEN (R110). -/
structure State.OpenAccepted (s : State) : Prop where
  phase : s.phase = .deriveH
  opc : s.opc = 2
  blk : s.blk = 0
  status : s.status = Status.accepted true true
  lengths : lengthsLegal s = true
  inputs : s.inputs = []

/-- Two states have the same operands of a command but for the message and the tag (R48, R124). -/
def sameOperands (s t : State) : Prop :=
  s.cfg = t.cfg ∧ s.key = t.key ∧ s.nonce = t.nonce ∧ s.aadLen = t.aadLen ∧ s.msgLen = t.msgLen ∧
    ∀ a, a < s.aadLen.toNat → s.readByte .aadBuf a = t.readByte .aadBuf a

/-- Two states agree on everything the control flow may depend on (R158): the configuration, `PHASE`, `OPC`, `BLK`, `STATUS` and the
lengths. -/
def sameControl (s t : State) : Prop :=
  s.cfg = t.cfg ∧ s.phase = t.phase ∧ s.opc = t.opc ∧ s.blk = t.blk ∧ s.status = t.status ∧
    s.aadLen = t.aadLen ∧ s.msgLen = t.msgLen

end Sys2Proof.Machine
end

