-- ==== Sys2Proof/Certificates/Slice0/Obligations.lean ====
section
/-! DEFINITION. The statements about the machine, each from the numbered rules of spec/ that its docstring names. -/
open Sys2Proof Sys2Proof.Machine

/-! ## Encoding and decoding -/

/-- R44, R47: a write to `CMD` while idle starts exactly the five legal words; every other word sets `CMD_ERR` and changes nothing else;
while busy the write is dropped. -/
def Obligations.CommandAttemptDecodesExactlyFiveWords : Prop :=
  ∀ (s : State) (v : BitVec 32),
    (s.status.busy = false → regWrite s 0 v =
      if v = 0x00000001 then exec .sealAuto s
      else if v = 0x00000011 then exec .sealSeq s
      else if v = 0x00000021 then exec .sealTable s
      else if v = 0x00000002 then exec .openCmd s
      else if v = 0x00000003 then exec .clearContext s
      else .next { s with status := { s.status with cmdErr := true } }) ∧
    (s.status.busy = true → regWrite s 0 v = .next s)

/-- R44, R45: decoding and encoding agree in both directions, on every instruction, every 32-bit word, and every phase code under every
content of `OPC`. -/
def Obligations.DecodeAndEncodeAgree : Prop :=
  (∀ i : Instr, decode (encode i) = .ok i) ∧
  (∀ (v : BitVec 32) (i : Instr), decode (.cmd v) = .ok i ↔ encode i = .cmd v) ∧
  (∀ (opc : BitVec 4) (code : BitVec 5) (i : Instr), decode (.phase opc code) = .ok i ↔
    ∃ o, encode i = .phase o code ∧ (code = 9 → o = opc))

/-- R44, R45, R46: the decoder accepts exactly the well-formed codes: the five words, and the codes up to 16, code 9 only under `OPC` 1
and 2. -/
def Obligations.DecoderAcceptsExactlyTheWellFormed : Prop :=
  ∀ c : Code, (∃ i, decode c = .ok i) ↔ c.wellFormed = true

/-- R44, R45: words of each family written out from the encoding tables, and words of each illegal class of R47. -/
def Obligations.PrintedWordsDecode : Prop :=
  decode (.cmd 0b00000000000000000000000000100001) = .ok .sealTable ∧
  decode (.cmd 0b00000000000000000000000000000010) = .ok .openCmd ∧
  decode (.cmd 0b00000000000000000000000000000011) = .ok .clearContext ∧
  decode (.phase 1 0b00001) = .ok .deriveH ∧
  decode (.phase 2 0b00101) = .ok .hashAad ∧
  decode (.phase 1 0b01001) = .ok .tagEncSeal ∧
  decode (.phase 2 0b01001) = .ok .tagEncOpen ∧
  decode (.phase 2 0b01101) = .ok .tagCmp ∧
  decode (.phase 3 0b10000) = .ok .clear ∧
  decode (.cmd 0x00000012) = .error .modeNotAllowed ∧
  decode (.cmd 0x00000031) = .error .reservedMode ∧
  decode (.cmd 0x00000041) = .error .reservedBits ∧
  decode (.cmd 0x00000004) = .error .reservedOpcode ∧
  decode (.phase 1 0b10001) = .error .reservedPhase

/-- R46, R30, R31, R33: an engine step is `exec` of the instruction the decoder reads at the sequencer, whether the engine is scheduled by
an input (which is then used up) or nothing else is pending; a host write to `CMD` while idle is `exec` of the instruction the decoder
reads from the word, the write being used up; and every host operation, busy or idle, is the operation of R31 or R33 on the state with
it used up: a write is `regWrite` or `bufWrite`, a read changes nothing and returns `regRead` or `bufRead`. The lists of inputs and replies are
the model's choice (log 5). -/
def Obligations.StepRunsTheDecodedInstruction : Prop :=
  (∀ (s : State) (i : Instr), s.inputs = [] → decode s.nextCode = .ok i → step s = exec i s) ∧
  (∀ (s : State) (i : Instr) (rest : List Input), s.inputs = .engine :: rest → decode s.nextCode = .ok i →
    step s = exec i { s with inputs := rest }) ∧
  (∀ (s : State) (i : Instr) (v : BitVec 32) (rest : List Input), s.inputs = .host (.regWrite 0 v) :: rest →
    s.status.busy = false → decode (.cmd v) = .ok i → step s = exec i { s with inputs := rest }) ∧
  (∀ (s : State) (w : BitVec 6) (v : RegWord) (rest : List Input), s.inputs = .host (.regWrite w v) :: rest →
    step s = regWrite { s with inputs := rest } w v) ∧
  (∀ (s : State) (sp : Space) (a : BitVec 37) (b : Byte) (rest : List Input), s.inputs = .host (.bufWrite sp a b) :: rest →
    step s = bufWrite { s with inputs := rest } sp a b) ∧
  (∀ (s : State) (w : BitVec 6) (rest : List Input), s.inputs = .host (.regRead w) :: rest →
    step s = .next { s with inputs := rest, replies := s.replies ++ [.word (regRead s w)] }) ∧
  (∀ (s : State) (sp : Space) (a : BitVec 37) (rest : List Input), s.inputs = .host (.bufRead sp a) :: rest →
    step s = .next { s with inputs := rest, replies := s.replies ++ [.byte (bufRead s sp a)] })

/-! ## Commands -/

/-- R100 (acceptance), R92, R106: SEAL, SEAL.SEQ and SEAL.TABLE inside the length precondition. The strategy follows the threshold, or is
forced; the width follows the threshold in all three. -/
def Obligations.SealAcceptance : Prop :=
  ∀ (s : State) (isBig : Bool), s.status.busy = false →
    s.aadLen.toNat ≤ min (2 ^ 36) s.cfg.aadCap → s.msgLen.toNat ≤ min (2 ^ 36) s.cfg.msgCap →
    (isBig = true ↔ s.aadLen.toNat + s.msgLen.toNat > 128) →
    let st (strat : Bool) : Status :=
      { busy := true, done := false, authOk := false, authFail := false, stratTable := strat, ways8 := isBig, cmdErr := false }
    exec .sealAuto s = .next { s with opc := 1, blk := 0, status := st isBig, phase := .deriveH } ∧
    exec .sealSeq s = .next { s with opc := 1, blk := 0, status := st false, phase := .deriveH } ∧
    exec .sealTable s = .next { s with opc := 1, blk := 0, status := st true, phase := .deriveH }

/-- R110 (acceptance): OPEN inside the length precondition, always table, always 8-way. -/
def Obligations.OpenAcceptance : Prop :=
  ∀ s : State, s.status.busy = false →
    s.aadLen.toNat ≤ min (2 ^ 36) s.cfg.aadCap → s.msgLen.toNat ≤ min (2 ^ 36) s.cfg.msgCap →
    exec .openCmd s = .next { s with
      opc := 2, blk := 0, phase := .deriveH,
      status := { busy := true, done := false, authOk := false, authFail := false, stratTable := true, ways8 := true, cmdErr := false } }

/-- R131: CLEAR_CONTEXT is accepted in every idle state, whatever the lengths. -/
def Obligations.ClearContextAcceptance : Prop :=
  ∀ s : State, s.status.busy = false →
    exec .clearContext s = .next { s with
      opc := 3, blk := 0, phase := .clear,
      status := { busy := true, done := false, authOk := false, authFail := false, stratTable := false, ways8 := false, cmdErr := false } }

/-- R149, R100, R110: the model refuses a launch of SEAL or OPEN with either length above `min(2^36, capacity)`. -/
def Obligations.LaunchOutsideLengthsIsRefused : Prop :=
  ∀ (s : State) (i : Instr), s.status.busy = false →
    (s.aadLen.toNat > min (2 ^ 36) s.cfg.aadCap ∨ s.msgLen.toNat > min (2 ^ 36) s.cfg.msgCap) →
    i ∈ [Instr.sealAuto, .sealSeq, .sealTable, .openCmd] → exec i s = .refused .lengthPrecondition

/-- R36, R155: a command while busy is dropped without any effect. -/
def Obligations.CommandsAreDroppedWhileBusy : Prop :=
  ∀ (s : State) (i : Instr), s.status.busy = true →
    i ∈ [Instr.sealAuto, .sealSeq, .sealTable, .openCmd, .clearContext] → exec i s = .next s

/-- R46, R148: in `IDLE` there is no engine step: nothing changes. -/
def Obligations.IdleChangesNothing : Prop :=
  ∀ s : State, exec .idle s = .next s ∧ (s.phase = .idle → s.inputs = [] → step s = .next s)

/-! ## Record-key derivation -/

/-- R72. -/
def Obligations.DeriveHResult : Prop :=
  ∀ s : State, exec .deriveH s = .next { s with
    ks := keyExpand s.cfg s.key, h := encKS s.cfg (keyExpand s.cfg s.key) s.nonce, phase := .deriveK1 }

/-- R73, byte by byte: the first derived half goes to bytes 16 to 31, or 0 to 15, of `REK`; the other half and everything else stay. -/
def Obligations.DeriveK1WritesOneHalf : Prop :=
  ∀ s : State, ∃ t : State, exec .deriveK1 s = .next t ∧
    t = { s with rek := t.rek, phase := .deriveK2 } ∧
    ∀ i, i < 16 →
      if s.cfg.rekFirstAtHighBytes then
        byteAt t.rek (16 + i) = byteAt (encKS s.cfg s.ks s.h) i ∧ byteAt t.rek i = byteAt s.rek i
      else byteAt t.rek i = byteAt (encKS s.cfg s.ks s.h) i ∧ byteAt t.rek (16 + i) = byteAt s.rek (16 + i)

/-- R74, byte by byte: the second half is the encryption of the first, `ACC` is 0, and the next phase follows `STRAT_TABLE`. -/
def Obligations.DeriveK2WritesTheOtherHalf : Prop :=
  ∀ (s : State) (f1 : Block),
    (∀ i, i < 16 → byteAt f1 i = byteAt s.rek (if s.cfg.rekFirstAtHighBytes then 16 + i else i)) →
    ∃ t : State, exec .deriveK2 s = .next t ∧
      t = { s with rek := t.rek, acc := 0, phase := if s.status.stratTable then .htBuild else .hashAad } ∧
      ∀ i, i < 16 →
        if s.cfg.rekFirstAtHighBytes then
          byteAt t.rek i = byteAt (encKS s.cfg s.ks f1) i ∧ byteAt t.rek (16 + i) = byteAt s.rek (16 + i)
        else byteAt t.rek (16 + i) = byteAt (encKS s.cfg s.ks f1) i ∧ byteAt t.rek i = byteAt s.rek i

/-- R75: the three steps together, for every cipher and both placements: `H = E(KEY, NONCE)`, `F1 = E(KEY, H)`, `F2 = E(KEY, F1)`; the
lower bytes stand on the right of `++`. -/
def Obligations.ThreeStepsDeriveTheRecordKeys : Prop :=
  ∀ s : State, s.phase = .deriveH → s.inputs = [] →
    ∃ t : State, Host.Core.run core 3 s = .next t ∧
      let h := cipherE s.cfg s.key s.nonce
      let f1 := cipherE s.cfg s.key h
      let f2 := cipherE s.cfg s.key f1
      t.h = h ∧ t.rek = (if s.cfg.rekFirstAtHighBytes then f1 ++ f2 else f2 ++ f1) ∧
        t.ks = keyExpand s.cfg s.key ∧ t.acc = 0 ∧
        t = { s with h := t.h, rek := t.rek, ks := t.ks, acc := t.acc, phase := t.phase }

/-! ## The POLYVAL engine -/

/-- R84: `HTABLE[k] = H^(k+1)` for all eight entries; nothing else changes but `PHASE`. -/
def Obligations.TableHoldsThePowers : Prop :=
  ∀ s : State, ∃ t : State, exec .htBuild s = .next t ∧
    (∀ k (hk : k < 8), t.htable[k] = power (dot s.cfg) s.h k) ∧
    t = { s with htable := t.htable, phase := .hashAad }

/-- R83: one step of `HASH_AAD` while the blocks it reads are inside the buffer: absorb one block, absorb one batch, or leave. -/
def Obligations.HashAadStep : Prop :=
  ∀ s : State, s.aadLen.toNat ≤ s.cfg.aadCap →
    let n := nblk s.aadLen
    let r := min 8 (n - s.blk.toNat)
    exec .hashAad s = .next (
      if s.blk.toNat < n then
        if s.status.stratTable then
          { s with
            acc := batchAbsorbWith (dot s.cfg) s.htable s.acc ((List.range r).map fun i => blk s .aadBuf s.aadLen (s.blk.toNat + i))
            blk := s.blk + BitVec.ofNat 64 r }
        else { s with acc := dot s.cfg (s.acc ^^^ blk s .aadBuf s.aadLen s.blk.toNat) s.h, blk := s.blk + 1 }
      else { s with blk := 0, phase := if s.opc = 1 then .hashMsg else .ksRek })

/-- R86: the same for `HASH_MSG` over `IN_BUF`, leaving to `HASH_LEN`. -/
def Obligations.HashMsgStep : Prop :=
  ∀ s : State, s.msgLen.toNat ≤ s.cfg.msgCap →
    let n := nblk s.msgLen
    let r := min 8 (n - s.blk.toNat)
    exec .hashMsg s = .next (
      if s.blk.toNat < n then
        if s.status.stratTable then
          { s with
            acc := batchAbsorbWith (dot s.cfg) s.htable s.acc ((List.range r).map fun i => blk s .inBuf s.msgLen (s.blk.toNat + i))
            blk := s.blk + BitVec.ofNat 64 r }
        else { s with acc := dot s.cfg (s.acc ^^^ blk s .inBuf s.msgLen s.blk.toNat) s.h, blk := s.blk + 1 }
      else { s with blk := 0, phase := .hashLen })

/-- R85: the batch formula, with block `i` of `r` multiplied by `HTABLE[r-1-i]` and the old accumulator riding with block 0. -/
def Obligations.BatchIsTheSumOfProducts : Prop :=
  ∀ (mul : Block → Block → Block) (ht : Vector Block 8) (acc : Block) (xs : List Block), xs ≠ [] →
    batchAbsorbWith mul ht acc xs =
      ((List.range xs.length).map fun i =>
        mul (if i = 0 then xs.getD 0 0 ^^^ acc else xs.getD i 0) (tableEntry ht (xs.length - 1 - i))).foldr (· ^^^ ·) 0

/-- R90: the batch absorption equals the sequential one, for every multiplication that is bilinear (PD2) and associative (PD3) and every
table of powers. -/
def Obligations.BatchEqualsSequential : Prop :=
  ∀ (mul : Block → Block → Block) (ht : Vector Block 8) (h acc : Block) (xs : List Block),
    Bilinear mul → Associative mul → (∀ k, k < xs.length → tableEntry ht k = power mul h k) →
    batchAbsorbWith mul ht acc xs = macAll mul h acc xs

/-- R35: what the buffers hold at or beyond the lengths has no influence on what a hash step absorbs. -/
def Obligations.BytesBeyondTheLengthDoNotMatter : Prop :=
  ∀ (s : State) (sp : Space) (m : Memory) (u : State), u = s.setMem sp m →
    (∀ a, a < s.aadLen.toNat → u.readByte .aadBuf a = s.readByte .aadBuf a) →
    (∀ a, a < s.msgLen.toNat → u.readByte .inBuf a = s.readByte .inBuf a) →
    ∀ i, i ∈ [Instr.hashAad, .hashMsg, .hashLen] → ∀ t, exec i s = .next t → exec i u = .next (t.setMem sp m)

/-- R87: the length block is the two bit lengths as little-endian 64-bit numbers, AAD first. -/
def Obligations.LengthBlockHoldsTheBitLengths : Prop :=
  ∀ aadLen msgLen : BitVec 64, aadLen.toNat ≤ 2 ^ 36 → msgLen.toNat ≤ 2 ^ 36 →
    (lenblk aadLen msgLen).toNat = 8 * aadLen.toNat + 2 ^ 64 * (8 * msgLen.toNat) ∧
    (∀ i, i < 8 → (byteAt (lenblk aadLen msgLen) i).toNat = 8 * aadLen.toNat / 256 ^ i % 256) ∧
    (∀ i, i < 8 → (byteAt (lenblk aadLen msgLen) (8 + i)).toNat = 8 * msgLen.toNat / 256 ^ i % 256)

/-- R88: the length block is absorbed under either strategy, in a pass of its own. -/
def Obligations.HashLenStep : Prop :=
  ∀ s : State, exec .hashLen s = .next { s with
    acc := dot s.cfg (s.acc ^^^ lenblk s.aadLen s.msgLen) (if s.status.stratTable then tableEntry s.htable 0 else s.h)
    phase := .final }

/-- R89, bit by bit: `PRETAG` is `ACC xor NONCE` but for bit 127, which is 0. -/
def Obligations.FinalClearsOnlyTheTopBit : Prop :=
  ∀ s : State, ∃ t : State, exec .final s = .next t ∧ t = { s with pretag := t.pretag, phase := .tagEnc } ∧
    t.pretag.getLsbD 127 = false ∧ ∀ i, i < 127 → t.pretag.getLsbD i = (s.acc.getLsbD i ^^ s.nonce.getLsbD i)

/-! ## The counter-mode orchestrator -/

/-- R102. -/
def Obligations.TagEncOfSealResult : Prop :=
  ∀ s : State, exec .tagEncSeal s = .next { s with
    ks := keyExpand s.cfg s.rek
    tagc := cipherE s.cfg s.rek s.pretag
    tag := cipherE s.cfg s.rek s.pretag
    cb := ctrInit s.cfg (cipherE s.cfg s.rek s.pretag)
    phase := .ctrEnc }

/-- R103: the default increment adds 1 modulo 2^32 to the number in bytes 0 to 3 and keeps the other bytes; `CtrInit` is the tag, or the
tag with bit 127 set. -/
def Obligations.CounterBlockRules : Prop :=
  ∀ (c : Config) (b : Block),
    (c.increment = .le32 → (ctrNext c b).toNat % 2 ^ 32 = (b.toNat % 2 ^ 32 + 1) % 2 ^ 32 ∧
      ∀ i, 4 ≤ i → i < 16 → byteAt (ctrNext c b) i = byteAt b i) ∧
    (c.ctrInitMsbSet = false → ctrInit c b = b) ∧
    (c.ctrInitMsbSet = true → (ctrInit c b).getLsbD 127 = true ∧ ∀ i, i < 127 → (ctrInit c b).getLsbD i = b.getLsbD i)

/-- R105, R104: one batch of `CTR_ENC`. With `r` blocks from `BLK` on: their valid bytes of `OUT_BUF` become `IN_BUF` xor keystream, every
other byte stays; `SCRATCH` holds the keystream in its first `r` blocks, its other blocks stay; `CB` moves on by `r`; nothing else
changes. -/
def Obligations.CtrEncBatch : Prop :=
  ∀ s : State, s.blk.toNat < nblk s.msgLen → s.msgLen.toNat ≤ s.cfg.msgCap →
    let j := s.blk.toNat
    let r := min (if s.status.ways8 then 8 else 4) (nblk s.msgLen - j)
    let z (i : Nat) : Block := encKS s.cfg s.ks (Nat.rec s.cb (fun _ c => ctrNext s.cfg c) i)
    ∃ t : State, exec .ctrEnc s = .next t ∧
      (∀ a, t.readByte .outBuf a =
        if 16 * j ≤ a ∧ a < min (16 * (j + r)) s.msgLen.toNat then
          s.readByte .inBuf a ^^^ byteAt (z (a / 16 - j)) (a % 16)
        else s.readByte .outBuf a) ∧
      (∀ i (hi : i < 8), t.scratch[i] = if i < r then z i else s.scratch[i]) ∧
      t.cb = Nat.rec s.cb (fun _ c => ctrNext s.cfg c) r ∧
      t.blk.toNat = j + r ∧
      t = { s with outBuf := t.outBuf, scratch := t.scratch, cb := t.cb, blk := t.blk }

/-- R105, R113, R122 (the exit steps): with no block left each looping phase of the message leaves, `BLK` back to 0. -/
def Obligations.MessageLoopsExit : Prop :=
  ∀ s : State, nblk s.msgLen ≤ s.blk.toNat →
    exec .ctrEnc s = .next { s with blk := 0, phase := .wipe } ∧
    exec .decHash s = .next { s with blk := 0, phase := .hashLen } ∧
    exec .copyback s = .next { s with blk := 0, phase := .wipe }

/-- R107: counter mode is its own inverse, byte by byte. -/
def Obligations.CounterModeIsItsOwnInverse : Prop :=
  ∀ (s u : State) (k : Key) (tag : Block) (a : Nat), s.cfg = u.cfg → u.readByte .inBuf a = ctrByte s k tag a →
    ctrByte u k tag a = s.readByte .inBuf a

/-! ## OPEN -/

/-- R112. -/
def Obligations.KsRekResult : Prop :=
  ∀ s : State, exec .ksRek s = .next { s with ks := keyExpand s.cfg s.rek, cb := ctrInit s.cfg s.tag, phase := .decHash }

/-- R113, R104: one batch of `DEC_HASH`. As `CTR_ENC` with up to 8 blocks, and `ACC` absorbs the recovered plaintext blocks, each byte of
them the byte written to `OUT_BUF`, the padding zero. -/
def Obligations.DecHashBatch : Prop :=
  ∀ s : State, s.blk.toNat < nblk s.msgLen → s.msgLen.toNat ≤ s.cfg.msgCap →
    let j := s.blk.toNat
    let r := min 8 (nblk s.msgLen - j)
    let z (i : Nat) : Block := encKS s.cfg s.ks (Nat.rec s.cb (fun _ c => ctrNext s.cfg c) i)
    ∃ (t : State) (xs : List Block), exec .decHash s = .next t ∧
      (∀ a, t.readByte .outBuf a =
        if 16 * j ≤ a ∧ a < min (16 * (j + r)) s.msgLen.toNat then
          s.readByte .inBuf a ^^^ byteAt (z (a / 16 - j)) (a % 16)
        else s.readByte .outBuf a) ∧
      xs.length = r ∧
      (∀ i b, i < r → b < 16 → byteAt (xs.getD i 0) b =
        if 16 * (j + i) + b < s.msgLen.toNat then t.readByte .outBuf (16 * (j + i) + b) else 0) ∧
      t.acc = batchAbsorbWith (dot s.cfg) s.htable s.acc xs ∧
      (∀ i (hi : i < 8), t.scratch[i] = if i < r then z i else s.scratch[i]) ∧
      t.cb = Nat.rec s.cb (fun _ c => ctrNext s.cfg c) r ∧
      t.blk.toNat = j + r ∧
      t = { s with outBuf := t.outBuf, scratch := t.scratch, cb := t.cb, blk := t.blk, acc := t.acc }

/-- R114. -/
def Obligations.TagEncOfOpenResult : Prop :=
  ∀ s : State, exec .tagEncOpen s = .next { s with tagc := encKS s.cfg s.ks s.pretag, phase := .tagCmp }

/-- R120: `DIFF` collects every differing bit of every byte pair; it is 0 exactly when all 128 bits agree, and the branch follows it. -/
def Obligations.TagCompareSeesEveryBit : Prop :=
  ∀ s : State, ∃ t : State, exec .tagCmp s = .next t ∧
    (∀ k, k < 8 → (t.diff.getLsbD k = true ↔ ∃ i, i < 16 ∧ (byteAt s.tag i).getLsbD k ≠ (byteAt s.tagc i).getLsbD k)) ∧
    (t.diff = 0 ↔ s.tag = s.tagc) ∧
    t.phase = (if s.tag = s.tagc then .wipe else .copyback) ∧
    t = { s with diff := t.diff, phase := t.phase }

/-- R122: one block of `COPYBACK`: its valid bytes of `OUT_BUF` become those of `IN_BUF`, nothing else changes but `BLK`. -/
def Obligations.CopybackBlock : Prop :=
  ∀ s : State, s.blk.toNat < nblk s.msgLen → s.msgLen.toNat ≤ s.cfg.msgCap →
    ∃ t : State, exec .copyback s = .next t ∧
      (∀ a, t.readByte .outBuf a =
        if 16 * s.blk.toNat ≤ a ∧ a < min (16 * (s.blk.toNat + 1)) s.msgLen.toNat then s.readByte .inBuf a
        else s.readByte .outBuf a) ∧
      t = { s with outBuf := t.outBuf, blk := s.blk + 1 }

/-- R122, R125: the whole copy-back. From its entry, after one step per block and the exit step the machine stands at `WIPE`, and every
byte of the output is the ciphertext byte, whatever `OUT_BUF` held; bytes beyond the length stay. -/
def Obligations.CopybackRestoresTheCiphertext : Prop :=
  ∀ s : State, s.phase = .copyback → s.blk = 0 → s.inputs = [] → s.msgLen.toNat ≤ s.cfg.msgCap →
    ∃ t : State, Host.Core.run core (nblk s.msgLen + 1) s = .next t ∧
      (∀ a, t.readByte .outBuf a = if a < s.msgLen.toNat then s.readByte .inBuf a else s.readByte .outBuf a) ∧
      t = { s with outBuf := t.outBuf, phase := .wipe }

/-! ## Hygiene -/

/-- R130: `WIPE`. The context, `NONCE`, `TAG`, the lengths and the buffers are not touched. -/
def Obligations.WipeResult : Prop :=
  ∀ s : State, exec .wipe s = .next { s with
    h := 0, rek := 0, key := 0, acc := 0, pretag := 0, tagc := 0, cb := 0, diff := 0, blk := 0, phase := .idle,
    status := { s.status with
      busy := false, done := true,
      authOk := decide (s.opc = 2 ∧ s.diff = 0), authFail := decide (s.opc = 2 ∧ s.diff ≠ 0) } }

/-- R132: `CLEAR`. `NONCE`, `TAG`, the lengths and the buffers are not touched. -/
def Obligations.ClearResult : Prop :=
  ∀ s : State, ∃ t : State, exec .clear s = .next t ∧
    t.ks = 0 ∧ (∀ k (hk : k < 8), t.htable[k] = 0 ∧ t.scratch[k] = 0) ∧
    t.status.word = 0x00000002 ∧
    t = { s with
      ks := t.ks, htable := t.htable, scratch := t.scratch, status := t.status,
      h := 0, rek := 0, key := 0, acc := 0, pretag := 0, tagc := 0, cb := 0, diff := 0, blk := 0, phase := .idle }

/-- R133: two CLEAR_CONTEXT in succession leave exactly the state one leaves; right after reset one changes nothing but `DONE` and
`OPC`. -/
def Obligations.ClearContextIsIdempotent : Prop :=
  (∀ s : State, s.status.busy = false → s.inputs = [] →
    ∃ a t b : State, exec .clearContext s = .next a ∧ step a = .next t ∧ exec .clearContext t = .next b ∧ step b = .next t) ∧
  ∃ a : State, exec .clearContext State.reset = .next a ∧
    step a = .next { State.reset with opc := 3, status := { State.reset.status with done := true } }

/-! ## The host port -/

/-- R17: the bits of the word a read of `STATUS` returns. -/
def Obligations.StatusWordBits : Prop :=
  ∀ s : State, regRead s 1 = s.status.word ∧
    s.status.word.getLsbD 0 = s.status.busy ∧ s.status.word.getLsbD 1 = s.status.done ∧
    s.status.word.getLsbD 2 = s.status.authOk ∧ s.status.word.getLsbD 3 = s.status.authFail ∧
    s.status.word.getLsbD 4 = s.status.stratTable ∧ s.status.word.getLsbD 5 = s.status.ways8 ∧
    s.status.word.getLsbD 6 = s.status.cmdErr ∧ ∀ i, 7 ≤ i → s.status.word.getLsbD i = false

/-- R15, R18, R19, R31: which word of which register each index names, for `AAD_LEN`, `MSG_LEN`, `NONCE` and `TAG`: a read returns that
word; a write stores it, leaves the register's other words, and changes nothing else; it reads back, and no other register word
reads differently after it. -/
def Obligations.RegisterWordReadsBack : Prop :=
  ∀ (s : State) (w : BitVec 6) (v : RegWord), s.status.busy = false →
    ((2 ≤ w.toNat ∧ w.toNat ≤ 5) ∨ (8 ≤ w.toNat ∧ w.toNat ≤ 15)) →
    (2 ≤ w.toNat ∧ w.toNat ≤ 3 → regRead s w = wordAt s.aadLen (w.toNat - 2)) ∧
    (4 ≤ w.toNat ∧ w.toNat ≤ 5 → regRead s w = wordAt s.msgLen (w.toNat - 4)) ∧
    (8 ≤ w.toNat ∧ w.toNat ≤ 11 → regRead s w = wordAt s.nonce (w.toNat - 8)) ∧
    (12 ≤ w.toNat → regRead s w = wordAt s.tag (w.toNat - 12)) ∧
    ∃ t : State, regWrite s w v = .next t ∧ regRead t w = v ∧
      (∀ w' : BitVec 6, w' ≠ w → regRead t w' = regRead s w') ∧
      (2 ≤ w.toNat ∧ w.toNat ≤ 3 → t = { s with aadLen := t.aadLen } ∧
        ∀ i, i < 2 → wordAt t.aadLen i = if i = w.toNat - 2 then v else wordAt s.aadLen i) ∧
      (4 ≤ w.toNat ∧ w.toNat ≤ 5 → t = { s with msgLen := t.msgLen } ∧
        ∀ i, i < 2 → wordAt t.msgLen i = if i = w.toNat - 4 then v else wordAt s.msgLen i) ∧
      (8 ≤ w.toNat ∧ w.toNat ≤ 11 → t = { s with nonce := t.nonce } ∧
        ∀ i, i < 4 → wordAt t.nonce i = if i = w.toNat - 8 then v else wordAt s.nonce i) ∧
      (12 ≤ w.toNat → t = { s with tag := t.tag } ∧
        ∀ i, i < 4 → wordAt t.tag i = if i = w.toNat - 12 then v else wordAt s.tag i)

/-- R11, R15, R31: a word of `KEY` is stored, its other words stay, and it reads 0; a write to `STATUS` or an unmapped word changes
nothing, and an unmapped word and `CMD` read 0. -/
def Obligations.WriteOnlyAndUnmappedWords : Prop :=
  ∀ (s : State) (w : BitVec 6) (v : RegWord), s.status.busy = false →
    (16 ≤ w.toNat ∧ w.toNat ≤ 23 → ∃ t : State, regWrite s w v = .next t ∧ t = { s with key := t.key } ∧
      ∀ i, i < 8 → wordAt t.key i = if i = w.toNat - 16 then v else wordAt s.key i) ∧
    (w.toNat = 1 ∨ w.toNat = 6 ∨ w.toNat = 7 ∨ 24 ≤ w.toNat → regWrite s w v = .next s) ∧
    (w.toNat = 0 ∨ w.toNat = 6 ∨ w.toNat = 7 ∨ 16 ≤ w.toNat → regRead s w = 0)

/-- R33: inside the capacity a read returns the byte of the named space at the offset, and a write stores it there, reads back, and leaves
every other byte of every space; beyond the capacity a write is dropped and a read gives 0. -/
def Obligations.BufferByteReadsBack : Prop :=
  ∀ (s : State) (sp : Space) (a : BitVec 37) (b : Byte), s.status.busy = false →
    (a.toNat < s.capacity sp → bufRead s sp a = s.readByte sp a.toNat) ∧
    (a.toNat < s.capacity sp → ∃ t : State, bufWrite s sp a b = .next t ∧ bufRead t sp a = b ∧
      (∀ sp' n, t.readByte sp' n = if sp' = sp ∧ n = a.toNat then b else s.readByte sp' n) ∧
      (∀ sp' a', sp' ≠ sp ∨ a' ≠ a → bufRead t sp' a' = bufRead s sp' a') ∧
      t = { s with aadBuf := t.aadBuf, inBuf := t.inBuf, outBuf := t.outBuf }) ∧
    (s.capacity sp ≤ a.toNat → bufWrite s sp a b = .next s ∧ bufRead s sp a = 0)

/-- R36, R160: while busy a host operation changes nothing but what the host itself has received: writes are dropped, reads other than
of `STATUS` return 0. -/
def Obligations.BusyLockout : Prop :=
  ∀ (s : State) (op : HostOp) (rest : List Input), s.status.busy = true → s.inputs = .host op :: rest →
    step s = .next { s with
      inputs := rest
      replies := s.replies ++ (match op with
        | .regRead w => [.word (if w = 1 then s.status.word else 0)]
        | .bufRead _ _ => [.byte 0]
        | .regWrite _ _ => []
        | .bufWrite _ _ _ => []) }

/-- R147, R12: nothing the host can read depends on `KEY`, the internal data registers or the context. -/
def Obligations.SecretsHaveNoReadPath : Prop :=
  ∀ (s u : State), u = { s with
      key := u.key, h := u.h, rek := u.rek, acc := u.acc, pretag := u.pretag, tagc := u.tagc, cb := u.cb, diff := u.diff,
      ks := u.ks, htable := u.htable, scratch := u.scratch } →
    (∀ w, regRead u w = regRead s w) ∧ ∀ sp a, bufRead u sp a = bufRead s sp a

/-- R49: `WAIT` polls `STATUS`; while `DONE` is 0 the engine takes one step between two polls. The order of polls and engine steps is the
model's choice (log 6). -/
def Obligations.WaitPollsUntilDone : Prop :=
  ∀ (s : State) (rest : List Input), s.inputs = .wait :: rest →
    step s = .next { s with
      replies := s.replies ++ [.word s.status.word]
      inputs := if s.status.done then rest else .engine :: .wait :: rest }

/-- R143: a rejected command word adds `CMD_ERR` to whatever outcome is visible: after a failed OPEN both bits are set. -/
def Obligations.RejectedWordKeepsTheOutcome : Prop :=
  ∀ (s : State) (v : RegWord), s.status.busy = false → v ∉ [0x01, 0x11, 0x21, 0x02, 0x03] →
    ∃ t : State, regWrite s 0 v = .next t ∧ t.status.word = s.status.word ||| 0x40 ∧ t = { s with status := t.status }

/-! ## Reset -/

/-- R150: the reset event in any state, running or idle: every register, `STATUS` and the context are 0 and `PHASE` is `IDLE`. -/
def Obligations.ResetEventZeroesEverything : Prop :=
  ∀ (s : State) (rest : List Input), s.inputs = .reset :: rest →
    ∃ t : State, step s = .next t ∧ t.status.word = 0 ∧ t.phase = .idle ∧ t.opc = 0 ∧ t.aadLen = 0 ∧ t.msgLen = 0 ∧
      t.nonce = 0 ∧ t.tag = 0 ∧ t.key = 0 ∧ t.secretsZero ∧ t.contextZero ∧ t.cfg = s.cfg ∧ t.inputs = rest

/-- R150: the state after reset. The contents of the buffers are left open (R151) and this says nothing of them. -/
def Obligations.StateAfterReset : Prop :=
  State.reset.status.word = 0 ∧ State.reset.phase = .idle ∧ State.reset.opc = 0 ∧ State.reset.aadLen = 0 ∧
    State.reset.msgLen = 0 ∧ State.reset.nonce = 0 ∧ State.reset.tag = 0 ∧ State.reset.key = 0 ∧
    State.reset.secretsZero ∧ State.reset.contextZero

/-! ## The whole machine -/

/-- The invariant (R13, R17, R23, R46, R100) holds after reset. The default capacities are the model's choice (log 3). -/
def Obligations.InvariantAtReset : Prop := State.reset.Inv

/-- R13, R17, R23: every step of any kind, host operation, engine step, poll or reset, keeps the invariant. -/
def Obligations.EveryStepKeepsTheInvariant : Prop :=
  ∀ s t : State, s.Inv → step s = .next t → t.Inv

/-- R140, R149: in a state that meets the invariant no step faults, and the one refusal is a launch of SEAL or OPEN outside the length
precondition; every other step has a next state. The step of an idle engine is counted among these: that it exists, as a stutter, is
the model's choice (log 8). -/
def Obligations.NoFaultAndOneRefusal : Prop :=
  ∀ s : State, s.Inv →
    (s.launchesIllegally → step s = .refused .lengthPrecondition) ∧ (¬ s.launchesIllegally → ∃ t, step s = .next t)

/-- R158 (2): the phase, `BLK`, `OPC` and `STATUS` after an engine step depend on the lengths and the control state alone, but for the
branch of `TAG_CMP` and the outcome `WIPE` publishes, which depend on the comparison alone. -/
def Obligations.ControlDoesNotDependOnData : Prop :=
  ∀ (s u s' : State), sameControl s u → s.inputs = [] → u.inputs = [] →
    (s.phase = .tagCmp → (s.tag = s.tagc ↔ u.tag = u.tagc)) → (s.phase = .wipe → (s.diff = 0 ↔ u.diff = 0)) →
    step s = .next s' → ∃ u', step u = .next u' ∧ sameControl s' u'

/-- R32, R53: an instruction never writes `AAD_BUF`, `IN_BUF`, `NONCE` or the lengths, writes no byte of `OUT_BUF` at or beyond `MSG_LEN`,
and writes `TAG` only in SEAL's `TAG_ENC` and `KEY` only in `WIPE` and `CLEAR`. -/
def Obligations.InstructionsLeaveTheOperands : Prop :=
  ∀ (i : Instr) (s t : State), exec i s = .next t →
    t.aadBuf = s.aadBuf ∧ t.inBuf = s.inBuf ∧ t.nonce = s.nonce ∧ t.aadLen = s.aadLen ∧ t.msgLen = s.msgLen ∧
    (∀ a, s.msgLen.toNat ≤ a → t.readByte .outBuf a = s.readByte .outBuf a) ∧
    (i ≠ .tagEncSeal → t.tag = s.tag) ∧ (i ≠ .wipe → i ≠ .clear → t.key = s.key) ∧
    t.cfg = s.cfg ∧ t.launch = s.launch ∧ t.inputs = s.inputs ∧ t.replies = s.replies

/-- R108, R158 (1): an accepted SEAL reaches `IDLE` with `DONE` = 1 after exactly the steps of R108, and is busy before. -/
def Obligations.SealTakesExactlyItsSteps : Prop :=
  ∀ s : State, s.SealAccepted →
    (∃ t : State, Host.Core.run core (sealSteps s) s = .next t ∧ t.phase = .idle ∧ t.status.done = true ∧ t.status.busy = false) ∧
    ∀ k, k < sealSteps s → ∃ t : State, Host.Core.run core k s = .next t ∧ t.phase ≠ .idle ∧ t.status.busy = true

/-- R115, R158 (1): an accepted OPEN reaches `IDLE` with `DONE` = 1 after exactly the steps of R115, the copy-back counted exactly when
the tags differed, and is busy before. -/
def Obligations.OpenTakesExactlyItsSteps : Prop :=
  ∀ s : State, s.OpenAccepted → ∃ t : State,
    Host.Core.run core (openSteps s t.status.authFail) s = .next t ∧
    t.phase = .idle ∧ t.status.done = true ∧ t.status.busy = false ∧ t.status.authOk = !t.status.authFail ∧
    ∀ k, k < openSteps s t.status.authFail → ∃ u : State, Host.Core.run core k s = .next u ∧ u.phase ≠ .idle ∧ u.status.busy = true

/-- R101: what SEAL computes, under either strategy and width, for every cipher, increment, initial-counter setting and key placement,
and every multiplication with PD2 and PD3: the tag, the ciphertext byte by byte, and what it leaves. -/
def Obligations.SealComputesItsFunction : Prop :=
  ∀ s : State, s.SealAccepted → Bilinear (dot s.cfg) → Associative (dot s.cfg) →
    ∃ t : State, Host.Core.run core (sealSteps s) s = .next t ∧
      t.tag = sealTag s ∧
      (∀ a, t.readByte .outBuf a =
        if a < s.msgLen.toNat then ctrByte s (recordEncKey s.cfg s.key s.nonce) (sealTag s) a else s.readByte .outBuf a) ∧
      t.status = { s.status with busy := false, done := true, authOk := false, authFail := false, cmdErr := false } ∧
      t.ks = keyExpand s.cfg (recordEncKey s.cfg s.key s.nonce) ∧
      (s.status.stratTable = false → t.htable = s.htable) ∧
      (s.status.stratTable = true → ∀ k (hk : k < 8), t.htable[k] = power (dot s.cfg) (recordHashKey s.cfg s.key s.nonce) k) ∧
      (s.msgLen = 0 → t.scratch = s.scratch) ∧
      t.key = 0 ∧ t.secretsZero ∧
      t.aadBuf = s.aadBuf ∧ t.inBuf = s.inBuf ∧ t.nonce = s.nonce ∧ t.aadLen = s.aadLen ∧ t.msgLen = s.msgLen

/-- R111, R123: what OPEN computes, for every cipher, increment, initial-counter setting and key placement, and every multiplication with
PD2 and PD3: the recomputed tag decides, the output is the plaintext or, byte for byte, the ciphertext. -/
def Obligations.OpenComputesItsFunction : Prop :=
  ∀ s : State, s.OpenAccepted → Bilinear (dot s.cfg) → Associative (dot s.cfg) →
    ∃ t : State, Host.Core.run core (openSteps s (decide (openTag s ≠ s.tag))) s = .next t ∧
      t.status = {
        busy := false, done := true, authOk := decide (openTag s = s.tag), authFail := decide (openTag s ≠ s.tag),
        stratTable := true, ways8 := true, cmdErr := false } ∧
      (∀ a, t.readByte .outBuf a =
        if a < s.msgLen.toNat then
          if openTag s = s.tag then ctrByte s (recordEncKey s.cfg s.key s.nonce) s.tag a else s.readByte .inBuf a
        else s.readByte .outBuf a) ∧
      t.ks = keyExpand s.cfg (recordEncKey s.cfg s.key s.nonce) ∧
      (∀ k (hk : k < 8), t.htable[k] = power (dot s.cfg) (recordHashKey s.cfg s.key s.nonce) k) ∧
      t.key = 0 ∧ t.secretsZero ∧ t.tag = s.tag ∧
      t.aadBuf = s.aadBuf ∧ t.inBuf = s.inBuf ∧ t.nonce = s.nonce ∧ t.aadLen = s.aadLen ∧ t.msgLen = s.msgLen

/-- R124, R107, on the functions: opening what a SEAL made, with the same key, nonce and associated data, recomputes the tag and
recovers the plaintext, for every value of the open parameters. -/
def Obligations.RoundTripOfTheFunctions : Prop :=
  ∀ s u : State, sameOperands s u → u.tag = sealTag s →
    (∀ a, a < s.msgLen.toNat → u.readByte .inBuf a = ctrByte s (recordEncKey s.cfg s.key s.nonce) (sealTag s) a) →
    openTag u = u.tag ∧
      ∀ a, a < s.msgLen.toNat → ctrByte u (recordEncKey u.cfg u.key u.nonce) u.tag a = s.readByte .inBuf a

/-- R124, on the machine: an OPEN accepted with the operands, the tag and the ciphertext of a completed SEAL ends with `AUTH_OK` = 1 and
the plaintext in `OUT_BUF`, for every value of the open parameters (a multiplication with PD2 and PD3). -/
def Obligations.OpenAfterSealRoundTrips : Prop :=
  ∀ s s' u : State, s.SealAccepted → Bilinear (dot s.cfg) → Associative (dot s.cfg) →
    Host.Core.run core (sealSteps s) s = .next s' →
    u.OpenAccepted → sameOperands s u → u.tag = s'.tag →
    (∀ a, a < s.msgLen.toNat → u.readByte .inBuf a = s'.readByte .outBuf a) →
    ∃ u' : State, Host.Core.run core (openSteps u false) u = .next u' ∧ u'.phase = .idle ∧ u'.status.word = 0x36 ∧
      ∀ a, a < s.msgLen.toNat → u'.readByte .outBuf a = s.readByte .inBuf a

/-- R90, R43 and §8 property 3: a SEAL under the sequential strategy and one under the table strategy, from the same operands, give the
same tag and the same output bytes. -/
def Obligations.StrategiesGiveTheSameResult : Prop :=
  ∀ s u s' u' : State, s.SealAccepted → u = { s with status := { s.status with stratTable := !s.status.stratTable } } →
    Bilinear (dot s.cfg) → Associative (dot s.cfg) →
    Host.Core.run core (sealSteps s) s = .next s' → Host.Core.run core (sealSteps u) u = .next u' →
    s'.tag = u'.tag ∧ ∀ a, s'.readByte .outBuf a = u'.readByte .outBuf a
end

