-- ==== Sys2Proof/Laws/Field.lean ====
section
/-! SUPPORT. The default field multiplication has the properties PD1 (commutative), PD2 (bilinear over xor) and PD3 (associative) that
40_primitives.md R69 names. Multiplication by `x` generates everything: `clmod a (x^i)` is `i` applications of it to `a`, and two
xor-linear maps that agree on the powers `x^0 .. x^127` are equal. -/
namespace Sys2Proof.Machine

/-- A map of blocks is linear over xor. -/
def XorLinear (f : Block → Block) : Prop := ∀ a b, f (a ^^^ b) = f a ^^^ f b

theorem XorLinear.zero {f : Block → Block} (hf : XorLinear f) : f 0#128 = 0#128 := by
  have h := hf 0 0
  simpa using h

theorem XorLinear.comp {f g : Block → Block} (hf : XorLinear f) (hg : XorLinear g) : XorLinear (fun a => f (g a)) := by
  intro a b
  simp only [hg a b, hf (g a) (g b)]

/-- The bits of a block below `n`, as a xor of powers of `x`. -/
def lowBits (a : Block) : Nat → Block
  | 0 => 0
  | n + 1 => lowBits a n ^^^ (if a.getLsbD n then 1#128 <<< n else 0)

theorem getLsbD_lowBits (a : Block) (n i : Nat) : (lowBits a n).getLsbD i = (decide (i < n) && a.getLsbD i) := by
  induction n with
  | zero => simp [lowBits]
  | succ n ih =>
    have hb : (if a.getLsbD n then (1#128 <<< n) else 0).getLsbD i = (decide (i = n) && a.getLsbD i) := by
      by_cases hin : i = n
      · subst hin
        by_cases ha : a.getLsbD i
        · have hi : i < 128 := by
            apply Decidable.byContradiction
            intro h
            simp [BitVec.getLsbD_of_ge a i (by omega)] at ha
          simp [ha, hi]
        · simp [ha]
      · by_cases ha : a.getLsbD n
        · simp [ha, hin]
          intro h1 h2
          omega
        · simp [ha, hin]
    simp only [lowBits, BitVec.getLsbD_xor, ih, hb]
    by_cases h1 : i < n <;> by_cases h2 : i = n <;> simp [h1, h2] <;> omega

theorem lowBits_all (a : Block) : lowBits a 128 = a := by
  apply BitVec.eq_of_getLsbD_eq
  intro i hi
  rw [getLsbD_lowBits]
  simp [hi]

/-- Two linear maps that agree on the powers of `x` are equal. -/
theorem XorLinear.ext {f g : Block → Block} (hf : XorLinear f) (hg : XorLinear g)
    (h : ∀ i, i < 128 → f (1#128 <<< i) = g (1#128 <<< i)) (a : Block) : f a = g a := by
  have key : ∀ n, n ≤ 128 → f (lowBits a n) = g (lowBits a n) := by
    intro n
    induction n with
    | zero => intro _; exact hf.zero.trans hg.zero.symm
    | succ n ih =>
      intro hn
      simp only [lowBits, hf _ _, hg _ _, ih (by omega)]
      by_cases ha : a.getLsbD n
      · simp only [ha, if_true, h n (by omega)]
      · have h0 : f 0#128 = g 0#128 := hf.zero.trans hg.zero.symm
        simpa [ha] using h0
  rw [← lowBits_all a]
  exact key 128 (Nat.le_refl _)

/-! ## Bilinearity -/

theorem shift_xor (a b : Block) (n : Nat) :
    (a ^^^ b).setWidth 256 <<< n = (a.setWidth 256 <<< n) ^^^ (b.setWidth 256 <<< n) := by
  rw [BitVec.setWidth_xor, BitVec.shiftLeft_xor_distrib]

theorem xor_swap {w : Nat} (a b c d : BitVec w) : (a ^^^ b) ^^^ (c ^^^ d) = (a ^^^ c) ^^^ (b ^^^ d) := by
  ac_rfl

theorem clProduct_xor_left (a b c : Block) (n : Nat) : clProduct (a ^^^ b) c n = clProduct a c n ^^^ clProduct b c n := by
  induction n with
  | zero => simp [clProduct]
  | succ n ih =>
    simp only [clProduct, ih]
    by_cases h : c.getLsbD n
    · simp only [h, if_true, shift_xor]; exact xor_swap _ _ _ _
    · simp [h]

theorem clProduct_xor_right (a b c : Block) (n : Nat) : clProduct a (b ^^^ c) n = clProduct a b n ^^^ clProduct a c n := by
  induction n with
  | zero => simp [clProduct]
  | succ n ih =>
    simp only [clProduct, ih, BitVec.getLsbD_xor]
    cases hb : b.getLsbD n <;> cases hc : c.getLsbD n <;> simp
    · ac_rfl
    · ac_rfl
    · have : ∀ p q z : BitVec 256, p ^^^ q = p ^^^ z ^^^ (q ^^^ z) := by
        intro p q z
        rw [xor_swap]; simp
      exact this _ _ _

theorem clReduce_succ (n : Nat) (r : BitVec 256) :
    clReduce (n + 1) r =
      clReduce n (if r.getLsbD (128 + n) then r ^^^ (1#256 <<< (128 + n)) ^^^ (polyLow <<< n) else r) := by
  rw [clReduce]
  congr 1
  by_cases h : r.getLsbD (128 + n) = true
  · simp only [h, if_true, BitVec.xor_assoc]
  · simp [h]

theorem clReduce_xor (n : Nat) (r t : BitVec 256) : clReduce n (r ^^^ t) = clReduce n r ^^^ clReduce n t := by
  induction n generalizing r t with
  | zero => rfl
  | succ n ih =>
    simp only [clReduce_succ, BitVec.getLsbD_xor]
    rw [← ih]
    congr 1
    generalize (1#256 <<< (128 + n)) = u
    generalize (polyLow <<< n) = v
    cases hr : r.getLsbD (128 + n) <;> cases ht : t.getLsbD (128 + n) <;> simp
    · ac_rfl
    · ac_rfl
    · have : r ^^^ u ^^^ v ^^^ (t ^^^ u ^^^ v) = (r ^^^ t) ^^^ ((u ^^^ u) ^^^ (v ^^^ v)) := by ac_rfl
      simp [this]

theorem clmod_xor_left (a b c : Block) : clmod (a ^^^ b) c = clmod a c ^^^ clmod b c := by
  simp [clmod, clProduct_xor_left, clReduce_xor, BitVec.setWidth_xor]

theorem clmod_xor_right (a b c : Block) : clmod a (b ^^^ c) = clmod a b ^^^ clmod a c := by
  simp [clmod, clProduct_xor_right, clReduce_xor, BitVec.setWidth_xor]

theorem clmod_linear_left (c : Block) : XorLinear (fun a => clmod a c) := fun a b => clmod_xor_left a b c

theorem clmod_linear_right (a : Block) : XorLinear (clmod a) := fun b c => clmod_xor_right a b c

/-! ## Multiplication by `x` -/

/-- Multiplication by `x`, `n` times. -/
def mulX : Nat → Block → Block
  | 0, a => a
  | n + 1, a => clmod (mulX n a) 2

theorem mulX_linear (n : Nat) : XorLinear (mulX n) := by
  induction n with
  | zero => intro a b; rfl
  | succ n ih => exact (clmod_linear_left 2).comp ih

theorem mulX_succ' (n : Nat) (a : Block) : mulX (n + 1) a = mulX n (clmod a 2) := by
  induction n generalizing a with
  | zero => rfl
  | succ n ih =>
    show clmod (mulX (n + 1) a) 2 = clmod (mulX n (clmod a 2)) 2
    rw [ih]

theorem clProduct_pow (a : Block) (i n : Nat) (hi : i < 128) :
    clProduct a (1#128 <<< i) n = if i < n then a.setWidth 256 <<< i else 0 := by
  induction n with
  | zero => simp [clProduct]
  | succ n ih =>
    simp only [clProduct, ih]
    have hb : (1#128 <<< i).getLsbD n = decide (n = i) := by
      by_cases h : n = i
      · subst h; simp [hi]
      · simp [h]; omega
    rw [hb]
    by_cases h : n = i
    · subst h; simp
    · by_cases h2 : i < n
      · simp [h, h2]; omega
      · have : ¬ i < n + 1 := by omega
        simp [h, h2, this]

theorem pow_shift (i j : Nat) (hj : j < 128) : (1#128 <<< j).setWidth 256 <<< i = 1#256 <<< (i + j) := by
  apply BitVec.eq_of_getLsbD_eq
  intro k hk
  by_cases h1 : k < i + j
  · by_cases h2 : k < i
    · simp [h1, h2]
    · simp [h1]; omega
  · by_cases h2 : k = i + j
    · subst h2; simp [hk, hj]
    · simp only [BitVec.getLsbD_shiftLeft, BitVec.getLsbD_setWidth, BitVec.getLsbD_one]
      have h3 : ¬ k - i < j := by omega
      have h4 : ¬ k - i - j = 0 := by omega
      have h5 : ¬ k - (i + j) = 0 := by omega
      simp [h3, h4, h5]

/-- Reduction of `x^k`, `k <= 254`. -/
def reducePow (k : Nat) : Block := (clReduce 127 (1#256 <<< k)).setWidth 128

theorem clmod_pow_pow (i j : Nat) (hi : i < 128) (hj : j < 128) : clmod (1#128 <<< j) (1#128 <<< i) = reducePow (i + j) := by
  simp only [clmod, clProduct_pow _ _ _ hi, hi, if_true, pow_shift i j hj, reducePow]

/-- Nothing is set from bit `n` on. -/
def ZeroFrom {w : Nat} (n : Nat) (r : BitVec w) : Prop := ∀ i, n ≤ i → r.getLsbD i = false

theorem ZeroFrom.shift_one {w n : Nat} {r : BitVec w} (h : ZeroFrom n r) : ZeroFrom (n + 1) (r <<< 1) := by
  intro i hi
  simp [h (i - 1) (by omega)]

theorem clReduce_step_zeroFrom (n : Nat) (hn : n < 127) (r : BitVec 256) (hr : ZeroFrom (128 + (n + 1)) r)
    (hb : r.getLsbD (128 + n) = true) : ZeroFrom (128 + n) (r ^^^ (1#256 <<< (128 + n)) ^^^ (polyLow <<< n)) := by
  intro i hi
  have hp : ∀ j, 128 ≤ j → polyLow.getLsbD j = false := by
    intro j hj
    have h : polyLow = (polyLow.setWidth 128).setWidth 256 := by decide
    rw [h, BitVec.getLsbD_setWidth, BitVec.getLsbD_of_ge _ _ hj, Bool.and_false]
  simp only [BitVec.getLsbD_xor, BitVec.getLsbD_shiftLeft, BitVec.getLsbD_one, hp (i - n) (by omega)]
  by_cases h : i = 128 + n
  · subst h
    simp [hb]
    omega
  · have h1 : r.getLsbD i = false := hr i (by omega)
    have h2 : ¬ i - (128 + n) = 0 := by omega
    simp [h1, h2]

/-- Reduction leaves 128 bits. -/
theorem clReduce_zeroFrom (n : Nat) (hn : n ≤ 127) (r : BitVec 256) (hr : ZeroFrom (128 + n) r) : ZeroFrom 128 (clReduce n r) := by
  induction n generalizing r with
  | zero => exact hr
  | succ n ih =>
    simp only [clReduce_succ]
    by_cases hb : r.getLsbD (128 + n) = true
    · simp only [hb, if_true]
      exact ih (by omega) _ (clReduce_step_zeroFrom n (by omega) r hr hb)
    · simp only [hb]
      refine ih (by omega) _ ?_
      intro i hi
      by_cases h : i = 128 + n
      · subst h; simpa using hb
      · exact hr i (by omega)

/-- The steps above the highest set bit do nothing. -/
theorem clReduce_skip (m n : Nat) (hmn : m ≤ n) (r : BitVec 256) (hr : ZeroFrom (128 + m) r) : clReduce n r = clReduce m r := by
  induction n with
  | zero => have : m = 0 := by omega
            subst this; rfl
  | succ n ih =>
    by_cases h : m = n + 1
    · subst h; rfl
    · have : r.getLsbD (128 + n) = false := hr _ (by omega)
      simp only [clReduce_succ, this]
      exact ih (by omega)

/-- Reducing and then doubling is doubling and then reducing. -/
theorem clReduce_shift (n : Nat) (r : BitVec 256) (hn : n < 127) :
    clReduce (n + 1) (r <<< 1) = clReduce 1 (clReduce n r <<< 1) := by
  induction n generalizing r with
  | zero => rfl
  | succ n ih =>
    have hb : (r <<< 1).getLsbD (128 + (n + 1)) = r.getLsbD (128 + n) := by
      simp; omega
    have h1 : clReduce (n + 1 + 1) (r <<< 1) =
        clReduce (n + 1) ((if r.getLsbD (128 + n) then r ^^^ (1#256 <<< (128 + n)) ^^^ (polyLow <<< n) else r) <<< 1) := by
      rw [clReduce_succ, hb]
      congr 1
      by_cases h : r.getLsbD (128 + n) = true
      · simp only [h, if_true, BitVec.shiftLeft_xor_distrib]
        simp [← BitVec.shiftLeft_add, Nat.add_assoc]
      · simp [h]
    rw [h1, ih _ (by omega), clReduce_succ n r]

theorem zeroFrom_pow (k : Nat) : ZeroFrom (k + 1) (1#256 <<< k) := by
  intro i hi
  have h : ¬ i - k = 0 := by omega
  simp [h]

/-- A power of `x` below 128 is reduced as it stands. -/
theorem reducePow_low (k : Nat) (hk : k < 128) : reducePow k = 1#128 <<< k := by
  have h : clReduce 127 (1#256 <<< k) = 1#256 <<< k :=
    clReduce_skip 0 127 (by omega) _ (fun i hi => zeroFrom_pow k i (by omega))
  rw [reducePow, h]
  apply BitVec.eq_of_getLsbD_eq
  intro i hi
  by_cases h1 : i = k
  · subst h1; simp [hi]
  · by_cases h2 : i < k
    · simp [h2]
    · have h3 : ¬ i - k = 0 := by omega
      simp [h3, hi]

theorem setWidth_back (r : BitVec 256) (hr : ZeroFrom 128 r) : (r.setWidth 128).setWidth 256 = r := by
  apply BitVec.eq_of_getLsbD_eq
  intro i hi
  by_cases h : i < 128
  · simp [hi, h]
  · have := hr i (by omega)
    rw [this, BitVec.getLsbD_setWidth, BitVec.getLsbD_setWidth]
    simp [h]

/-- Reducing `x^(k+1)` is multiplying the reduced `x^k` by `x`. -/
theorem reducePow_succ (k : Nat) (hk : k < 254) : reducePow (k + 1) = clmod (reducePow k) 2 := by
  have hr : ZeroFrom 128 (clReduce 127 (1#256 <<< k)) :=
    clReduce_zeroFrom 127 (by omega) _ (fun i hi => zeroFrom_pow k i (by omega))
  have h126 : clReduce 127 (1#256 <<< k) = clReduce 126 (1#256 <<< k) :=
    clReduce_skip 126 127 (by omega) _ (fun i hi => zeroFrom_pow k i (by omega))
  have h2 : clProduct (reducePow k) 2 128 = clReduce 127 (1#256 <<< k) <<< 1 := by
    have := clProduct_pow (reducePow k) 1 128 (by omega)
    simpa [reducePow, setWidth_back _ hr] using this
  have h3 : clReduce 127 (clReduce 127 (1#256 <<< k) <<< 1) = clReduce 1 (clReduce 127 (1#256 <<< k) <<< 1) :=
    clReduce_skip 1 127 (by omega) _ (fun i hi => hr.shift_one i (by omega))
  rw [clmod, h2, h3, h126, ← clReduce_shift 126 _ (by omega), ← BitVec.shiftLeft_add, reducePow]

theorem clmod_pow_zero (j : Nat) (hj : j < 128) : clmod (1#128 <<< j) 1 = 1#128 <<< j := by
  have h := clmod_pow_pow 0 j (by omega) hj
  rw [Nat.zero_add, reducePow_low j hj] at h
  simpa using h

theorem clmod_one (a : Block) : clmod a 1 = a := by
  apply XorLinear.ext (f := fun a => clmod a 1) (g := fun a => a) (clmod_linear_left 1) (fun _ _ => rfl)
  intro i hi
  exact clmod_pow_zero i hi

/-- Multiplication by `x^i` is `i` multiplications by `x`. -/
theorem clmod_pow (i : Nat) (hi : i < 128) (a : Block) : clmod a (1#128 <<< i) = mulX i a := by
  induction i generalizing a with
  | zero => simpa [mulX] using clmod_one a
  | succ i ih =>
    have h := XorLinear.ext (f := fun a => clmod a (1#128 <<< (i + 1))) (g := fun a => clmod (clmod a (1#128 <<< i)) 2)
      (clmod_linear_left _) ((clmod_linear_left 2).comp (clmod_linear_left _)) ?_ a
    · simp only [mulX, ← ih (by omega) a]
      exact h
    · intro j hj
      simp only [clmod_pow_pow (i + 1) j hi hj, clmod_pow_pow i j (by omega) hj]
      have := reducePow_succ (i + j) (by omega)
      simpa [Nat.add_right_comm] using this

theorem one_clmod (b : Block) : clmod 1 b = b := by
  apply XorLinear.ext (f := clmod 1) (g := fun b => b) (clmod_linear_right 1) (fun _ _ => rfl)
  intro i hi
  have h0 : clmod (1#128 <<< 0) (1#128 <<< i) = clmod (1#128 <<< i) (1#128 <<< 0) := by
    rw [clmod_pow_pow i 0 hi (by omega), clmod_pow_pow 0 i (by omega) hi, Nat.add_comm]
  have h1 := clmod_one (1#128 <<< i)
  simpa using h0.trans h1

/-- Multiplying the left factor by `x` multiplies the product. -/
theorem clmod_mulX_left (n : Nat) (a b : Block) : clmod (mulX n a) b = mulX n (clmod a b) := by
  refine XorLinear.ext (f := clmod (mulX n a)) (g := fun b => mulX n (clmod a b)) (clmod_linear_right _)
    ((mulX_linear n).comp (clmod_linear_right a)) ?_ b
  intro i hi
  simp only [clmod_pow i hi]
  clear hi
  induction i with
  | zero => rfl
  | succ i ih =>
    show clmod (mulX i (mulX n a)) 2 = mulX n (clmod (mulX i a) 2)
    rw [ih, ← mulX_succ' n (mulX i a)]
    rfl

/-- `x^128` reduced: the one place where the polynomial enters. -/
theorem top_power : clmod (1#128 <<< 127) 2 = polyLow.setWidth 128 := by decide +kernel

theorem mulX_one (j : Nat) (hj : j < 128) : mulX j 1 = 1#128 <<< j := by
  rw [← clmod_pow j hj, one_clmod]

/-- Multiplying the right factor by `x` multiplies the product. -/
theorem clmod_double_right (a b : Block) : clmod a (clmod b 2) = clmod (clmod a b) 2 := by
  refine XorLinear.ext (f := fun b => clmod a (clmod b 2)) (g := fun b => clmod (clmod a b) 2)
    ((clmod_linear_right a).comp (clmod_linear_left 2)) ((clmod_linear_left 2).comp (clmod_linear_right a)) ?_ b
  intro i hi
  by_cases h : i < 127
  · have hx : clmod (1#128 <<< i) 2 = 1#128 <<< (i + 1) := by
      rw [← mulX_one i hi, ← mulX_one (i + 1) (by omega)]; rfl
    simp only [hx, clmod_pow i hi, clmod_pow (i + 1) (by omega)]
    rfl
  · have hi' : i = 127 := by omega
    subst hi'
    show clmod a (clmod (1#128 <<< 127) 2) = clmod (clmod a (1#128 <<< 127)) 2
    rw [top_power]
    refine XorLinear.ext (f := fun a => clmod a (polyLow.setWidth 128)) (g := fun a => clmod (clmod a (1#128 <<< 127)) 2)
      (clmod_linear_left _) ((clmod_linear_left 2).comp (clmod_linear_left _)) ?_ a
    intro j hj
    have h1 : clmod (1#128 <<< j) (polyLow.setWidth 128) = mulX j (polyLow.setWidth 128) := by
      rw [← mulX_one j hj, clmod_mulX_left, one_clmod]
    have h2 : clmod (clmod (1#128 <<< j) (1#128 <<< 127)) 2 = mulX j (clmod (1#128 <<< 127) 2) := by
      rw [← mulX_one j hj, clmod_mulX_left, one_clmod, clmod_mulX_left]
    simp only [h1, h2, top_power]

theorem clmod_mulX_right (n : Nat) (a b : Block) : clmod a (mulX n b) = mulX n (clmod a b) := by
  induction n with
  | zero => rfl
  | succ n ih =>
    show clmod a (clmod (mulX n b) 2) = clmod (mulX n (clmod a b)) 2
    rw [clmod_double_right, ih]

theorem clmod_assoc (a b c : Block) : clmod (clmod a b) c = clmod a (clmod b c) := by
  refine XorLinear.ext (f := clmod (clmod a b)) (g := fun c => clmod a (clmod b c)) (clmod_linear_right _)
    ((clmod_linear_right a).comp (clmod_linear_right b)) ?_ c
  intro i hi
  simp only [clmod_pow i hi, clmod_mulX_right]

theorem clmod_comm (a b : Block) : clmod a b = clmod b a := by
  refine XorLinear.ext (f := clmod a) (g := fun b => clmod b a) (clmod_linear_right a) (clmod_linear_left a) ?_ b
  intro i hi
  show clmod a (1#128 <<< i) = clmod (1#128 <<< i) a
  rw [clmod_pow i hi, ← mulX_one i hi, clmod_mulX_left, one_clmod]

/-! ## The default `Dot` -/

/-- PD1 (R69). -/
theorem polyvalDot_comm (a b : Block) : polyvalDot a b = polyvalDot b a := by
  simp only [polyvalDot, clmod_comm a b]

/-- PD2 (R69). -/
theorem polyvalDot_xor_left (a b c : Block) : polyvalDot (a ^^^ b) c = polyvalDot a c ^^^ polyvalDot b c := by
  simp only [polyvalDot, clmod_xor_left]

/-- PD3 (R69). -/
theorem polyvalDot_assoc (a b c : Block) : polyvalDot (polyvalDot a b) c = polyvalDot a (polyvalDot b c) := by
  simp only [polyvalDot]
  rw [clmod_assoc (clmod a b) xInv128 c, clmod_comm xInv128 c, ← clmod_assoc (clmod a b) c xInv128,
    clmod_assoc a b c, ← clmod_assoc a (clmod b c) xInv128]

end Sys2Proof.Machine
end

