-- ==== Sys2Proof/Laws/State.lean ====
section
/-! SUPPORT. One lemma per field per update for the state's named updates, so that no later proof unfolds one. -/
namespace Sys2Proof.Machine
-- One theorem after another: each elaboration thread takes a stack of its own out of the memory allowed.
set_option Elab.async false

/-- Two states with equal fields are equal. -/
theorem state_ext {s t : State}
    (h0 : s.cfg = t.cfg) (h1 : s.aadLen = t.aadLen) (h2 : s.msgLen = t.msgLen) (h3 : s.nonce = t.nonce) (h4 : s.tag = t.tag)
    (h5 : s.key = t.key) (h6 : s.h = t.h) (h7 : s.rek = t.rek) (h8 : s.acc = t.acc) (h9 : s.pretag = t.pretag)
    (h10 : s.tagc = t.tagc) (h11 : s.cb = t.cb) (h12 : s.diff = t.diff) (h13 : s.phase = t.phase) (h14 : s.opc = t.opc)
    (h15 : s.blk = t.blk) (h16 : s.ks = t.ks) (h17 : s.htable = t.htable) (h18 : s.scratch = t.scratch) (h19 : s.status = t.status)
    (h20 : s.aadBuf = t.aadBuf) (h21 : s.inBuf = t.inBuf) (h22 : s.outBuf = t.outBuf) (h23 : s.launch = t.launch) (h24 : s.inputs = t.inputs)
    (h25 : s.replies = t.replies) : s = t := by
  cases s; cases t
  simp only at *
  simp only [h0, h1, h2, h3, h4, h5, h6, h7, h8, h9, h10, h11, h12, h13, h14, h15, h16, h17, h18, h19, h20, h21, h22, h23, h24, h25]

/-! ## setMem, writeByte -/

@[simp] theorem setMem_cfg (s : State) (sp : Space) (m : Memory) : (s.setMem sp m).cfg = s.cfg := by cases sp <;> rfl
@[simp] theorem setMem_aadLen (s : State) (sp : Space) (m : Memory) : (s.setMem sp m).aadLen = s.aadLen := by cases sp <;> rfl
@[simp] theorem setMem_msgLen (s : State) (sp : Space) (m : Memory) : (s.setMem sp m).msgLen = s.msgLen := by cases sp <;> rfl
@[simp] theorem setMem_nonce (s : State) (sp : Space) (m : Memory) : (s.setMem sp m).nonce = s.nonce := by cases sp <;> rfl
@[simp] theorem setMem_tag (s : State) (sp : Space) (m : Memory) : (s.setMem sp m).tag = s.tag := by cases sp <;> rfl
@[simp] theorem setMem_key (s : State) (sp : Space) (m : Memory) : (s.setMem sp m).key = s.key := by cases sp <;> rfl
@[simp] theorem setMem_h (s : State) (sp : Space) (m : Memory) : (s.setMem sp m).h = s.h := by cases sp <;> rfl
@[simp] theorem setMem_rek (s : State) (sp : Space) (m : Memory) : (s.setMem sp m).rek = s.rek := by cases sp <;> rfl
@[simp] theorem setMem_acc (s : State) (sp : Space) (m : Memory) : (s.setMem sp m).acc = s.acc := by cases sp <;> rfl
@[simp] theorem setMem_pretag (s : State) (sp : Space) (m : Memory) : (s.setMem sp m).pretag = s.pretag := by cases sp <;> rfl
@[simp] theorem setMem_tagc (s : State) (sp : Space) (m : Memory) : (s.setMem sp m).tagc = s.tagc := by cases sp <;> rfl
@[simp] theorem setMem_cb (s : State) (sp : Space) (m : Memory) : (s.setMem sp m).cb = s.cb := by cases sp <;> rfl
@[simp] theorem setMem_diff (s : State) (sp : Space) (m : Memory) : (s.setMem sp m).diff = s.diff := by cases sp <;> rfl
@[simp] theorem setMem_phase (s : State) (sp : Space) (m : Memory) : (s.setMem sp m).phase = s.phase := by cases sp <;> rfl
@[simp] theorem setMem_opc (s : State) (sp : Space) (m : Memory) : (s.setMem sp m).opc = s.opc := by cases sp <;> rfl
@[simp] theorem setMem_blk (s : State) (sp : Space) (m : Memory) : (s.setMem sp m).blk = s.blk := by cases sp <;> rfl
@[simp] theorem setMem_ks (s : State) (sp : Space) (m : Memory) : (s.setMem sp m).ks = s.ks := by cases sp <;> rfl
@[simp] theorem setMem_htable (s : State) (sp : Space) (m : Memory) : (s.setMem sp m).htable = s.htable := by cases sp <;> rfl
@[simp] theorem setMem_scratch (s : State) (sp : Space) (m : Memory) : (s.setMem sp m).scratch = s.scratch := by cases sp <;> rfl
@[simp] theorem setMem_status (s : State) (sp : Space) (m : Memory) : (s.setMem sp m).status = s.status := by cases sp <;> rfl
@[simp] theorem setMem_launch (s : State) (sp : Space) (m : Memory) : (s.setMem sp m).launch = s.launch := by cases sp <;> rfl
@[simp] theorem setMem_inputs (s : State) (sp : Space) (m : Memory) : (s.setMem sp m).inputs = s.inputs := by cases sp <;> rfl
@[simp] theorem setMem_replies (s : State) (sp : Space) (m : Memory) : (s.setMem sp m).replies = s.replies := by cases sp <;> rfl

@[simp] theorem setMem_mem_same (s : State) (sp : Space) (m : Memory) : (s.setMem sp m).mem sp = m := by cases sp <;> rfl

theorem setMem_mem_other (s : State) {sp sp' : Space} (m : Memory) (h : sp' ≠ sp) : (s.setMem sp m).mem sp' = s.mem sp' := by
  cases sp <;> cases sp' <;> first | rfl | exact absurd rfl h

@[simp] theorem setMem_capacity (s : State) (sp sp' : Space) (m : Memory) : (s.setMem sp m).capacity sp' = s.capacity sp' := by
  cases sp <;> cases sp' <;> rfl

@[simp] theorem writeByte_cfg (s : State) (sp : Space) (a : Nat) (b : Byte) : (s.writeByte sp a b).cfg = s.cfg := setMem_cfg s sp _
@[simp] theorem writeByte_aadLen (s : State) (sp : Space) (a : Nat) (b : Byte) : (s.writeByte sp a b).aadLen = s.aadLen := setMem_aadLen s sp _
@[simp] theorem writeByte_msgLen (s : State) (sp : Space) (a : Nat) (b : Byte) : (s.writeByte sp a b).msgLen = s.msgLen := setMem_msgLen s sp _
@[simp] theorem writeByte_nonce (s : State) (sp : Space) (a : Nat) (b : Byte) : (s.writeByte sp a b).nonce = s.nonce := setMem_nonce s sp _
@[simp] theorem writeByte_tag (s : State) (sp : Space) (a : Nat) (b : Byte) : (s.writeByte sp a b).tag = s.tag := setMem_tag s sp _
@[simp] theorem writeByte_key (s : State) (sp : Space) (a : Nat) (b : Byte) : (s.writeByte sp a b).key = s.key := setMem_key s sp _
@[simp] theorem writeByte_h (s : State) (sp : Space) (a : Nat) (b : Byte) : (s.writeByte sp a b).h = s.h := setMem_h s sp _
@[simp] theorem writeByte_rek (s : State) (sp : Space) (a : Nat) (b : Byte) : (s.writeByte sp a b).rek = s.rek := setMem_rek s sp _
@[simp] theorem writeByte_acc (s : State) (sp : Space) (a : Nat) (b : Byte) : (s.writeByte sp a b).acc = s.acc := setMem_acc s sp _
@[simp] theorem writeByte_pretag (s : State) (sp : Space) (a : Nat) (b : Byte) : (s.writeByte sp a b).pretag = s.pretag := setMem_pretag s sp _
@[simp] theorem writeByte_tagc (s : State) (sp : Space) (a : Nat) (b : Byte) : (s.writeByte sp a b).tagc = s.tagc := setMem_tagc s sp _
@[simp] theorem writeByte_cb (s : State) (sp : Space) (a : Nat) (b : Byte) : (s.writeByte sp a b).cb = s.cb := setMem_cb s sp _
@[simp] theorem writeByte_diff (s : State) (sp : Space) (a : Nat) (b : Byte) : (s.writeByte sp a b).diff = s.diff := setMem_diff s sp _
@[simp] theorem writeByte_phase (s : State) (sp : Space) (a : Nat) (b : Byte) : (s.writeByte sp a b).phase = s.phase := setMem_phase s sp _
@[simp] theorem writeByte_opc (s : State) (sp : Space) (a : Nat) (b : Byte) : (s.writeByte sp a b).opc = s.opc := setMem_opc s sp _
@[simp] theorem writeByte_blk (s : State) (sp : Space) (a : Nat) (b : Byte) : (s.writeByte sp a b).blk = s.blk := setMem_blk s sp _
@[simp] theorem writeByte_ks (s : State) (sp : Space) (a : Nat) (b : Byte) : (s.writeByte sp a b).ks = s.ks := setMem_ks s sp _
@[simp] theorem writeByte_htable (s : State) (sp : Space) (a : Nat) (b : Byte) : (s.writeByte sp a b).htable = s.htable := setMem_htable s sp _
@[simp] theorem writeByte_scratch (s : State) (sp : Space) (a : Nat) (b : Byte) : (s.writeByte sp a b).scratch = s.scratch := setMem_scratch s sp _
@[simp] theorem writeByte_status (s : State) (sp : Space) (a : Nat) (b : Byte) : (s.writeByte sp a b).status = s.status := setMem_status s sp _
@[simp] theorem writeByte_launch (s : State) (sp : Space) (a : Nat) (b : Byte) : (s.writeByte sp a b).launch = s.launch := setMem_launch s sp _
@[simp] theorem writeByte_inputs (s : State) (sp : Space) (a : Nat) (b : Byte) : (s.writeByte sp a b).inputs = s.inputs := setMem_inputs s sp _
@[simp] theorem writeByte_replies (s : State) (sp : Space) (a : Nat) (b : Byte) : (s.writeByte sp a b).replies = s.replies := setMem_replies s sp _

theorem writeByte_mem_other (s : State) {sp sp' : Space} (a : Nat) (b : Byte) (h : sp' ≠ sp) :
    (s.writeByte sp a b).mem sp' = s.mem sp' := setMem_mem_other s _ h

@[simp] theorem writeByte_mem_same (s : State) (sp : Space) (a : Nat) (b : Byte) :
    (s.writeByte sp a b).mem sp = (s.mem sp).put a b := setMem_mem_same s sp _

@[simp] theorem writeByte_capacity (s : State) (sp sp' : Space) (a : Nat) (b : Byte) :
    (s.writeByte sp a b).capacity sp' = s.capacity sp' := setMem_capacity s sp sp' _

/-! ## memWrite -/

@[simp] theorem memWrite_cfg (s : State) (sp : Space) (a : Nat) (v : Block) (n : Nat) : (memWrite s sp a v n).cfg = s.cfg := by
  induction n with
  | zero => rfl
  | succ n ih => rw [memWrite, writeByte_cfg, ih]

@[simp] theorem memWrite_aadLen (s : State) (sp : Space) (a : Nat) (v : Block) (n : Nat) : (memWrite s sp a v n).aadLen = s.aadLen := by
  induction n with
  | zero => rfl
  | succ n ih => rw [memWrite, writeByte_aadLen, ih]

@[simp] theorem memWrite_msgLen (s : State) (sp : Space) (a : Nat) (v : Block) (n : Nat) : (memWrite s sp a v n).msgLen = s.msgLen := by
  induction n with
  | zero => rfl
  | succ n ih => rw [memWrite, writeByte_msgLen, ih]

@[simp] theorem memWrite_nonce (s : State) (sp : Space) (a : Nat) (v : Block) (n : Nat) : (memWrite s sp a v n).nonce = s.nonce := by
  induction n with
  | zero => rfl
  | succ n ih => rw [memWrite, writeByte_nonce, ih]

@[simp] theorem memWrite_tag (s : State) (sp : Space) (a : Nat) (v : Block) (n : Nat) : (memWrite s sp a v n).tag = s.tag := by
  induction n with
  | zero => rfl
  | succ n ih => rw [memWrite, writeByte_tag, ih]

@[simp] theorem memWrite_key (s : State) (sp : Space) (a : Nat) (v : Block) (n : Nat) : (memWrite s sp a v n).key = s.key := by
  induction n with
  | zero => rfl
  | succ n ih => rw [memWrite, writeByte_key, ih]

@[simp] theorem memWrite_h (s : State) (sp : Space) (a : Nat) (v : Block) (n : Nat) : (memWrite s sp a v n).h = s.h := by
  induction n with
  | zero => rfl
  | succ n ih => rw [memWrite, writeByte_h, ih]

@[simp] theorem memWrite_rek (s : State) (sp : Space) (a : Nat) (v : Block) (n : Nat) : (memWrite s sp a v n).rek = s.rek := by
  induction n with
  | zero => rfl
  | succ n ih => rw [memWrite, writeByte_rek, ih]

@[simp] theorem memWrite_acc (s : State) (sp : Space) (a : Nat) (v : Block) (n : Nat) : (memWrite s sp a v n).acc = s.acc := by
  induction n with
  | zero => rfl
  | succ n ih => rw [memWrite, writeByte_acc, ih]

@[simp] theorem memWrite_pretag (s : State) (sp : Space) (a : Nat) (v : Block) (n : Nat) : (memWrite s sp a v n).pretag = s.pretag := by
  induction n with
  | zero => rfl
  | succ n ih => rw [memWrite, writeByte_pretag, ih]

@[simp] theorem memWrite_tagc (s : State) (sp : Space) (a : Nat) (v : Block) (n : Nat) : (memWrite s sp a v n).tagc = s.tagc := by
  induction n with
  | zero => rfl
  | succ n ih => rw [memWrite, writeByte_tagc, ih]

@[simp] theorem memWrite_cb (s : State) (sp : Space) (a : Nat) (v : Block) (n : Nat) : (memWrite s sp a v n).cb = s.cb := by
  induction n with
  | zero => rfl
  | succ n ih => rw [memWrite, writeByte_cb, ih]

@[simp] theorem memWrite_diff (s : State) (sp : Space) (a : Nat) (v : Block) (n : Nat) : (memWrite s sp a v n).diff = s.diff := by
  induction n with
  | zero => rfl
  | succ n ih => rw [memWrite, writeByte_diff, ih]

@[simp] theorem memWrite_phase (s : State) (sp : Space) (a : Nat) (v : Block) (n : Nat) : (memWrite s sp a v n).phase = s.phase := by
  induction n with
  | zero => rfl
  | succ n ih => rw [memWrite, writeByte_phase, ih]

@[simp] theorem memWrite_opc (s : State) (sp : Space) (a : Nat) (v : Block) (n : Nat) : (memWrite s sp a v n).opc = s.opc := by
  induction n with
  | zero => rfl
  | succ n ih => rw [memWrite, writeByte_opc, ih]

@[simp] theorem memWrite_blk (s : State) (sp : Space) (a : Nat) (v : Block) (n : Nat) : (memWrite s sp a v n).blk = s.blk := by
  induction n with
  | zero => rfl
  | succ n ih => rw [memWrite, writeByte_blk, ih]

@[simp] theorem memWrite_ks (s : State) (sp : Space) (a : Nat) (v : Block) (n : Nat) : (memWrite s sp a v n).ks = s.ks := by
  induction n with
  | zero => rfl
  | succ n ih => rw [memWrite, writeByte_ks, ih]

@[simp] theorem memWrite_htable (s : State) (sp : Space) (a : Nat) (v : Block) (n : Nat) : (memWrite s sp a v n).htable = s.htable := by
  induction n with
  | zero => rfl
  | succ n ih => rw [memWrite, writeByte_htable, ih]

@[simp] theorem memWrite_scratch (s : State) (sp : Space) (a : Nat) (v : Block) (n : Nat) : (memWrite s sp a v n).scratch = s.scratch := by
  induction n with
  | zero => rfl
  | succ n ih => rw [memWrite, writeByte_scratch, ih]

@[simp] theorem memWrite_status (s : State) (sp : Space) (a : Nat) (v : Block) (n : Nat) : (memWrite s sp a v n).status = s.status := by
  induction n with
  | zero => rfl
  | succ n ih => rw [memWrite, writeByte_status, ih]

@[simp] theorem memWrite_launch (s : State) (sp : Space) (a : Nat) (v : Block) (n : Nat) : (memWrite s sp a v n).launch = s.launch := by
  induction n with
  | zero => rfl
  | succ n ih => rw [memWrite, writeByte_launch, ih]

@[simp] theorem memWrite_inputs (s : State) (sp : Space) (a : Nat) (v : Block) (n : Nat) : (memWrite s sp a v n).inputs = s.inputs := by
  induction n with
  | zero => rfl
  | succ n ih => rw [memWrite, writeByte_inputs, ih]

@[simp] theorem memWrite_replies (s : State) (sp : Space) (a : Nat) (v : Block) (n : Nat) : (memWrite s sp a v n).replies = s.replies := by
  induction n with
  | zero => rfl
  | succ n ih => rw [memWrite, writeByte_replies, ih]

theorem memWrite_mem_other (s : State) {sp sp' : Space} (a : Nat) (v : Block) (n : Nat) (h : sp' ≠ sp) :
    (memWrite s sp a v n).mem sp' = s.mem sp' := by
  induction n with
  | zero => rfl
  | succ n ih => rw [memWrite, writeByte_mem_other _ _ _ h, ih]

@[simp] theorem memWrite_out_aadBuf (s : State) (a : Nat) (v : Block) (n : Nat) : (memWrite s .outBuf a v n).aadBuf = s.aadBuf :=
  memWrite_mem_other (sp' := .aadBuf) s a v n (by decide)

@[simp] theorem memWrite_out_inBuf (s : State) (a : Nat) (v : Block) (n : Nat) : (memWrite s .outBuf a v n).inBuf = s.inBuf :=
  memWrite_mem_other (sp' := .inBuf) s a v n (by decide)

/-! ## keystreamBatch: it writes `SCRATCH` and `CB` only (R104) -/

@[simp] theorem keystreamBatch_cfg (s : State) (r : Nat) : (keystreamBatch s r).cfg = s.cfg := by
  induction r with
  | zero => rfl
  | succ r ih => exact ih

@[simp] theorem keystreamBatch_aadLen (s : State) (r : Nat) : (keystreamBatch s r).aadLen = s.aadLen := by
  induction r with
  | zero => rfl
  | succ r ih => exact ih

@[simp] theorem keystreamBatch_msgLen (s : State) (r : Nat) : (keystreamBatch s r).msgLen = s.msgLen := by
  induction r with
  | zero => rfl
  | succ r ih => exact ih

@[simp] theorem keystreamBatch_nonce (s : State) (r : Nat) : (keystreamBatch s r).nonce = s.nonce := by
  induction r with
  | zero => rfl
  | succ r ih => exact ih

@[simp] theorem keystreamBatch_tag (s : State) (r : Nat) : (keystreamBatch s r).tag = s.tag := by
  induction r with
  | zero => rfl
  | succ r ih => exact ih

@[simp] theorem keystreamBatch_key (s : State) (r : Nat) : (keystreamBatch s r).key = s.key := by
  induction r with
  | zero => rfl
  | succ r ih => exact ih

@[simp] theorem keystreamBatch_h (s : State) (r : Nat) : (keystreamBatch s r).h = s.h := by
  induction r with
  | zero => rfl
  | succ r ih => exact ih

@[simp] theorem keystreamBatch_rek (s : State) (r : Nat) : (keystreamBatch s r).rek = s.rek := by
  induction r with
  | zero => rfl
  | succ r ih => exact ih

@[simp] theorem keystreamBatch_acc (s : State) (r : Nat) : (keystreamBatch s r).acc = s.acc := by
  induction r with
  | zero => rfl
  | succ r ih => exact ih

@[simp] theorem keystreamBatch_pretag (s : State) (r : Nat) : (keystreamBatch s r).pretag = s.pretag := by
  induction r with
  | zero => rfl
  | succ r ih => exact ih

@[simp] theorem keystreamBatch_tagc (s : State) (r : Nat) : (keystreamBatch s r).tagc = s.tagc := by
  induction r with
  | zero => rfl
  | succ r ih => exact ih

@[simp] theorem keystreamBatch_diff (s : State) (r : Nat) : (keystreamBatch s r).diff = s.diff := by
  induction r with
  | zero => rfl
  | succ r ih => exact ih

@[simp] theorem keystreamBatch_phase (s : State) (r : Nat) : (keystreamBatch s r).phase = s.phase := by
  induction r with
  | zero => rfl
  | succ r ih => exact ih

@[simp] theorem keystreamBatch_opc (s : State) (r : Nat) : (keystreamBatch s r).opc = s.opc := by
  induction r with
  | zero => rfl
  | succ r ih => exact ih

@[simp] theorem keystreamBatch_blk (s : State) (r : Nat) : (keystreamBatch s r).blk = s.blk := by
  induction r with
  | zero => rfl
  | succ r ih => exact ih

@[simp] theorem keystreamBatch_ks (s : State) (r : Nat) : (keystreamBatch s r).ks = s.ks := by
  induction r with
  | zero => rfl
  | succ r ih => exact ih

@[simp] theorem keystreamBatch_htable (s : State) (r : Nat) : (keystreamBatch s r).htable = s.htable := by
  induction r with
  | zero => rfl
  | succ r ih => exact ih

@[simp] theorem keystreamBatch_status (s : State) (r : Nat) : (keystreamBatch s r).status = s.status := by
  induction r with
  | zero => rfl
  | succ r ih => exact ih

@[simp] theorem keystreamBatch_launch (s : State) (r : Nat) : (keystreamBatch s r).launch = s.launch := by
  induction r with
  | zero => rfl
  | succ r ih => exact ih

@[simp] theorem keystreamBatch_inputs (s : State) (r : Nat) : (keystreamBatch s r).inputs = s.inputs := by
  induction r with
  | zero => rfl
  | succ r ih => exact ih

@[simp] theorem keystreamBatch_replies (s : State) (r : Nat) : (keystreamBatch s r).replies = s.replies := by
  induction r with
  | zero => rfl
  | succ r ih => exact ih

@[simp] theorem keystreamBatch_aadBuf (s : State) (r : Nat) : (keystreamBatch s r).aadBuf = s.aadBuf := by
  induction r with
  | zero => rfl
  | succ r ih => exact ih

@[simp] theorem keystreamBatch_inBuf (s : State) (r : Nat) : (keystreamBatch s r).inBuf = s.inBuf := by
  induction r with
  | zero => rfl
  | succ r ih => exact ih

@[simp] theorem keystreamBatch_outBuf (s : State) (r : Nat) : (keystreamBatch s r).outBuf = s.outBuf := by
  induction r with
  | zero => rfl
  | succ r ih => exact ih

@[simp] theorem keystreamBatch_mem (s : State) (r : Nat) (sp : Space) : (keystreamBatch s r).mem sp = s.mem sp := by
  cases sp <;> simp [State.mem]

@[simp] theorem keystreamBatch_capacity (s : State) (r : Nat) (sp : Space) : (keystreamBatch s r).capacity sp = s.capacity sp := by
  cases sp <;> simp [State.capacity]

/-! ## xorBlocks: it writes `OUT_BUF` only (R105, R113) -/

@[simp] theorem xorBlocks_cfg (s : State) (j r : Nat) : (xorBlocks s j r).cfg = s.cfg := by
  induction r with
  | zero => rfl
  | succ r ih => simp [xorBlocks, ih]

@[simp] theorem xorBlocks_aadLen (s : State) (j r : Nat) : (xorBlocks s j r).aadLen = s.aadLen := by
  induction r with
  | zero => rfl
  | succ r ih => simp [xorBlocks, ih]

@[simp] theorem xorBlocks_msgLen (s : State) (j r : Nat) : (xorBlocks s j r).msgLen = s.msgLen := by
  induction r with
  | zero => rfl
  | succ r ih => simp [xorBlocks, ih]

@[simp] theorem xorBlocks_nonce (s : State) (j r : Nat) : (xorBlocks s j r).nonce = s.nonce := by
  induction r with
  | zero => rfl
  | succ r ih => simp [xorBlocks, ih]

@[simp] theorem xorBlocks_tag (s : State) (j r : Nat) : (xorBlocks s j r).tag = s.tag := by
  induction r with
  | zero => rfl
  | succ r ih => simp [xorBlocks, ih]

@[simp] theorem xorBlocks_key (s : State) (j r : Nat) : (xorBlocks s j r).key = s.key := by
  induction r with
  | zero => rfl
  | succ r ih => simp [xorBlocks, ih]

@[simp] theorem xorBlocks_h (s : State) (j r : Nat) : (xorBlocks s j r).h = s.h := by
  induction r with
  | zero => rfl
  | succ r ih => simp [xorBlocks, ih]

@[simp] theorem xorBlocks_rek (s : State) (j r : Nat) : (xorBlocks s j r).rek = s.rek := by
  induction r with
  | zero => rfl
  | succ r ih => simp [xorBlocks, ih]

@[simp] theorem xorBlocks_acc (s : State) (j r : Nat) : (xorBlocks s j r).acc = s.acc := by
  induction r with
  | zero => rfl
  | succ r ih => simp [xorBlocks, ih]

@[simp] theorem xorBlocks_pretag (s : State) (j r : Nat) : (xorBlocks s j r).pretag = s.pretag := by
  induction r with
  | zero => rfl
  | succ r ih => simp [xorBlocks, ih]

@[simp] theorem xorBlocks_tagc (s : State) (j r : Nat) : (xorBlocks s j r).tagc = s.tagc := by
  induction r with
  | zero => rfl
  | succ r ih => simp [xorBlocks, ih]

@[simp] theorem xorBlocks_cb (s : State) (j r : Nat) : (xorBlocks s j r).cb = s.cb := by
  induction r with
  | zero => rfl
  | succ r ih => simp [xorBlocks, ih]

@[simp] theorem xorBlocks_diff (s : State) (j r : Nat) : (xorBlocks s j r).diff = s.diff := by
  induction r with
  | zero => rfl
  | succ r ih => simp [xorBlocks, ih]

@[simp] theorem xorBlocks_phase (s : State) (j r : Nat) : (xorBlocks s j r).phase = s.phase := by
  induction r with
  | zero => rfl
  | succ r ih => simp [xorBlocks, ih]

@[simp] theorem xorBlocks_opc (s : State) (j r : Nat) : (xorBlocks s j r).opc = s.opc := by
  induction r with
  | zero => rfl
  | succ r ih => simp [xorBlocks, ih]

@[simp] theorem xorBlocks_blk (s : State) (j r : Nat) : (xorBlocks s j r).blk = s.blk := by
  induction r with
  | zero => rfl
  | succ r ih => simp [xorBlocks, ih]

@[simp] theorem xorBlocks_ks (s : State) (j r : Nat) : (xorBlocks s j r).ks = s.ks := by
  induction r with
  | zero => rfl
  | succ r ih => simp [xorBlocks, ih]

@[simp] theorem xorBlocks_htable (s : State) (j r : Nat) : (xorBlocks s j r).htable = s.htable := by
  induction r with
  | zero => rfl
  | succ r ih => simp [xorBlocks, ih]

@[simp] theorem xorBlocks_scratch (s : State) (j r : Nat) : (xorBlocks s j r).scratch = s.scratch := by
  induction r with
  | zero => rfl
  | succ r ih => simp [xorBlocks, ih]

@[simp] theorem xorBlocks_status (s : State) (j r : Nat) : (xorBlocks s j r).status = s.status := by
  induction r with
  | zero => rfl
  | succ r ih => simp [xorBlocks, ih]

@[simp] theorem xorBlocks_launch (s : State) (j r : Nat) : (xorBlocks s j r).launch = s.launch := by
  induction r with
  | zero => rfl
  | succ r ih => simp [xorBlocks, ih]

@[simp] theorem xorBlocks_inputs (s : State) (j r : Nat) : (xorBlocks s j r).inputs = s.inputs := by
  induction r with
  | zero => rfl
  | succ r ih => simp [xorBlocks, ih]

@[simp] theorem xorBlocks_replies (s : State) (j r : Nat) : (xorBlocks s j r).replies = s.replies := by
  induction r with
  | zero => rfl
  | succ r ih => simp [xorBlocks, ih]

@[simp] theorem xorBlocks_aadBuf (s : State) (j r : Nat) : (xorBlocks s j r).aadBuf = s.aadBuf := by
  induction r with
  | zero => rfl
  | succ r ih => simp [xorBlocks, ih]

@[simp] theorem xorBlocks_inBuf (s : State) (j r : Nat) : (xorBlocks s j r).inBuf = s.inBuf := by
  induction r with
  | zero => rfl
  | succ r ih => simp [xorBlocks, ih]

/-! ## accept, zeroSecrets, reply, storeWord -/

@[simp] theorem accept_cfg (s : State) (o : BitVec 4) (a b : Bool) (p : Phase) : (accept s o a b p).cfg = s.cfg := rfl
@[simp] theorem accept_aadLen (s : State) (o : BitVec 4) (a b : Bool) (p : Phase) : (accept s o a b p).aadLen = s.aadLen := rfl
@[simp] theorem accept_msgLen (s : State) (o : BitVec 4) (a b : Bool) (p : Phase) : (accept s o a b p).msgLen = s.msgLen := rfl
@[simp] theorem accept_nonce (s : State) (o : BitVec 4) (a b : Bool) (p : Phase) : (accept s o a b p).nonce = s.nonce := rfl
@[simp] theorem accept_tag (s : State) (o : BitVec 4) (a b : Bool) (p : Phase) : (accept s o a b p).tag = s.tag := rfl
@[simp] theorem accept_key (s : State) (o : BitVec 4) (a b : Bool) (p : Phase) : (accept s o a b p).key = s.key := rfl
@[simp] theorem accept_h (s : State) (o : BitVec 4) (a b : Bool) (p : Phase) : (accept s o a b p).h = s.h := rfl
@[simp] theorem accept_rek (s : State) (o : BitVec 4) (a b : Bool) (p : Phase) : (accept s o a b p).rek = s.rek := rfl
@[simp] theorem accept_acc (s : State) (o : BitVec 4) (a b : Bool) (p : Phase) : (accept s o a b p).acc = s.acc := rfl
@[simp] theorem accept_pretag (s : State) (o : BitVec 4) (a b : Bool) (p : Phase) : (accept s o a b p).pretag = s.pretag := rfl
@[simp] theorem accept_tagc (s : State) (o : BitVec 4) (a b : Bool) (p : Phase) : (accept s o a b p).tagc = s.tagc := rfl
@[simp] theorem accept_cb (s : State) (o : BitVec 4) (a b : Bool) (p : Phase) : (accept s o a b p).cb = s.cb := rfl
@[simp] theorem accept_diff (s : State) (o : BitVec 4) (a b : Bool) (p : Phase) : (accept s o a b p).diff = s.diff := rfl
@[simp] theorem accept_ks (s : State) (o : BitVec 4) (a b : Bool) (p : Phase) : (accept s o a b p).ks = s.ks := rfl
@[simp] theorem accept_htable (s : State) (o : BitVec 4) (a b : Bool) (p : Phase) : (accept s o a b p).htable = s.htable := rfl
@[simp] theorem accept_scratch (s : State) (o : BitVec 4) (a b : Bool) (p : Phase) : (accept s o a b p).scratch = s.scratch := rfl
@[simp] theorem accept_launch (s : State) (o : BitVec 4) (a b : Bool) (p : Phase) : (accept s o a b p).launch = s.launch := rfl
@[simp] theorem accept_inputs (s : State) (o : BitVec 4) (a b : Bool) (p : Phase) : (accept s o a b p).inputs = s.inputs := rfl
@[simp] theorem accept_replies (s : State) (o : BitVec 4) (a b : Bool) (p : Phase) : (accept s o a b p).replies = s.replies := rfl
@[simp] theorem accept_aadBuf (s : State) (o : BitVec 4) (a b : Bool) (p : Phase) : (accept s o a b p).aadBuf = s.aadBuf := rfl
@[simp] theorem accept_inBuf (s : State) (o : BitVec 4) (a b : Bool) (p : Phase) : (accept s o a b p).inBuf = s.inBuf := rfl
@[simp] theorem accept_outBuf (s : State) (o : BitVec 4) (a b : Bool) (p : Phase) : (accept s o a b p).outBuf = s.outBuf := rfl
@[simp] theorem accept_opc (s : State) (o : BitVec 4) (a b : Bool) (p : Phase) : (accept s o a b p).opc = o := rfl
@[simp] theorem accept_blk (s : State) (o : BitVec 4) (a b : Bool) (p : Phase) : (accept s o a b p).blk = 0 := rfl
@[simp] theorem accept_status (s : State) (o : BitVec 4) (a b : Bool) (p : Phase) : (accept s o a b p).status = Status.accepted a b := rfl
@[simp] theorem accept_phase (s : State) (o : BitVec 4) (a b : Bool) (p : Phase) : (accept s o a b p).phase = p := rfl

@[simp] theorem zeroSecrets_cfg (s : State) : s.zeroSecrets.cfg = s.cfg := rfl
@[simp] theorem zeroSecrets_aadLen (s : State) : s.zeroSecrets.aadLen = s.aadLen := rfl
@[simp] theorem zeroSecrets_msgLen (s : State) : s.zeroSecrets.msgLen = s.msgLen := rfl
@[simp] theorem zeroSecrets_nonce (s : State) : s.zeroSecrets.nonce = s.nonce := rfl
@[simp] theorem zeroSecrets_tag (s : State) : s.zeroSecrets.tag = s.tag := rfl
@[simp] theorem zeroSecrets_key (s : State) : s.zeroSecrets.key = 0 := rfl
@[simp] theorem zeroSecrets_h (s : State) : s.zeroSecrets.h = 0 := rfl
@[simp] theorem zeroSecrets_rek (s : State) : s.zeroSecrets.rek = 0 := rfl
@[simp] theorem zeroSecrets_acc (s : State) : s.zeroSecrets.acc = 0 := rfl
@[simp] theorem zeroSecrets_pretag (s : State) : s.zeroSecrets.pretag = 0 := rfl
@[simp] theorem zeroSecrets_tagc (s : State) : s.zeroSecrets.tagc = 0 := rfl
@[simp] theorem zeroSecrets_cb (s : State) : s.zeroSecrets.cb = 0 := rfl
@[simp] theorem zeroSecrets_diff (s : State) : s.zeroSecrets.diff = 0 := rfl
@[simp] theorem zeroSecrets_phase (s : State) : s.zeroSecrets.phase = Phase.idle := rfl
@[simp] theorem zeroSecrets_opc (s : State) : s.zeroSecrets.opc = s.opc := rfl
@[simp] theorem zeroSecrets_blk (s : State) : s.zeroSecrets.blk = 0 := rfl
@[simp] theorem zeroSecrets_ks (s : State) : s.zeroSecrets.ks = s.ks := rfl
@[simp] theorem zeroSecrets_htable (s : State) : s.zeroSecrets.htable = s.htable := rfl
@[simp] theorem zeroSecrets_scratch (s : State) : s.zeroSecrets.scratch = s.scratch := rfl
@[simp] theorem zeroSecrets_status (s : State) : s.zeroSecrets.status = s.status := rfl
@[simp] theorem zeroSecrets_launch (s : State) : s.zeroSecrets.launch = s.launch := rfl
@[simp] theorem zeroSecrets_inputs (s : State) : s.zeroSecrets.inputs = s.inputs := rfl
@[simp] theorem zeroSecrets_replies (s : State) : s.zeroSecrets.replies = s.replies := rfl
@[simp] theorem zeroSecrets_aadBuf (s : State) : s.zeroSecrets.aadBuf = s.aadBuf := rfl
@[simp] theorem zeroSecrets_inBuf (s : State) : s.zeroSecrets.inBuf = s.inBuf := rfl
@[simp] theorem zeroSecrets_outBuf (s : State) : s.zeroSecrets.outBuf = s.outBuf := rfl

@[simp] theorem reply_cfg (s : State) (r : Reply) : (s.reply r).cfg = s.cfg := rfl
@[simp] theorem reply_aadLen (s : State) (r : Reply) : (s.reply r).aadLen = s.aadLen := rfl
@[simp] theorem reply_msgLen (s : State) (r : Reply) : (s.reply r).msgLen = s.msgLen := rfl
@[simp] theorem reply_nonce (s : State) (r : Reply) : (s.reply r).nonce = s.nonce := rfl
@[simp] theorem reply_tag (s : State) (r : Reply) : (s.reply r).tag = s.tag := rfl
@[simp] theorem reply_key (s : State) (r : Reply) : (s.reply r).key = s.key := rfl
@[simp] theorem reply_h (s : State) (r : Reply) : (s.reply r).h = s.h := rfl
@[simp] theorem reply_rek (s : State) (r : Reply) : (s.reply r).rek = s.rek := rfl
@[simp] theorem reply_acc (s : State) (r : Reply) : (s.reply r).acc = s.acc := rfl
@[simp] theorem reply_pretag (s : State) (r : Reply) : (s.reply r).pretag = s.pretag := rfl
@[simp] theorem reply_tagc (s : State) (r : Reply) : (s.reply r).tagc = s.tagc := rfl
@[simp] theorem reply_cb (s : State) (r : Reply) : (s.reply r).cb = s.cb := rfl
@[simp] theorem reply_diff (s : State) (r : Reply) : (s.reply r).diff = s.diff := rfl
@[simp] theorem reply_phase (s : State) (r : Reply) : (s.reply r).phase = s.phase := rfl
@[simp] theorem reply_opc (s : State) (r : Reply) : (s.reply r).opc = s.opc := rfl
@[simp] theorem reply_blk (s : State) (r : Reply) : (s.reply r).blk = s.blk := rfl
@[simp] theorem reply_ks (s : State) (r : Reply) : (s.reply r).ks = s.ks := rfl
@[simp] theorem reply_htable (s : State) (r : Reply) : (s.reply r).htable = s.htable := rfl
@[simp] theorem reply_scratch (s : State) (r : Reply) : (s.reply r).scratch = s.scratch := rfl
@[simp] theorem reply_status (s : State) (r : Reply) : (s.reply r).status = s.status := rfl
@[simp] theorem reply_launch (s : State) (r : Reply) : (s.reply r).launch = s.launch := rfl
@[simp] theorem reply_inputs (s : State) (r : Reply) : (s.reply r).inputs = s.inputs := rfl
@[simp] theorem reply_aadBuf (s : State) (r : Reply) : (s.reply r).aadBuf = s.aadBuf := rfl
@[simp] theorem reply_inBuf (s : State) (r : Reply) : (s.reply r).inBuf = s.inBuf := rfl
@[simp] theorem reply_outBuf (s : State) (r : Reply) : (s.reply r).outBuf = s.outBuf := rfl
@[simp] theorem reply_replies (s : State) (r : Reply) : (s.reply r).replies = s.replies ++ [r] := rfl

@[simp] theorem storeWord_cfg (s : State) (w : BitVec 6) (v : RegWord) : (storeWord s w v).cfg = s.cfg := rfl
@[simp] theorem storeWord_h (s : State) (w : BitVec 6) (v : RegWord) : (storeWord s w v).h = s.h := rfl
@[simp] theorem storeWord_rek (s : State) (w : BitVec 6) (v : RegWord) : (storeWord s w v).rek = s.rek := rfl
@[simp] theorem storeWord_acc (s : State) (w : BitVec 6) (v : RegWord) : (storeWord s w v).acc = s.acc := rfl
@[simp] theorem storeWord_pretag (s : State) (w : BitVec 6) (v : RegWord) : (storeWord s w v).pretag = s.pretag := rfl
@[simp] theorem storeWord_tagc (s : State) (w : BitVec 6) (v : RegWord) : (storeWord s w v).tagc = s.tagc := rfl
@[simp] theorem storeWord_cb (s : State) (w : BitVec 6) (v : RegWord) : (storeWord s w v).cb = s.cb := rfl
@[simp] theorem storeWord_diff (s : State) (w : BitVec 6) (v : RegWord) : (storeWord s w v).diff = s.diff := rfl
@[simp] theorem storeWord_phase (s : State) (w : BitVec 6) (v : RegWord) : (storeWord s w v).phase = s.phase := rfl
@[simp] theorem storeWord_opc (s : State) (w : BitVec 6) (v : RegWord) : (storeWord s w v).opc = s.opc := rfl
@[simp] theorem storeWord_blk (s : State) (w : BitVec 6) (v : RegWord) : (storeWord s w v).blk = s.blk := rfl
@[simp] theorem storeWord_ks (s : State) (w : BitVec 6) (v : RegWord) : (storeWord s w v).ks = s.ks := rfl
@[simp] theorem storeWord_htable (s : State) (w : BitVec 6) (v : RegWord) : (storeWord s w v).htable = s.htable := rfl
@[simp] theorem storeWord_scratch (s : State) (w : BitVec 6) (v : RegWord) : (storeWord s w v).scratch = s.scratch := rfl
@[simp] theorem storeWord_status (s : State) (w : BitVec 6) (v : RegWord) : (storeWord s w v).status = s.status := rfl
@[simp] theorem storeWord_launch (s : State) (w : BitVec 6) (v : RegWord) : (storeWord s w v).launch = s.launch := rfl
@[simp] theorem storeWord_inputs (s : State) (w : BitVec 6) (v : RegWord) : (storeWord s w v).inputs = s.inputs := rfl
@[simp] theorem storeWord_replies (s : State) (w : BitVec 6) (v : RegWord) : (storeWord s w v).replies = s.replies := rfl
@[simp] theorem storeWord_aadBuf (s : State) (w : BitVec 6) (v : RegWord) : (storeWord s w v).aadBuf = s.aadBuf := rfl
@[simp] theorem storeWord_inBuf (s : State) (w : BitVec 6) (v : RegWord) : (storeWord s w v).inBuf = s.inBuf := rfl
@[simp] theorem storeWord_outBuf (s : State) (w : BitVec 6) (v : RegWord) : (storeWord s w v).outBuf = s.outBuf := rfl

end Sys2Proof.Machine
end

