-- ==== Sys2Proof/Laws/Memory.lean ====
section
/-! SUPPORT. The laws of the buffer memories: reading after writing, and the canonical form that every operation keeps. -/
namespace Sys2Proof.Machine
-- One theorem after another: each elaboration thread takes a stack of its own out of the memory allowed.
set_option Elab.async false

theorem find_put_same (m : Memory) (a : Nat) (b : Byte) : (m.put a b).find a = some b := by
  induction m with
  | nil => simp [Memory.put, Memory.find]
  | cons c m ih =>
    obtain ⟨c, d⟩ := c
    simp only [Memory.put]
    split
    · simp [Memory.find]
    · split
      · simp [Memory.find]
      · rename_i h1 h2
        simp [Memory.find, h2, ih]

theorem find_put_other (m : Memory) {a a' : Nat} (b : Byte) (h : a' ≠ a) : (m.put a b).find a' = m.find a' := by
  induction m with
  | nil => simp [Memory.put, Memory.find, h]
  | cons c m ih =>
    obtain ⟨c, d⟩ := c
    simp only [Memory.put]
    split
    · simp [Memory.find, h]
    · split
      · rename_i h1 h2
        subst h2
        simp [Memory.find, h]
      · simp only [Memory.find, ih]

theorem above_of_lt {lo hi : Nat} (h : lo ≤ hi) (m : Memory) (hm : m.above hi = true) : m.above lo = true := by
  cases m with
  | nil => rfl
  | cons c m =>
    obtain ⟨c, d⟩ := c
    simp only [Memory.above, Bool.and_eq_true, decide_eq_true_eq] at hm ⊢
    exact ⟨by omega, hm.2⟩

theorem above_put (m : Memory) (lo a : Nat) (b : Byte) (hlo : lo < a) (hm : m.above lo = true) : (m.put a b).above lo = true := by
  induction m generalizing lo with
  | nil => simp [Memory.put, Memory.above, hlo]
  | cons c m ih =>
    obtain ⟨c, d⟩ := c
    simp only [Memory.above, Bool.and_eq_true, decide_eq_true_eq] at hm
    simp only [Memory.put]
    split
    · rename_i h
      simp [Memory.above, hlo, h, hm.2]
    · split
      · rename_i h1 h2
        subst h2
        simp [Memory.above, hlo, hm.2]
      · simp only [Memory.above, hm.1, decide_true, Bool.true_and]
        exact ih c (by omega) hm.2

/-- A write keeps the canonical form. -/
theorem put_wf (m : Memory) (a : Nat) (b : Byte) (hm : m.wf = true) : (m.put a b).wf = true := by
  cases m with
  | nil => rfl
  | cons c m =>
    obtain ⟨c, d⟩ := c
    simp only [Memory.wf] at hm
    simp only [Memory.put]
    split
    · rename_i h
      simp [Memory.wf, Memory.above, h, hm]
    · split
      · rename_i h1 h2
        subst h2
        simpa [Memory.wf] using hm
      · simp only [Memory.wf]
        exact above_put m c a b (by omega) hm

/-- A write inside the capacity keeps everything inside the capacity. -/
theorem put_within (m : Memory) (cap a : Nat) (b : Byte) (ha : a < cap) (hm : m.within cap = true) :
    (m.put a b).within cap = true := by
  induction m with
  | nil => simp [Memory.put, Memory.within, ha]
  | cons c m ih =>
    obtain ⟨c, d⟩ := c
    simp only [Memory.within, List.all_cons, Bool.and_eq_true, decide_eq_true_eq] at hm ih ⊢
    simp only [Memory.put]
    split
    · simp [ha, hm.1, hm.2]
    · split
      · simp [ha, hm.2]
      · simp [hm.1, ih hm.2]

theorem find_below {m : Memory} {lo a : Nat} (hm : m.above lo = true) (ha : a ≤ lo) : m.find a = none := by
  induction m generalizing lo with
  | nil => rfl
  | cons c m ih =>
    obtain ⟨c, d⟩ := c
    simp only [Memory.above, Bool.and_eq_true, decide_eq_true_eq] at hm
    have : a ≠ c := by omega
    simp [Memory.find, this, ih hm.2 (by omega)]

/-- Two memories with the same contents begin with the same entry, and what follows has the same contents. -/
theorem cons_ext {c e : Nat} {d f : Byte} {m m' : Memory} (hm : m.above c = true) (hm' : m'.above e = true)
    (h : ∀ a, Memory.find ((c, d) :: m) a = Memory.find ((e, f) :: m') a) : c = e ∧ d = f ∧ ∀ a, m.find a = m'.find a := by
  have hce : c = e := by
    rcases Nat.lt_trichotomy c e with h1 | h1 | h1
    · have h2 := h c
      have h3 : c ≠ e := by omega
      simp [Memory.find, h3, find_below hm' (Nat.le_of_lt h1)] at h2
    · exact h1
    · have h2 := h e
      have h3 : e ≠ c := by omega
      simp [Memory.find, h3, find_below hm (Nat.le_of_lt h1)] at h2
  subst hce
  refine ⟨rfl, by have := h c; simpa [Memory.find] using this, fun a => ?_⟩
  by_cases hac : a = c
  · subst hac
    rw [find_below hm (Nat.le_refl a), find_below hm' (Nat.le_refl a)]
  · have := h a
    simpa [Memory.find, hac] using this

theorem above_ext {m m' : Memory} {lo : Nat} (hm : m.above lo = true) (hm' : m'.above lo = true)
    (h : ∀ a, m.find a = m'.find a) : m = m' := by
  induction m generalizing m' lo with
  | nil =>
    cases m' with
    | nil => rfl
    | cons c m' => have := h c.1; simp [Memory.find] at this
  | cons c m ih =>
    obtain ⟨c, d⟩ := c
    cases m' with
    | nil => have := h c; simp [Memory.find] at this
    | cons e m' =>
      obtain ⟨e, f⟩ := e
      simp only [Memory.above, Bool.and_eq_true] at hm hm'
      obtain ⟨rfl, rfl, h3⟩ := cons_ext hm.2 hm'.2 h
      rw [ih hm.2 hm'.2 h3]

/-- The canonical form is canonical: equal contents are equal data. -/
theorem wf_ext {m m' : Memory} (hm : m.wf = true) (hm' : m'.wf = true) (h : ∀ a, m.find a = m'.find a) : m = m' := by
  cases m with
  | nil =>
    cases m' with
    | nil => rfl
    | cons c m' => have := h c.1; simp [Memory.find] at this
  | cons c m =>
    cases m' with
    | nil => have := h c.1; simp [Memory.find] at this
    | cons e m' =>
      obtain ⟨c, d⟩ := c
      obtain ⟨e, f⟩ := e
      obtain ⟨rfl, rfl, h3⟩ := cons_ext hm hm' h
      rw [above_ext hm hm' h3]

/-! ## Bytes of a state -/

theorem readByte_congr {s t : State} {sp : Space} (hm : s.mem sp = t.mem sp) (hl : s.launch = t.launch) (a : Nat) :
    s.readByte sp a = t.readByte sp a := by
  simp only [State.readByte, hm, hl]

theorem readByte_writeByte_same (s : State) (sp : Space) (a : Nat) (b : Byte) : (s.writeByte sp a b).readByte sp a = b := by
  simp [State.readByte, find_put_same]

theorem readByte_writeByte_other (s : State) {sp sp' : Space} {a a' : Nat} (b : Byte) (h : sp' ≠ sp ∨ a' ≠ a) :
    (s.writeByte sp a b).readByte sp' a' = s.readByte sp' a' := by
  by_cases hsp : sp' = sp
  · subst hsp
    have ha : a' ≠ a := by rcases h with h | h; exact absurd rfl h; exact h
    simp [State.readByte, find_put_other _ b ha]
  · exact readByte_congr (writeByte_mem_other s a b hsp) (by simp) a'

/-- Everything `MemWrite` does to a byte: the written bytes are those of `v`, every other byte is as it was (R34). -/
theorem readByte_memWrite (s : State) (sp sp' : Space) (addr : Nat) (v : Block) (n a : Nat) :
    (memWrite s sp addr v n).readByte sp' a =
      if sp' = sp ∧ addr ≤ a ∧ a < addr + n then byteAt v (a - addr) else s.readByte sp' a := by
  induction n with
  | zero =>
    have : ¬ (sp' = sp ∧ addr ≤ a ∧ a < addr + 0) := by omega
    rw [if_neg this]; rfl
  | succ n ih =>
    rw [memWrite]
    by_cases h : sp' = sp ∧ a = addr + n
    · obtain ⟨h1, h2⟩ := h
      subst h1 h2
      rw [readByte_writeByte_same, if_pos ⟨rfl, by omega, by omega⟩]
      congr 1
      omega
    · rw [readByte_writeByte_other _ _ (by by_cases h1 : sp' = sp <;> simp_all), ih]
      by_cases h1 : sp' = sp
      · have h2 : a ≠ addr + n := fun h2 => h ⟨h1, h2⟩
        have : (addr ≤ a ∧ a < addr + n) ↔ (addr ≤ a ∧ a < addr + (n + 1)) := by omega
        simp only [h1, true_and, this]
      · simp [h1]

theorem memWrite_wf (s : State) (sp sp' : Space) (addr : Nat) (v : Block) (n : Nat) (h : (s.mem sp').wf = true) :
    ((memWrite s sp addr v n).mem sp').wf = true := by
  induction n with
  | zero => exact h
  | succ n ih =>
    rw [memWrite]
    by_cases hsp : sp' = sp
    · subst hsp
      rw [writeByte_mem_same]
      exact put_wf _ _ _ ih
    · rw [writeByte_mem_other _ _ _ hsp]
      exact ih

theorem memWrite_within (s : State) (sp sp' : Space) (addr : Nat) (v : Block) (n cap : Nat)
    (hcap : sp' = sp → addr + n ≤ cap) (h : (s.mem sp').within cap = true) :
    ((memWrite s sp addr v n).mem sp').within cap = true := by
  induction n with
  | zero => exact h
  | succ n ih =>
    rw [memWrite]
    by_cases hsp : sp' = sp
    · have h2 := hcap hsp
      subst hsp
      rw [writeByte_mem_same]
      exact put_within _ _ _ _ (by omega) (ih (fun _ => by omega))
    · rw [writeByte_mem_other _ _ _ hsp]
      exact ih (fun h => absurd h hsp)

end Sys2Proof.Machine
end

