-- ==== Sys2Proof/Laws/Ops.lean ====
section
/-! SUPPORT. One lemma per shared operation: what it can answer, and every byte or block it produces. -/
namespace Sys2Proof.Machine
-- One theorem after another: each elaboration thread takes a stack of its own out of the memory allowed.
set_option Elab.async false

/-! ## Bytes of values -/

theorem getLsbD_byteAt {n : Nat} (v : BitVec n) (i k : Nat) : (byteAt v i).getLsbD k = (decide (k < 8) && v.getLsbD (8 * i + k)) := by
  simp [byteAt, BitVec.getLsbD_extractLsb']

/-- Two blocks with the same 16 bytes are equal. -/
theorem block_ext {a b : Block} (h : ∀ i, i < 16 → byteAt a i = byteAt b i) : a = b := by
  apply BitVec.eq_of_getLsbD_eq
  intro i hi
  have h1 : (byteAt a (i / 8)).getLsbD (i % 8) = (byteAt b (i / 8)).getLsbD (i % 8) := by
    rw [h (i / 8) (by omega)]
  simp only [getLsbD_byteAt, show i % 8 < 8 by omega, decide_true, Bool.true_and,
    show 8 * (i / 8) + i % 8 = i by omega] at h1
  exact h1

@[simp] theorem byteAt_xor {n : Nat} (a b : BitVec n) (i : Nat) : byteAt (a ^^^ b) i = byteAt a i ^^^ byteAt b i := by
  apply BitVec.eq_of_getLsbD_eq
  intro k hk
  simp only [getLsbD_byteAt, BitVec.getLsbD_xor, hk, decide_true, Bool.true_and]

theorem getLsbD_blockOf (f : Nat → Byte) (n k : Nat) (hn : n ≤ 16) :
    (blockOf f n).getLsbD k = (decide (k < 8 * n) && (f (k / 8)).getLsbD (k % 8)) := by
  induction n with
  | zero => simp [blockOf]
  | succ n ih =>
    rw [blockOf, BitVec.getLsbD_or, ih (by omega), BitVec.getLsbD_shiftLeft, BitVec.getLsbD_setWidth]
    by_cases h1 : k < 8 * n
    · have h2 : k < 8 * (n + 1) := by omega
      simp [h1, h2]
    · by_cases h2 : k < 8 * (n + 1)
      · have h3 : k / 8 = n := by omega
        have h4 : k % 8 = k - 8 * n := by omega
        have h5 : k < 128 := by omega
        have h6 : k - 8 * n < 128 := by omega
        simp [h1, h2, h3, h4, h5, h6]
      · have h3 : 8 ≤ k - 8 * n := by omega
        simp [h1, h2, BitVec.getLsbD_of_ge _ _ h3]

theorem byteAt_blockOf (f : Nat → Byte) (n i : Nat) (hn : n ≤ 16) : byteAt (blockOf f n) i = if i < n then f i else 0 := by
  apply BitVec.eq_of_getLsbD_eq
  intro k hk
  rw [getLsbD_byteAt, getLsbD_blockOf _ _ _ hn]
  have h1 : (8 * i + k) / 8 = i := by omega
  have h2 : (8 * i + k) % 8 = k := by omega
  by_cases h : i < n
  · have h3 : 8 * i + k < 8 * n := by omega
    simp [h, hk, h1, h2, h3]
  · have h3 : ¬ 8 * i + k < 8 * n := by omega
    simp [h, h3]

theorem byteAt_firstBytes (n : Nat) (v : Block) (i : Nat) (hn : n ≤ 16) :
    byteAt (firstBytes n v) i = if i < n then byteAt v i else 0 := by
  have hmask : ∀ j, ((1#128 <<< (8 * n)) - 1#128).getLsbD j = decide (j < 8 * n ∧ j < 128) := by
    intro j
    by_cases h16 : n = 16
    · subst h16
      have : (1#128 <<< (8 * 16)) - 1#128 = BitVec.allOnes 128 := by decide
      rw [this, BitVec.getLsbD_allOnes]
      by_cases h : j < 128 <;> simp [h]
    · have h1 : ((1#128 <<< (8 * n)) - 1#128).toNat = 2 ^ (8 * n) - 1 := by
        have h2 : 2 ^ (8 * n) < 2 ^ 128 := Nat.pow_lt_pow_right (by omega) (by omega)
        have h3 : 0 < 2 ^ (8 * n) := Nat.two_pow_pos _
        have h4 : (1#128 <<< (8 * n)).toNat = 2 ^ (8 * n) := by
          rw [BitVec.toNat_shiftLeft, Nat.shiftLeft_eq]
          show 1 * 2 ^ (8 * n) % 2 ^ 128 = 2 ^ (8 * n)
          rw [Nat.one_mul, Nat.mod_eq_of_lt h2]
        have h5 : 1#128 ≤ 1#128 <<< (8 * n) := by
          rw [BitVec.le_def, h4]; exact h3
        rw [BitVec.toNat_sub_of_le h5, h4]
        simp
      rw [BitVec.getLsbD, h1, Nat.testBit_two_pow_sub_one]
      simp
      omega
  apply BitVec.eq_of_getLsbD_eq
  intro k hk
  rw [getLsbD_byteAt, firstBytes, BitVec.getLsbD_and, hmask]
  by_cases h : i < n
  · have h3 : 8 * i + k < 8 * n ∧ 8 * i + k < 128 := by omega
    rw [if_pos h, getLsbD_byteAt]
    simp [hk, h3]
  · have h3 : ¬ (8 * i + k < 8 * n ∧ 8 * i + k < 128) := by omega
    simp only [h3, if_neg h]
    simp

theorem byteAt_zero {n : Nat} (i : Nat) : byteAt (0#n) i = 0#8 := by
  apply BitVec.eq_of_getLsbD_eq
  intro k hk
  simp [getLsbD_byteAt]

/-! ## Engine reads -/

/-- `MemRead` byte by byte (R34); zero above the bytes read. -/
theorem byteAt_memRead (s : State) (sp : Space) (addr n i : Nat) (hn : n ≤ 16) :
    byteAt (memRead s sp addr n) i = if i < n then s.readByte sp (addr + i) else 0 :=
  byteAt_blockOf _ _ _ hn

theorem validBytes_le (len : BitVec 64) (j : Nat) : validBytes len j ≤ 16 := Nat.min_le_left _ _

/-- `Blk` byte by byte (R35): the valid bytes from the buffer, the padding zero whatever the buffer holds. -/
theorem byteAt_blk (s : State) (sp : Space) (len : BitVec 64) (j i : Nat) (hi : i < 16) :
    byteAt (blk s sp len j) i = if 16 * j + i < len.toNat then s.readByte sp (16 * j + i) else 0 := by
  rw [blk, byteAt_memRead _ _ _ _ _ (validBytes_le len j)]
  have : i < validBytes len j ↔ 16 * j + i < len.toNat := by
    simp only [validBytes]; omega
  simp only [this]

/-- A block depends on the valid bytes of the buffer alone. -/
theorem blk_congr {s t : State} {sp sp' : Space} (len : BitVec 64) (j : Nat)
    (h : ∀ a, a < len.toNat → s.readByte sp a = t.readByte sp' a) : blk s sp len j = blk t sp' len j := by
  apply block_ext
  intro i hi
  rw [byteAt_blk _ _ _ _ _ hi, byteAt_blk _ _ _ _ _ hi]
  split
  · rename_i h1
    exact h _ h1
  · rfl

theorem blks_congr {s t : State} {sp sp' : Space} (len : BitVec 64) (j r : Nat)
    (h : ∀ a, a < len.toNat → s.readByte sp a = t.readByte sp' a) : blks s sp len j r = blks t sp' len j r := by
  induction r generalizing j with
  | zero => rfl
  | succ r ih => simp only [blks, blk_congr len j h, ih]

@[simp] theorem length_blks (s : State) (sp : Space) (len : BitVec 64) (j r : Nat) : (blks s sp len j r).length = r := by
  induction r generalizing j with
  | zero => rfl
  | succ r ih => simp [blks, ih]

theorem blks_append (s : State) (sp : Space) (len : BitVec 64) (j r q : Nat) :
    blks s sp len j (r + q) = blks s sp len j r ++ blks s sp len (j + r) q := by
  induction r generalizing j with
  | zero => simp [blks]
  | succ r ih =>
    have h1 : r + 1 + q = (r + q) + 1 := by omega
    have h2 : j + (r + 1) = j + 1 + r := by omega
    rw [h1, blks, ih, h2]
    rfl

/-! ## What the guarded operations can answer -/

theorem engineAccess_next {s t : State} {sp : Space} {top : Nat} {r : Result} :
    engineAccess s sp top r = .next t ↔ top ≤ s.capacity sp ∧ r = .next t := by
  unfold engineAccess
  split
  · rename_i h; simp [h]
  · rename_i h; simp [h]

theorem engineAccess_in {s : State} {sp : Space} {top : Nat} {r : Result} (h : top ≤ s.capacity sp) :
    engineAccess s sp top r = r := if_pos h

theorem engineAccess_no_fault {s : State} {sp : Space} {top : Nat} {t : State} {f : Fault} :
    engineAccess s sp top (.next t) ≠ .fault f := by
  unfold engineAccess
  split <;> simp

/-- A host write is dropped while busy, and is what it is otherwise (R36). -/
theorem unlessBusy_next {s t : State} {r : Result} :
    unlessBusy s r = .next t ↔ (s.status.busy = true ∧ t = s) ∨ (s.status.busy = false ∧ r = .next t) := by
  unfold unlessBusy
  cases s.status.busy <;> simp
  constructor <;> exact fun h => h.symm

/-- The acceptance of SEAL and OPEN either drops, or accepts inside the length precondition (R100, R110). -/
theorem launchCommand_next {s t : State} {o : BitVec 4} {a b : Bool} :
    launchCommand s o a b = .next t ↔
      (s.status.busy = true ∧ t = s) ∨ (s.status.busy = false ∧ lengthsLegal s = true ∧ t = accept s o a b .deriveH) := by
  rw [launchCommand, unlessBusy_next]
  cases lengthsLegal s <;> simp
  rw [eq_comm (a := t) (b := accept s o a b .deriveH)]

theorem launchCommand_refused {s : State} {o : BitVec 4} {a b : Bool} {r : Refusal} :
    launchCommand s o a b = .refused r ↔ s.status.busy = false ∧ lengthsLegal s = false ∧ r = .lengthPrecondition := by
  unfold launchCommand unlessBusy
  cases s.status.busy <;> cases lengthsLegal s <;> simp [eq_comm]

/-! ## The keystream batch (R104) -/

/-- The counter value `i` increments after `c`. -/
def ctrFrom (c : Config) (b : Block) : Nat → Block
  | 0 => b
  | i + 1 => ctrNext c (ctrFrom c b i)

theorem keystreamBatch_cb (s : State) (r : Nat) : (keystreamBatch s r).cb = ctrFrom s.cfg s.cb r := by
  induction r with
  | zero => rfl
  | succ r ih => simp [keystreamBatch, ctrFrom, ih]

/-- Everything `KeystreamBatch` does to `SCRATCH` (R104). -/
theorem keystreamBlock_batch (s : State) (r i : Nat) (hr : r ≤ 8) :
    keystreamBlock (keystreamBatch s r) i =
      if i < r then encKS s.cfg s.ks (ctrFrom s.cfg s.cb i) else keystreamBlock s i := by
  induction r with
  | zero => simp [keystreamBatch]
  | succ r ih =>
    have hstep : keystreamBlock (keystreamBatch s (r + 1)) i =
        if i = r then encKS s.cfg s.ks (ctrFrom s.cfg s.cb r) else keystreamBlock (keystreamBatch s r) i := by
      simp only [keystreamBlock, keystreamBatch, keystreamBatch_cfg, keystreamBatch_ks, keystreamBatch_cb,
        Vector.getElem?_setIfInBounds]
      by_cases h : r = i
      · subst h
        have : r < 8 := by omega
        simp [this]
      · have : ¬ i = r := fun h' => h h'.symm
        simp [h, this]
    rw [hstep, ih (by omega)]
    by_cases h : i = r
    · subst h; simp
    · by_cases h1 : i < r
      · have : i < r + 1 := by omega
        simp [h, h1, this]
      · have : ¬ i < r + 1 := by omega
        simp [h, h1, this]

/-! ## The table and the batch (R84, R85) -/

theorem tableEntry_set (ht : Vector Block 8) (n k : Nat) (b : Block) (hn : n < 8) :
    tableEntry (ht.setIfInBounds n b) k = if k = n then b else tableEntry ht k := by
  simp only [tableEntry, Vector.getElem?_setIfInBounds]
  by_cases h : n = k
  · subst h; simp [hn]
  · have : ¬ k = n := fun h' => h h'.symm
    simp [h, this]

/-- Everything the table building does: powers up to entry `n`, the rest as it was (R84). -/
theorem tableEntry_build (mul : Block → Block → Block) (h : Block) (ht : Vector Block 8) (n k : Nat) (hn : n < 8) :
    tableEntry (buildTableWith mul h n ht) k = if k ≤ n then power mul h k else tableEntry ht k := by
  induction n generalizing k with
  | zero =>
    simp only [buildTableWith, tableEntry_set _ _ _ _ hn, Nat.le_zero]
    by_cases hk : k = 0
    · subst hk; rfl
    · simp [hk]
  | succ n ih =>
    simp only [buildTableWith, tableEntry_set _ _ _ _ hn, ih _ (by omega : n < 8)]
    by_cases hk : k = n + 1
    · subst hk; simp [power]
    · by_cases hk2 : k ≤ n
      · have : k ≤ n + 1 := by omega
        simp [hk, hk2, this]
      · have : ¬ k ≤ n + 1 := by omega
        simp [hk, hk2, this]

theorem macAll_append (mul : Block → Block → Block) (h acc : Block) (xs ys : List Block) :
    macAll mul h acc (xs ++ ys) = macAll mul h (macAll mul h acc xs) ys := by
  induction xs generalizing acc with
  | nil => rfl
  | cons x xs ih => exact ih _

/-! ## Writing a batch of message blocks (R105, R113) -/

theorem xorBlocks_mem_other (s : State) (j r : Nat) {sp : Space} (h : sp ≠ .outBuf) : (xorBlocks s j r).mem sp = s.mem sp := by
  cases sp
  · exact xorBlocks_aadBuf s j r
  · exact xorBlocks_inBuf s j r
  · exact absurd rfl h

theorem readByte_xorBlocks_other (s : State) (j r : Nat) {sp : Space} (h : sp ≠ .outBuf) (a : Nat) :
    (xorBlocks s j r).readByte sp a = s.readByte sp a :=
  readByte_congr (xorBlocks_mem_other s j r h) (by simp) a

@[simp] theorem keystreamBlock_xorBlocks (s : State) (j r i : Nat) : keystreamBlock (xorBlocks s j r) i = keystreamBlock s i := by
  simp [keystreamBlock]

theorem xorBlock_xorBlocks (s : State) (j r k : Nat) (z : Block) : xorBlock (xorBlocks s j r) k z = xorBlock s k z := by
  have h : blk (xorBlocks s j r) .inBuf s.msgLen k = blk s .inBuf s.msgLen k :=
    blk_congr _ _ (fun a _ => readByte_xorBlocks_other s j r (by decide) a)
  simp only [xorBlock, xorBlocks_msgLen, h]

/-- A byte of the xored block: valid bytes only, zero above (R105, R113). -/
theorem byteAt_xorBlock (s : State) (j : Nat) (z : Block) (i : Nat) (hi : i < 16) :
    byteAt (xorBlock s j z) i =
      if 16 * j + i < s.msgLen.toNat then s.readByte .inBuf (16 * j + i) ^^^ byteAt z i else 0 := by
  rw [xorBlock, byteAt_firstBytes _ _ _ (validBytes_le _ _), byteAt_xor, byteAt_blk _ _ _ _ _ hi]
  have : i < validBytes s.msgLen j ↔ 16 * j + i < s.msgLen.toNat := by
    simp only [validBytes]; omega
  by_cases h : 16 * j + i < s.msgLen.toNat
  · simp [this, h]
  · simp [this, h]

/-- Everything a batch does to `OUT_BUF`: the valid bytes of its blocks, and no other byte (R105, R113). -/
theorem readByte_xorBlocks (s : State) (j r a : Nat) :
    (xorBlocks s j r).readByte .outBuf a =
      if 16 * j ≤ a ∧ a < min (16 * (j + r)) s.msgLen.toNat then
        s.readByte .inBuf a ^^^ byteAt (keystreamBlock s (a / 16 - j)) (a % 16)
      else s.readByte .outBuf a := by
  induction r with
  | zero =>
    have : ¬ (16 * j ≤ a ∧ a < min (16 * (j + 0)) s.msgLen.toNat) := by omega
    rw [if_neg this]; rfl
  | succ r ih =>
    simp only [xorBlocks, readByte_memWrite, true_and, xorBlocks_msgLen, keystreamBlock_xorBlocks, xorBlock_xorBlocks, ih]
    by_cases h : 16 * (j + r) ≤ a ∧ a < 16 * (j + r) + validBytes s.msgLen (j + r)
    · have hv : validBytes s.msgLen (j + r) ≤ s.msgLen.toNat - 16 * (j + r) := Nat.min_le_right _ _
      have hv2 := validBytes_le s.msgLen (j + r)
      have h2 : 16 * j ≤ a ∧ a < min (16 * (j + (r + 1))) s.msgLen.toNat := by omega
      rw [if_pos h, if_pos h2, byteAt_xorBlock _ _ _ _ (by omega)]
      have h3 : 16 * (j + r) + (a - 16 * (j + r)) = a := by omega
      have h4 : a - 16 * (j + r) = a % 16 := by omega
      have h5 : a / 16 - j = r := by omega
      rw [h3, h5, h4, if_pos (by omega)]
    · rw [if_neg h]
      have h2 : (16 * j ≤ a ∧ a < min (16 * (j + r)) s.msgLen.toNat) ↔
          (16 * j ≤ a ∧ a < min (16 * (j + (r + 1))) s.msgLen.toNat) := by
        have hv : validBytes s.msgLen (j + r) = min 16 (s.msgLen.toNat - 16 * (j + r)) := rfl
        omega
      simp only [h2]

theorem xorBlocks_wf (s : State) (j r : Nat) (sp : Space) (h : (s.mem sp).wf = true) : ((xorBlocks s j r).mem sp).wf = true := by
  induction r with
  | zero => exact h
  | succ r ih => exact memWrite_wf _ _ _ _ _ _ ih

theorem xorBlocks_within (s : State) (j r : Nat) (sp : Space) (cap : Nat) (hcap : topOffset s.msgLen (j + r) ≤ cap)
    (h : (s.mem sp).within cap = true) : ((xorBlocks s j r).mem sp).within cap = true := by
  induction r with
  | zero => exact h
  | succ r ih =>
    have h1 : topOffset s.msgLen (j + r) ≤ cap := by
      simp only [topOffset] at hcap ⊢; omega
    by_cases hv : validBytes (xorBlocks s j r).msgLen (j + r) = 0
    · simp only [xorBlocks, hv, memWrite]
      exact ih h1
    · refine memWrite_within _ _ _ _ _ _ _ (fun _ => ?_) (ih h1)
      simp only [xorBlocks_msgLen, validBytes, topOffset] at hv hcap ⊢
      omega

end Sys2Proof.Machine
end

