-- ==== Sys2Proof/Laws/Step.lean ====
section
/-! SUPPORT. What one step can do, said once: the rule an engine step runs in each phase, what each host operation can answer, what a
hash step can answer; and the lemmas of word fields, key halves and the comparison. -/
namespace Sys2Proof.Machine
-- One theorem after another: each elaboration thread takes a stack of its own out of the memory allowed.
set_option Elab.async false

/-! ## Words, halves, counts -/

theorem getLsbD_wordAt {n : Nat} (v : BitVec n) (i k : Nat) :
    (wordAt v i).getLsbD k = (decide (k < 32) && v.getLsbD (32 * i + k)) := by
  simp [wordAt, BitVec.getLsbD_extractLsb']

theorem getLsbD_putWord {n : Nat} (v : BitVec n) (i : Nat) (w : RegWord) (k : Nat) :
    (putWord v i w).getLsbD k =
      if 32 * i ≤ k ∧ k < 32 * i + 32 then decide (k < n) && w.getLsbD (k - 32 * i) else v.getLsbD k := by
  by_cases hk : k < n
  · simp only [putWord, BitVec.getLsbD_or, BitVec.getLsbD_and, BitVec.getLsbD_not, BitVec.getLsbD_shiftLeft,
      BitVec.getLsbD_setWidth, BitVec.getLsbD_allOnes, hk, decide_true, Bool.true_and]
    by_cases h1 : 32 * i ≤ k
    · have h1' : ¬ k < 32 * i := by omega
      by_cases h2 : k < 32 * i + 32
      · have h3 : k - 32 * i < 32 := by omega
        have h4 : k - 32 * i < n := by omega
        simp [h1, h2, h1', h3, h4]
      · have h3 : ¬ k - 32 * i < 32 := by omega
        have h4 : w.getLsbD (k - 32 * i) = false := BitVec.getLsbD_of_ge _ _ (by omega)
        simp [h1, h2, h1', h3, h4]
    · have h1' : k < 32 * i := by omega
      simp [h1, h1']
  · have h1 : (putWord v i w).getLsbD k = false := BitVec.getLsbD_of_ge _ _ (by omega)
    have h2 : v.getLsbD k = false := BitVec.getLsbD_of_ge _ _ (by omega)
    simp [h1, h2, hk]

/-- A written word reads back (R18, R19). -/
theorem wordAt_putWord_same {n : Nat} (v : BitVec n) (i : Nat) (w : RegWord) (hi : 32 * i + 32 ≤ n) :
    wordAt (putWord v i w) i = w := by
  apply BitVec.eq_of_getLsbD_eq
  intro k hk
  have h1 : 32 * i + k < n := by omega
  have h2 : 32 * i + k < 32 * i + 32 := by omega
  have h3 : 32 * i + k - 32 * i = k := by omega
  rw [getLsbD_wordAt, getLsbD_putWord, if_pos ⟨by omega, h2⟩, h3]
  simp only [hk, h1, decide_true, Bool.true_and]

/-- The other words of the register stay (R18, R19). -/
theorem wordAt_putWord_other {n : Nat} (v : BitVec n) {i j : Nat} (w : RegWord) (hij : j ≠ i) :
    wordAt (putWord v i w) j = wordAt v j := by
  apply BitVec.eq_of_getLsbD_eq
  intro k hk
  have h1 : ¬ (32 * i ≤ 32 * j + k ∧ 32 * j + k < 32 * i + 32) := by omega
  rw [getLsbD_wordAt, getLsbD_wordAt, getLsbD_putWord, if_neg h1]

theorem byteAt_append_high (a b : Block) (i : Nat) (hi : i < 16) : byteAt (a ++ b : Key) (16 + i) = byteAt a i := by
  apply BitVec.eq_of_getLsbD_eq
  intro k hk
  have h1 : ¬ 8 * (16 + i) + k < 128 := by omega
  have h2 : 8 * (16 + i) + k - 128 = 8 * i + k := by omega
  simp only [getLsbD_byteAt, BitVec.getLsbD_append, h1, h2, if_false]

theorem byteAt_append_low (a b : Block) (i : Nat) (hi : i < 16) : byteAt (a ++ b : Key) i = byteAt b i := by
  apply BitVec.eq_of_getLsbD_eq
  intro k hk
  have h1 : 8 * i + k < 128 := by omega
  simp only [getLsbD_byteAt, BitVec.getLsbD_append, h1, if_true]

theorem byteAt_lowHalf (k : Key) (i : Nat) (hi : i < 16) : byteAt (lowHalf k) i = byteAt k i := by
  apply BitVec.eq_of_getLsbD_eq
  intro j hj
  have h1 : 8 * i + j < 128 := by omega
  simp [getLsbD_byteAt, lowHalf, h1]

theorem byteAt_highHalf (k : Key) (i : Nat) (hi : i < 16) : byteAt (highHalf k) i = byteAt k (16 + i) := by
  apply BitVec.eq_of_getLsbD_eq
  intro j hj
  have h1 : 8 * i + j < 128 := by omega
  have h2 : 128 + (8 * i + j) = 8 * (16 + i) + j := by omega
  simp only [getLsbD_byteAt, highHalf, BitVec.getLsbD_extractLsb', h1, h2, decide_true, Bool.true_and]

theorem lowHalf_append (a b : Block) : lowHalf (a ++ b) = b := by
  apply BitVec.eq_of_getLsbD_eq
  intro i hi
  simp only [lowHalf, BitVec.getLsbD_extractLsb', BitVec.getLsbD_append, Nat.zero_add, hi, if_true, decide_true, Bool.true_and]

theorem highHalf_append (a b : Block) : highHalf (a ++ b) = a := by
  apply BitVec.eq_of_getLsbD_eq
  intro i hi
  have h1 : ¬ 128 + i < 128 := by omega
  have h2 : 128 + i - 128 = i := by omega
  simp only [highHalf, BitVec.getLsbD_extractLsb', BitVec.getLsbD_append, h1, h2, hi, if_false, decide_true, Bool.true_and]

/-- The number of blocks of a 64-bit length leaves room for any batch in `BLK`. -/
theorem nblk_le (len : BitVec 64) : nblk len ≤ 2 ^ 61 := by
  unfold nblk; omega

/-- `BLK` advances without wrapping. -/
theorem blk_advance (b : BitVec 64) {r n : Nat} (hn : n ≤ 2 ^ 61) (h : b.toNat + r ≤ n) :
    (b + BitVec.ofNat 64 r).toNat = b.toNat + r := by
  rw [BitVec.toNat_add, BitVec.toNat_ofNat]; omega

theorem map_range_blk (s : State) (sp : Space) (len : BitVec 64) (j r : Nat) :
    ((List.range r).map fun i => blk s sp len (j + i)) = blks s sp len j r := by
  induction r generalizing j with
  | zero => rfl
  | succ r ih =>
    rw [List.range_succ_eq_map, List.map_cons, List.map_map, blks, ← ih]
    congr 1
    apply List.map_congr_left
    intro i _
    show blk s sp len (j + (i + 1)) = blk s sp len (j + 1 + i)
    congr 1; omega

/-- Bit `k` of the accumulated difference (R120). -/
theorem getLsbD_tagDiff (a b : Block) (n k : Nat) :
    (tagDiff a b n).getLsbD k = true ↔ ∃ i, i < n ∧ (byteAt a i).getLsbD k ≠ (byteAt b i).getLsbD k := by
  induction n with
  | zero => simp [tagDiff]
  | succ n ih =>
    simp only [tagDiff, BitVec.getLsbD_or, BitVec.getLsbD_xor, Bool.or_eq_true, ih]
    constructor
    · rintro (⟨i, hi, h⟩ | h)
      · exact ⟨i, by omega, h⟩
      · exact ⟨n, by omega, by simpa using h⟩
    · rintro ⟨i, hi, h⟩
      by_cases hin : i = n
      · subst hin; exact .inr (by simpa using h)
      · exact .inl ⟨i, by omega, h⟩

/-! ## Engine steps -/

/-- The rule each phase runs (R45, R46). -/
theorem engineStep_eq (s : State) :
    engineStep s =
      match s.phase with
      | .idle => execIdle s
      | .deriveH => execDeriveH s
      | .deriveK1 => execDeriveK1 s
      | .deriveK2 => execDeriveK2 s
      | .htBuild => execHtBuild s
      | .hashAad => execHashAad s
      | .hashMsg => execHashMsg s
      | .hashLen => execHashLen s
      | .final => execFinal s
      | .tagEnc => if s.opc = 1 then execTagEncSeal s else if s.opc = 2 then execTagEncOpen s else .fault .noRuleForPhase
      | .ctrEnc => execCtrEnc s
      | .ksRek => execKsRek s
      | .decHash => execDecHash s
      | .tagCmp => execTagCmp s
      | .copyback => execCopyback s
      | .wipe => execWipe s
      | .clear => execClear s := by
  unfold engineStep State.nextCode decode
  cases hp : s.phase
  case tagEnc =>
    show (match decodeTagEnc s.opc with | .ok i => exec i s | .error _ => .fault .noRuleForPhase) = _
    unfold decodeTagEnc
    by_cases h1 : s.opc = 1
    · simp only [h1, if_true]; rfl
    · by_cases h2 : s.opc = 2
      · simp only [h2, if_true]; rfl
      · simp only [h1, h2, if_false]
  all_goals rfl

theorem engineStep_idle {s : State} (h : s.phase = .idle) : engineStep s = execIdle s := by rw [engineStep_eq, h]
theorem engineStep_deriveH {s : State} (h : s.phase = .deriveH) : engineStep s = execDeriveH s := by rw [engineStep_eq, h]
theorem engineStep_deriveK1 {s : State} (h : s.phase = .deriveK1) : engineStep s = execDeriveK1 s := by rw [engineStep_eq, h]
theorem engineStep_deriveK2 {s : State} (h : s.phase = .deriveK2) : engineStep s = execDeriveK2 s := by rw [engineStep_eq, h]
theorem engineStep_htBuild {s : State} (h : s.phase = .htBuild) : engineStep s = execHtBuild s := by rw [engineStep_eq, h]
theorem engineStep_hashAad {s : State} (h : s.phase = .hashAad) : engineStep s = execHashAad s := by rw [engineStep_eq, h]
theorem engineStep_hashMsg {s : State} (h : s.phase = .hashMsg) : engineStep s = execHashMsg s := by rw [engineStep_eq, h]
theorem engineStep_hashLen {s : State} (h : s.phase = .hashLen) : engineStep s = execHashLen s := by rw [engineStep_eq, h]
theorem engineStep_final {s : State} (h : s.phase = .final) : engineStep s = execFinal s := by rw [engineStep_eq, h]
theorem engineStep_ctrEnc {s : State} (h : s.phase = .ctrEnc) : engineStep s = execCtrEnc s := by rw [engineStep_eq, h]
theorem engineStep_ksRek {s : State} (h : s.phase = .ksRek) : engineStep s = execKsRek s := by rw [engineStep_eq, h]
theorem engineStep_decHash {s : State} (h : s.phase = .decHash) : engineStep s = execDecHash s := by rw [engineStep_eq, h]
theorem engineStep_tagCmp {s : State} (h : s.phase = .tagCmp) : engineStep s = execTagCmp s := by rw [engineStep_eq, h]
theorem engineStep_copyback {s : State} (h : s.phase = .copyback) : engineStep s = execCopyback s := by rw [engineStep_eq, h]
theorem engineStep_wipe {s : State} (h : s.phase = .wipe) : engineStep s = execWipe s := by rw [engineStep_eq, h]
theorem engineStep_clear {s : State} (h : s.phase = .clear) : engineStep s = execClear s := by rw [engineStep_eq, h]
theorem engineStep_tagEncSeal {s : State} (h : s.phase = .tagEnc) (ho : s.opc = 1) : engineStep s = execTagEncSeal s := by
  rw [engineStep_eq, h, ho]; rfl
theorem engineStep_tagEncOpen {s : State} (h : s.phase = .tagEnc) (ho : s.opc = 2) : engineStep s = execTagEncOpen s := by
  rw [engineStep_eq, h, ho]; rfl

/-- Everything a step of a hash pass can answer (R83, R86). -/
theorem hashPass_next {s t : State} {sp : Space} {len : BitVec 64} {exit : Phase} :
    hashPass s sp len exit = .next t ↔
      (nblk len ≤ s.blk.toNat ∧ t = { s with blk := 0, phase := exit }) ∨
      (s.blk.toNat < nblk len ∧ s.status.stratTable = true ∧
        topOffset len (s.blk.toNat + batchSize Config.htEntries (nblk len) s.blk.toNat) ≤ s.capacity sp ∧
        t = { s with
          acc := batchAbsorb s (blks s sp len s.blk.toNat (batchSize Config.htEntries (nblk len) s.blk.toNat))
          blk := s.blk + BitVec.ofNat 64 (batchSize Config.htEntries (nblk len) s.blk.toNat) }) ∨
      (s.blk.toNat < nblk len ∧ s.status.stratTable = false ∧ topOffset len (s.blk.toNat + 1) ≤ s.capacity sp ∧
        t = { s with acc := mac s (blk s sp len s.blk.toNat), blk := s.blk + 1 }) := by
  unfold hashPass
  by_cases h : s.blk.toNat < nblk len
  · have h' : ¬ nblk len ≤ s.blk.toNat := by omega
    cases hs : s.status.stratTable <;>
      simp [h, h', engineAccess_next, eq_comm (b := t)]
  · have h' : nblk len ≤ s.blk.toNat := by omega
    simp [h, h', eq_comm (b := t)]

/-! ## Steps of every kind -/

/-- A step is an engine step when no input is pending, else the next input (R50). -/
theorem step_next {s t : State} :
    step s = .next t ↔
      (s.inputs = [] ∧ engineStep s = .next t) ∨
      ∃ i rest, s.inputs = i :: rest ∧ applyInput { s with inputs := rest } i = .next t := by
  unfold step nextMove
  cases s.inputs with
  | nil => simp
  | cons i rest =>
    constructor
    · intro h; exact .inr ⟨i, rest, rfl, h⟩
    · rintro (⟨h, _⟩ | ⟨j, r, h, h'⟩)
      · cases h
      · cases h; exact h'

/-- Everything a register write can answer with a next state (R31, R36, R44). -/
theorem regWrite_next {s t : State} {w : BitVec 6} {v : RegWord} :
    regWrite s w v = .next t ↔
      (s.status.busy = true ∧ t = s) ∨
      (s.status.busy = false ∧ w = 0 ∧ commandAttempt s v = .next t) ∨
      (s.status.busy = false ∧ w ≠ 0 ∧ t = storeWord s w v) := by
  rw [regWrite, unlessBusy_next]
  by_cases h : w = 0
  · subst h; simp
  · rw [if_neg h]; simp only [Host.Outcome.next.injEq, h, false_and, and_false, false_or, ne_eq, not_false_eq_true, true_and, eq_comm (a := t)]

/-- Everything a buffer write can answer; it always has a next state (R33, R36). -/
theorem bufWrite_next {s t : State} {sp : Space} {a : BitVec 37} {b : Byte} :
    bufWrite s sp a b = .next t ↔
      (s.status.busy = true ∧ t = s) ∨
      (s.status.busy = false ∧ s.capacity sp ≤ a.toNat ∧ t = s) ∨
      (s.status.busy = false ∧ a.toNat < s.capacity sp ∧ t = s.writeByte sp a.toNat b) := by
  rw [bufWrite, unlessBusy_next]
  by_cases h : s.capacity sp ≤ a.toNat
  · have h' : ¬ a.toNat < s.capacity sp := by omega
    simp [h, h', eq_comm (b := t)]
  · have h' : a.toNat < s.capacity sp := by omega
    simp [h, h', eq_comm (b := t)]

/-- The first of several steps, for any machine. -/
theorem run_next {M : Host.Core} {s t : M.State} (k : Nat) (h : M.step s = .next t) : M.run (k + 1) s = M.run k t := by
  simp only [Host.Core.run, h]

/-- The first of several steps of this machine. -/
theorem run_succ {s t : State} (k : Nat) (h : step s = .next t) : Host.Core.run core (k + 1) s = Host.Core.run core k t :=
  run_next k h

/-- Steps one after another, for any machine. -/
theorem run_add {M : Host.Core} {s t : M.State} (j k : Nat) (h : M.run j s = .next t) : M.run (j + k) s = M.run k t := by
  induction j generalizing s with
  | zero => simp only [Host.Core.run, Host.Outcome.next.injEq] at h; subst h; rw [Nat.zero_add]
  | succ j ih =>
    rw [show j + 1 + k = (j + k) + 1 by omega]
    cases hs : M.step s with
    | next u =>
      rw [run_next _ hs] at h ⊢
      exact ih h
    | fault r => simp only [Host.Core.run, hs] at h; cases h
    | refused r => simp only [Host.Core.run, hs] at h; cases h

end Sys2Proof.Machine
end

