-- ==== Sys2Proof/Laws/Passes.lean ====
section
/-! SUPPORT. Runs of several engine steps: how they compose, and what a whole pass of each looping phase computes (42_polyval.md R83,
R86; 43_seal.md R105; 44_open.md R113). -/
namespace Sys2Proof.Machine
-- One theorem after another: each elaboration thread takes a stack of its own out of the memory allowed.
set_option Elab.async false

/-- After `k` steps from `s` the machine is at `t`, and at every step before that it was busy outside `IDLE`. -/
def Runs (k : Nat) (s t : State) : Prop :=
  Host.Core.run core k s = .next t ∧
    ∀ j, j < k → ∃ u : State, Host.Core.run core j s = .next u ∧ u.phase ≠ .idle ∧ u.status.busy = true

theorem Runs.refl (s : State) : Runs 0 s s := ⟨by simp only [Host.Core.run], fun _ h => absurd h (Nat.not_lt_zero _)⟩

theorem Runs.cons {k : Nat} {s t u : State} (h : step s = .next t) (hp : s.phase ≠ .idle) (hb : s.status.busy = true)
    (r : Runs k t u) : Runs (k + 1) s u := by
  refine ⟨(run_succ k h).trans r.1, fun j hj => ?_⟩
  cases j with
  | zero => exact ⟨s, by simp only [Host.Core.run], hp, hb⟩
  | succ j =>
    obtain ⟨v, hv, h'⟩ := r.2 j (by omega)
    exact ⟨v, (run_succ j h).trans hv, h'⟩

theorem Runs.trans {j k : Nat} {s t u : State} (a : Runs j s t) (b : Runs k t u) : Runs (j + k) s u := by
  refine ⟨(run_add j k a.1).trans b.1, fun i hi => ?_⟩
  by_cases h : i < j
  · exact a.2 i h
  · obtain ⟨v, hv, h'⟩ := b.2 (i - j) (by omega)
    refine ⟨v, ?_, h'⟩
    have := (run_add j (i - j) a.1).trans hv
    rwa [show j + (i - j) = i by omega] at this

/-- One engine step of a busy machine with no input pending. -/
theorem Runs.one {s t : State} (hi : s.inputs = []) (hp : s.phase ≠ .idle) (hb : s.status.busy = true) (h : engineStep s = .next t) :
    Runs 1 s t :=
  Runs.cons (step_next.2 (.inl ⟨hi, h⟩)) hp hb (Runs.refl t)

/-! ## The hash passes -/

theorem blks_length (s : State) (sp : Space) (len : BitVec 64) (j r : Nat) : (blks s sp len j r).length = r := by
  induction r generalizing j with
  | zero => rfl
  | succ r ih => rw [blks, List.length_cons, ih]

/-- A whole pass in sequential mode: one step per block, and the exit step (R83, R86, R108). -/
theorem hashPass_runs_sequential {s : State} {sp : Space} {len : BitVec 64} {exit : Phase}
    (hstep : ∀ acc b, engineStep { s with acc := acc, blk := b } = hashPass { s with acc := acc, blk := b } sp len exit)
    (hi : s.inputs = []) (hp : s.phase ≠ .idle) (hb : s.status.busy = true) (hs : s.status.stratTable = false)
    (hc : len.toNat ≤ s.capacity sp) (d : Nat) (acc : Block) (b : BitVec 64) (hd : b.toNat + d = nblk len) :
    Runs (d + 1) { s with acc := acc, blk := b }
      { s with acc := macAll (dot s.cfg) s.h acc (blks s sp len b.toNat d), blk := 0, phase := exit } := by
  induction d generalizing acc b with
  | zero =>
    refine Runs.one hi hp hb ((hstep acc b).trans (hashPass_next.2 (.inl ⟨?_, rfl⟩)))
    show nblk len ≤ b.toNat
    omega
  | succ d ih =>
    have h1 : (b + 1).toNat = b.toNat + 1 := blk_advance b (r := 1) (nblk_le len) (by omega)
    have h2 := ih (dot s.cfg (acc ^^^ blk s sp len b.toNat) s.h) (b + 1) (by omega)
    rw [h1] at h2
    refine Runs.cons (step_next.2 (.inl ⟨hi, (hstep acc b).trans (hashPass_next.2 (.inr (.inr ⟨?_, hs, ?_, rfl⟩)))⟩)) hp hb h2
    · show b.toNat < nblk len
      omega
    · exact Nat.le_trans (Nat.min_le_right _ _) hc

/-- What lets a batch stand for the sequential rule (R90): on up to eight blocks it gives the same accumulator. -/
def State.BatchIsSequential (s : State) : Prop :=
  ∀ acc xs, xs.length ≤ 8 → batchAbsorbWith (dot s.cfg) s.htable acc xs = macAll (dot s.cfg) s.h acc xs

/-- A whole pass in batch mode: one step per batch of up to eight blocks, and the exit step. Where a batch does what the sequential rule
does (R90), the accumulator is the sequential one. -/
theorem hashPass_runs_batch {s : State} {sp : Space} {len : BitVec 64} {exit : Phase}
    (hstep : ∀ acc b, engineStep { s with acc := acc, blk := b } = hashPass { s with acc := acc, blk := b } sp len exit)
    (hi : s.inputs = []) (hp : s.phase ≠ .idle) (hb : s.status.busy = true) (hs : s.status.stratTable = true)
    (hc : len.toNat ≤ s.capacity sp) (d : Nat) (acc : Block) (b : BitVec 64) (hd : b.toNat + d = nblk len) :
    ∃ acc', Runs ((d + 7) / 8 + 1) { s with acc := acc, blk := b } { s with acc := acc', blk := 0, phase := exit } ∧
      (s.BatchIsSequential → acc' = macAll (dot s.cfg) s.h acc (blks s sp len b.toNat d)) := by
  induction d using Nat.strongRecOn generalizing acc b with
  | ind d ih =>
    by_cases h0 : d = 0
    · subst h0
      refine ⟨acc, Runs.one hi hp hb ((hstep acc b).trans (hashPass_next.2 (.inl ⟨?_, rfl⟩))), fun _ => rfl⟩
      show nblk len ≤ b.toNat
      omega
    · have hr : batchSize Config.htEntries (nblk len) b.toNat = min 8 d := by
        simp only [batchSize, Config.htEntries]; omega
      have h1 : (b + BitVec.ofNat 64 (min 8 d)).toNat = b.toNat + min 8 d := blk_advance b (nblk_le len) (by omega)
      obtain ⟨acc', h2, h3⟩ := ih (d - min 8 d) (by omega)
        (batchAbsorb { s with acc := acc, blk := b } (blks s sp len b.toNat (min 8 d))) (b + BitVec.ofNat 64 (min 8 d)) (by omega)
      refine ⟨acc', ?_, fun hq => ?_⟩
      · rw [show (d + 7) / 8 + 1 = ((d - min 8 d + 7) / 8 + 1) + 1 by omega]
        refine Runs.cons (step_next.2 (.inl ⟨hi, (hstep acc b).trans (hashPass_next.2 (.inr (.inl ⟨?_, hs, ?_, ?_⟩)))⟩)) hp hb h2
        · show b.toNat < nblk len
          omega
        · exact Nat.le_trans (Nat.min_le_right _ _) hc
        · have hx : blks { s with acc := acc, blk := b } sp len b.toNat (batchSize Config.htEntries (nblk len) b.toNat) =
              blks s sp len b.toNat (min 8 d) := by
            rw [hr]; exact blks_congr _ _ _ (fun _ _ => rfl)
          rw [hx, hr]
      · have hy : batchAbsorb { s with acc := acc, blk := b } (blks s sp len b.toNat (min 8 d)) =
            macAll (dot s.cfg) s.h acc (blks s sp len b.toNat (min 8 d)) :=
          hq _ _ (by rw [blks_length]; omega)
        rw [h3 hq, hy, h1, ← macAll_append, ← blks_append, show min 8 d + (d - min 8 d) = d by omega]

/-- A whole hash pass from block 0 under either strategy (R83, R86, R108). -/
theorem hashPass_runs {s : State} {sp : Space} {len : BitVec 64} {exit : Phase}
    (hstep : ∀ acc b, engineStep { s with acc := acc, blk := b } = hashPass { s with acc := acc, blk := b } sp len exit)
    (hi : s.inputs = []) (hp : s.phase ≠ .idle) (hb : s.status.busy = true) (hc : len.toNat ≤ s.capacity sp) (h0 : s.blk = 0) :
    ∃ acc', Runs (hashSteps s.status.stratTable (nblk len)) s { s with acc := acc', blk := 0, phase := exit } ∧
      ((s.status.stratTable = true → s.BatchIsSequential) →
        acc' = macAll (dot s.cfg) s.h s.acc (blks s sp len 0 (nblk len))) := by
  have hz : s.blk.toNat = 0 := by rw [h0]; rfl
  cases hs : s.status.stratTable with
  | false =>
    have h := hashPass_runs_sequential hstep hi hp hb hs hc (nblk len) s.acc s.blk (by omega)
    rw [hz] at h
    exact ⟨_, h, fun _ => rfl⟩
  | true =>
    obtain ⟨acc', h, h'⟩ := hashPass_runs_batch hstep hi hp hb hs hc (nblk len) s.acc s.blk (by omega)
    rw [hz] at h'
    exact ⟨acc', h, fun hq => h' (hq rfl)⟩

/-! ## The counter-mode passes -/

theorem ctrFrom_add (c : Config) (b : Block) (i j : Nat) : ctrFrom c (ctrFrom c b i) j = ctrFrom c b (i + j) := by
  induction j with
  | zero => rfl
  | succ j ih => rw [ctrFrom, ih]; rfl

/-- A batch changes `OUT_BUF`, `SCRATCH` and `CB`, and nothing else. -/
theorem batch_frame (s : State) (j r : Nat) :
    xorBlocks (keystreamBatch s r) j r =
      { s with
        outBuf := (xorBlocks (keystreamBatch s r) j r).outBuf
        scratch := (keystreamBatch s r).scratch
        cb := ctrFrom s.cfg s.cb r } := by
  apply state_ext <;> simp [keystreamBatch_cb]

/-- The bytes of `OUT_BUF` after a batch of at most eight blocks (R105, R113). -/
theorem readByte_batch (s : State) (j r a : Nat) (hr : r ≤ 8) :
    (xorBlocks (keystreamBatch s r) j r).readByte .outBuf a =
      if 16 * j ≤ a ∧ a < min (16 * (j + r)) s.msgLen.toNat then
        s.readByte .inBuf a ^^^ byteAt (encKS s.cfg s.ks (ctrFrom s.cfg s.cb (a / 16 - j))) (a % 16)
      else s.readByte .outBuf a := by
  have h1 : (keystreamBatch s r).readByte .inBuf a = s.readByte .inBuf a := readByte_congr (by simp) (by simp) a
  have h2 : (keystreamBatch s r).readByte .outBuf a = s.readByte .outBuf a := readByte_congr (by simp) (by simp) a
  rw [readByte_xorBlocks, h1, h2, keystreamBatch_msgLen]
  by_cases h : 16 * j ≤ a ∧ a < min (16 * (j + r)) s.msgLen.toNat
  · rw [if_pos h, if_pos h, keystreamBlock_batch _ _ _ hr, if_pos (by omega)]
  · rw [if_neg h, if_neg h]

/-- A whole pass of `CTR_ENC`: one step per batch, and the exit step (R105, R108). -/
theorem ctrEnc_runs (d : Nat) (s : State) (hp : s.phase = .ctrEnc) (hi : s.inputs = []) (hb : s.status.busy = true)
    (hc : s.msgLen.toNat ≤ s.cfg.msgCap) (hd : s.blk.toNat + d = nblk s.msgLen) :
    ∃ t, Runs ((d + batchWidth s - 1) / batchWidth s + 1) s t ∧
      t = { s with outBuf := t.outBuf, scratch := t.scratch, cb := t.cb, blk := 0, phase := .wipe } ∧
      (∀ a, t.readByte .outBuf a =
        if 16 * s.blk.toNat ≤ a ∧ a < s.msgLen.toNat then
          s.readByte .inBuf a ^^^ byteAt (encKS s.cfg s.ks (ctrFrom s.cfg s.cb (a / 16 - s.blk.toNat))) (a % 16)
        else s.readByte .outBuf a) ∧
      (d = 0 → t.scratch = s.scratch) := by
  have hw : batchWidth s = 4 ∨ batchWidth s = 8 := by unfold batchWidth; cases s.status.ways8 <;> simp
  have hn : s.msgLen.toNat ≤ 16 * nblk s.msgLen := by unfold nblk; omega
  induction d using Nat.strongRecOn generalizing s with
  | ind d ih =>
    have he : engineStep s = execCtrEnc s := by rw [engineStep_eq, hp]
    by_cases h0 : d = 0
    · subst h0
      have hx : ¬ s.blk.toNat < nblk s.msgLen := by omega
      refine ⟨{ s with blk := 0, phase := .wipe }, ?_, rfl, fun a => ?_, fun _ => rfl⟩
      · rw [show (0 + batchWidth s - 1) / batchWidth s = 0 by rcases hw with h | h <;> simp [h]]
        refine Runs.one hi (by simp [hp]) hb ?_
        rw [he, execCtrEnc]; simp only [hx, if_false]
      · rw [if_neg (by omega)]; rfl
    · have hx : s.blk.toNat < nblk s.msgLen := by omega
      have hr : batchSize (batchWidth s) (nblk s.msgLen) s.blk.toNat = min (batchWidth s) d := by simp only [batchSize]; omega
      have hr8 : min (batchWidth s) d ≤ 8 := by omega
      have h1 : (s.blk + BitVec.ofNat 64 (min (batchWidth s) d)).toNat = s.blk.toNat + min (batchWidth s) d :=
        blk_advance _ (nblk_le s.msgLen) (by omega)
      have hstep : step s = .next { xorBlocks (keystreamBatch s (min (batchWidth s) d)) s.blk.toNat (min (batchWidth s) d) with
          blk := s.blk + BitVec.ofNat 64 (min (batchWidth s) d) } := by
        refine step_next.2 (.inl ⟨hi, ?_⟩)
        rw [he, execCtrEnc]
        simp only [hx, if_true, hr]
        exact engineAccess_in (Nat.le_trans (Nat.min_le_right _ _) hc)
      rw [batch_frame] at hstep
      have hread : ∀ a, { s with outBuf := (xorBlocks (keystreamBatch s (min (batchWidth s) d)) s.blk.toNat
          (min (batchWidth s) d)).outBuf }.readByte .outBuf a =
            (xorBlocks (keystreamBatch s (min (batchWidth s) d)) s.blk.toNat (min (batchWidth s) d)).readByte .outBuf a :=
        fun a => by
          refine readByte_congr ?_ ?_ a
          · rfl
          · simp
      simp only [readByte_batch s s.blk.toNat (min (batchWidth s) d) _ hr8] at hread
      generalize (xorBlocks (keystreamBatch s (min (batchWidth s) d)) s.blk.toNat (min (batchWidth s) d)).outBuf = ob at hstep hread
      generalize (keystreamBatch s (min (batchWidth s) d)).scratch = sc at hstep
      obtain ⟨t, ht1, ht2, ht3, -⟩ := ih (d - min (batchWidth s) d) (by omega)
        { s with
          outBuf := ob, scratch := sc, cb := ctrFrom s.cfg s.cb (min (batchWidth s) d),
          blk := s.blk + BitVec.ofNat 64 (min (batchWidth s) d) } hp hi hb hc
        (by show (s.blk + BitVec.ofNat 64 (min (batchWidth s) d)).toNat + _ = nblk s.msgLen; omega) hw hn
      refine ⟨t, ?_, ht2, fun a => ?_, fun h => absurd h h0⟩
      · have hk : (d + batchWidth s - 1) / batchWidth s = (d - min (batchWidth s) d + batchWidth s - 1) / batchWidth s + 1 := by
          rcases hw with h | h <;> rw [h] <;> omega
        rw [hk]
        exact Runs.cons hstep (by simp [hp]) hb ht1
      · have h3 := ht3 a
        simp only [h1] at h3
        rw [h3]
        by_cases c1 : 16 * (s.blk.toNat + min (batchWidth s) d) ≤ a ∧ a < s.msgLen.toNat
        · rw [if_pos c1, if_pos ⟨by omega, c1.2⟩, ctrFrom_add,
            show min (batchWidth s) d + (a / 16 - (s.blk.toNat + min (batchWidth s) d)) = a / 16 - s.blk.toNat by omega]
          rfl
        · rw [if_neg c1]
          refine Eq.trans ?_ ((hread a).trans ?_)
          · rfl
          by_cases c2 : 16 * s.blk.toNat ≤ a ∧ a < s.msgLen.toNat
          · rw [if_pos c2, if_pos ⟨c2.1, by omega⟩]
          · rw [if_neg c2, if_neg (by omega)]

theorem xorBlock_congr {s t : State} (hl : s.msgLen = t.msgLen)
    (h : ∀ a, a < s.msgLen.toNat → s.readByte .inBuf a = t.readByte .inBuf a) (j : Nat) (z : Block) :
    xorBlock s j z = xorBlock t j z := by
  unfold xorBlock
  rw [← hl, blk_congr s.msgLen j h]

theorem plainBlocks_eq (s : State) (j r i : Nat) :
    plainBlocks s j r i = (List.range r).map fun k => xorBlock s (j + (i + k)) (keystreamBlock s (i + k)) := by
  induction r generalizing i with
  | zero => rfl
  | succ r ih =>
    rw [plainBlocks, ih, List.range_succ_eq_map, List.map_cons, List.map_map]
    congr 1
    apply List.map_congr_left
    intro k _
    show xorBlock s (j + (i + 1 + k)) (keystreamBlock s (i + 1 + k)) = xorBlock s (j + (i + (k + 1))) (keystreamBlock s (i + (k + 1)))
    rw [show i + 1 + k = i + (k + 1) by omega]

/-- The blocks `j .. j + d - 1` an OPEN recovers when its counter stands at `cb` (R113). -/
def recoveredFrom (s : State) (cb : Block) (j d : Nat) : List Block :=
  (List.range d).map fun i => xorBlock s (j + i) (encKS s.cfg s.ks (ctrFrom s.cfg cb i))

theorem recoveredFrom_append (s : State) (cb : Block) (j r q : Nat) :
    recoveredFrom s cb j (r + q) = recoveredFrom s cb j r ++ recoveredFrom s (ctrFrom s.cfg cb r) (j + r) q := by
  unfold recoveredFrom
  rw [List.range_add, List.map_append, List.map_map]
  congr 1
  apply List.map_congr_left
  intro i _
  show xorBlock s (j + (r + i)) (encKS s.cfg s.ks (ctrFrom s.cfg cb (r + i))) = _
  rw [ctrFrom_add, Nat.add_assoc]

/-- What a batch of `DEC_HASH` absorbs (R113). -/
theorem plainBlocks_batch (s : State) (j r : Nat) (hr : r ≤ 8) :
    plainBlocks (keystreamBatch s r) j r 0 = recoveredFrom s s.cb j r := by
  rw [plainBlocks_eq]
  apply List.map_congr_left
  intro k hk
  have hk : k < r := List.mem_range.1 hk
  rw [Nat.zero_add, keystreamBlock_batch _ _ _ hr, if_pos hk]
  refine xorBlock_congr (keystreamBatch_msgLen s r) (fun a _ => ?_) _ _
  refine readByte_congr ?_ ?_ a
  · simp
  · simp

/-- A whole pass of `DEC_HASH`: one step per batch of up to eight blocks, and the exit step. Where a batch does what the sequential rule
does (R90), the accumulator has absorbed the recovered blocks one after another (R113, R115). -/
theorem decHash_runs (d : Nat) (s : State) (hp : s.phase = .decHash) (hi : s.inputs = []) (hb : s.status.busy = true)
    (hc : s.msgLen.toNat ≤ s.cfg.msgCap) (hd : s.blk.toNat + d = nblk s.msgLen) :
    ∃ t, Runs ((d + 7) / 8 + 1) s t ∧
      t = { s with outBuf := t.outBuf, scratch := t.scratch, cb := t.cb, blk := 0, phase := .hashLen, acc := t.acc } ∧
      (s.BatchIsSequential → t.acc = macAll (dot s.cfg) s.h s.acc (recoveredFrom s s.cb s.blk.toNat d)) ∧
      ∀ a, t.readByte .outBuf a =
        if 16 * s.blk.toNat ≤ a ∧ a < s.msgLen.toNat then
          s.readByte .inBuf a ^^^ byteAt (encKS s.cfg s.ks (ctrFrom s.cfg s.cb (a / 16 - s.blk.toNat))) (a % 16)
        else s.readByte .outBuf a := by
  have hn : s.msgLen.toNat ≤ 16 * nblk s.msgLen := by unfold nblk; omega
  induction d using Nat.strongRecOn generalizing s with
  | ind d ih =>
    have he : engineStep s = execDecHash s := by rw [engineStep_eq, hp]
    by_cases h0 : d = 0
    · subst h0
      have hx : ¬ s.blk.toNat < nblk s.msgLen := by omega
      refine ⟨{ s with blk := 0, phase := .hashLen }, ?_, rfl, fun _ => rfl, fun a => ?_⟩
      · refine Runs.one hi (by simp [hp]) hb ?_
        rw [he, execDecHash]; simp only [hx, if_false]
      · rw [if_neg (by omega)]; rfl
    · have hx : s.blk.toNat < nblk s.msgLen := by omega
      have hr : batchSize Config.htEntries (nblk s.msgLen) s.blk.toNat = min 8 d := by
        simp only [batchSize, Config.htEntries]; omega
      have hr8 : min 8 d ≤ 8 := by omega
      have h1 : (s.blk + BitVec.ofNat 64 (min 8 d)).toNat = s.blk.toNat + min 8 d :=
        blk_advance _ (nblk_le s.msgLen) (by omega)
      have hstep : step s = .next { xorBlocks (keystreamBatch s (min 8 d)) s.blk.toNat (min 8 d) with
          acc := batchAbsorb (keystreamBatch s (min 8 d)) (plainBlocks (keystreamBatch s (min 8 d)) s.blk.toNat (min 8 d) 0),
          blk := s.blk + BitVec.ofNat 64 (min 8 d) } := by
        refine step_next.2 (.inl ⟨hi, ?_⟩)
        rw [he, execDecHash]
        simp only [hx, if_true, hr]
        exact engineAccess_in (Nat.le_trans (Nat.min_le_right _ _) hc)
      rw [batch_frame] at hstep
      have hread : ∀ a, { s with outBuf := (xorBlocks (keystreamBatch s (min 8 d)) s.blk.toNat
          (min 8 d)).outBuf }.readByte .outBuf a =
            (xorBlocks (keystreamBatch s (min 8 d)) s.blk.toNat (min 8 d)).readByte .outBuf a :=
        fun a => by
          refine readByte_congr ?_ ?_ a
          · rfl
          · simp
      simp only [readByte_batch s s.blk.toNat (min 8 d) _ hr8] at hread
      generalize (xorBlocks (keystreamBatch s (min 8 d)) s.blk.toNat (min 8 d)).outBuf = ob at hstep hread
      generalize (keystreamBatch s (min 8 d)).scratch = sc at hstep
      have hacc : s.BatchIsSequential →
          batchAbsorb (keystreamBatch s (min 8 d)) (plainBlocks (keystreamBatch s (min 8 d)) s.blk.toNat (min 8 d) 0) =
            macAll (dot s.cfg) s.h s.acc (recoveredFrom s s.cb s.blk.toNat (min 8 d)) := fun hq => by
        rw [plainBlocks_batch _ _ _ hr8, batchAbsorb, keystreamBatch_cfg, keystreamBatch_htable, keystreamBatch_acc]
        exact hq _ _ (by rw [recoveredFrom, List.length_map, List.length_range]; exact hr8)
      generalize batchAbsorb (keystreamBatch s (min 8 d)) (plainBlocks (keystreamBatch s (min 8 d)) s.blk.toNat (min 8 d) 0) = ac
        at hstep hacc
      obtain ⟨t, ht1, ht2, hta, ht3⟩ := ih (d - min 8 d) (by omega)
        { s with
          outBuf := ob, scratch := sc, cb := ctrFrom s.cfg s.cb (min 8 d),
          acc := ac,
          blk := s.blk + BitVec.ofNat 64 (min 8 d) } hp hi hb hc
        (by show (s.blk + BitVec.ofNat 64 (min 8 d)).toNat + _ = nblk s.msgLen; omega) hn
      refine ⟨t, ?_, ht2, fun hq => ?_, fun a => ?_⟩
      · rw [show (d + 7) / 8 + 1 = ((d - min 8 d + 7) / 8 + 1) + 1 by omega]
        exact Runs.cons hstep (by simp [hp]) hb ht1
      · simp only [h1] at hta
        rw [hta hq, hacc hq]
        have hcat : macAll (dot s.cfg) s.h s.acc (recoveredFrom s s.cb s.blk.toNat d) =
            macAll (dot s.cfg) s.h (macAll (dot s.cfg) s.h s.acc (recoveredFrom s s.cb s.blk.toNat (min 8 d)))
              (recoveredFrom s (ctrFrom s.cfg s.cb (min 8 d)) (s.blk.toNat + min 8 d) (d - min 8 d)) := by
          rw [← macAll_append, ← recoveredFrom_append, show min 8 d + (d - min 8 d) = d by omega]
        rw [hcat]
        rfl
      · have h3 := ht3 a
        simp only [h1] at h3
        rw [h3]
        by_cases c1 : 16 * (s.blk.toNat + min 8 d) ≤ a ∧ a < s.msgLen.toNat
        · rw [if_pos c1, if_pos ⟨by omega, c1.2⟩, ctrFrom_add,
            show min 8 d + (a / 16 - (s.blk.toNat + min 8 d)) = a / 16 - s.blk.toNat by omega]
          rfl
        · rw [if_neg c1]
          refine Eq.trans ?_ ((hread a).trans ?_)
          · rfl
          by_cases c2 : 16 * s.blk.toNat ≤ a ∧ a < s.msgLen.toNat
          · rw [if_pos c2, if_pos ⟨c2.1, by omega⟩]
          · rw [if_neg c2, if_neg (by omega)]

end Sys2Proof.Machine
end

