-- ==== Sys2Proof/Laws/PerInstr.lean ====
section
/-! SUPPORT. The family of statements made per instruction: its encoding is well formed, and the decoder reads it back (30_encoding.md
R44, R45). -/
namespace Sys2Proof.Laws.Encoding

/-- The code of a well-formed instruction is well formed and decodes to it. -/
def Statement (i : Instr) : Prop := i.wellFormed = true → (encode i).wellFormed = true ∧ decode (encode i) = .ok i

theorem sealAuto : Statement .sealAuto := fun _ => ⟨rfl, rfl⟩
theorem sealSeq : Statement .sealSeq := fun _ => ⟨rfl, rfl⟩
theorem sealTable : Statement .sealTable := fun _ => ⟨rfl, rfl⟩
theorem openCmd : Statement .openCmd := fun _ => ⟨rfl, rfl⟩
theorem clearContext : Statement .clearContext := fun _ => ⟨rfl, rfl⟩
theorem idle : Statement .idle := fun _ => ⟨rfl, rfl⟩
theorem deriveH : Statement .deriveH := fun _ => ⟨rfl, rfl⟩
theorem deriveK1 : Statement .deriveK1 := fun _ => ⟨rfl, rfl⟩
theorem deriveK2 : Statement .deriveK2 := fun _ => ⟨rfl, rfl⟩
theorem htBuild : Statement .htBuild := fun _ => ⟨rfl, rfl⟩
theorem hashAad : Statement .hashAad := fun _ => ⟨rfl, rfl⟩
theorem hashMsg : Statement .hashMsg := fun _ => ⟨rfl, rfl⟩
theorem hashLen : Statement .hashLen := fun _ => ⟨rfl, rfl⟩
theorem final : Statement .final := fun _ => ⟨rfl, rfl⟩
theorem tagEncSeal : Statement .tagEncSeal := fun _ => ⟨rfl, rfl⟩
theorem tagEncOpen : Statement .tagEncOpen := fun _ => ⟨rfl, rfl⟩
theorem ctrEnc : Statement .ctrEnc := fun _ => ⟨rfl, rfl⟩
theorem ksRek : Statement .ksRek := fun _ => ⟨rfl, rfl⟩
theorem decHash : Statement .decHash := fun _ => ⟨rfl, rfl⟩
theorem tagCmp : Statement .tagCmp := fun _ => ⟨rfl, rfl⟩
theorem copyback : Statement .copyback := fun _ => ⟨rfl, rfl⟩
theorem wipe : Statement .wipe := fun _ => ⟨rfl, rfl⟩
theorem clear : Statement .clear := fun _ => ⟨rfl, rfl⟩

end Sys2Proof.Laws.Encoding
end

