-- ==== Sys2Proof/Machine/Notation.lean ====
section
/-! DEFINITION. The host-program pseudo-instructions of 30_encoding.md R49, each the list of inputs it expands to. Byte strings are
given as little-endian values, byte 0 in bits [7:0] (00_scope.md R6; log 19). -/
namespace Sys2Proof.Machine

/-- `WR w, v`. -/
def hostWR (w : BitVec 6) (v : RegWord) : Input := .host (.regWrite w v)

/-- `RD w`. -/
def hostRD (w : BitVec 6) : Input := .host (.regRead w)

/-- `BWR S, a, b`. -/
def hostBWR (sp : Space) (a : BitVec 37) (b : Byte) : Input := .host (.bufWrite sp a b)

/-- `BRD S, a`. -/
def hostBRD (sp : Space) (a : BitVec 37) : Input := .host (.bufRead sp a)

/-- `n` register writes from word `base` on, the words of `v` in order. -/
def writeWords {m : Nat} (base : Nat) (v : BitVec m) : (n : Nat) → List Input
  | 0 => []
  | n + 1 => writeWords base v n ++ [hostWR (BitVec.ofNat 6 (base + n)) (wordAt v n)]

/-- `LDKEY k`. -/
def ldKey (k : Key) : List Input := writeWords 16 k 8

/-- `LDNONCE n`. -/
def ldNonce (n : Block) : List Input := writeWords 8 n 4

/-- `LDTAG t`. -/
def ldTag (t : Block) : List Input := writeWords 12 t 4

/-- `LDLEN a, m`. -/
def ldLen (a m : BitVec 64) : List Input := writeWords 2 a 2 ++ writeWords 4 m 2

/-- `LDBUF S, d` from offset `a` on. -/
def ldBufFrom (sp : Space) : (a : Nat) → List Byte → List Input
  | _, [] => []
  | a, b :: d => hostBWR sp (BitVec.ofNat 37 a) b :: ldBufFrom sp (a + 1) d

/-- `LDBUF S, d`. -/
def ldBuf (sp : Space) (d : List Byte) : List Input := ldBufFrom sp 0 d

/-- The five command pseudo-instructions: the write of the command's word to `CMD`. -/
def issue (v : RegWord) : List Input := [hostWR 0 v]

/-- `WAIT`. -/
def waitDone : List Input := [.wait]

/-- `RDTAG`. -/
def rdTag : List Input := [hostRD 12, hostRD 13, hostRD 14, hostRD 15]

/-- `RDBUF S, n`. -/
def rdBuf (sp : Space) : (n : Nat) → List Input
  | 0 => []
  | n + 1 => rdBuf sp n ++ [hostBRD sp (BitVec.ofNat 37 n)]

end Sys2Proof.Machine
end

