-- ==== Sys2Proof/Tests/Slice0.lean ====
section
/-! SUPPORT. The model's own tests: ill-formed terms that WellFormed refuses, the decoding of words written out from 30_encoding.md, known
answers from 95_test_vectors.md (each test names its vector), and for every statement with hypotheses a witness that meets them. -/
namespace Sys2Proof.Tests
-- One theorem after another: each elaboration thread takes a stack of its own out of the memory allowed.
set_option Elab.async false
open Sys2Proof.Machine

/-! ## Helpers -/

/-- A block written as the spec prints it, byte 0 first. -/
def printed (v : Block) : Block := blockOf (fun i => byteAt v (15 - i)) 16

/-- A 256-bit key written as the spec prints it, in its two halves. -/
def printedKey (a b : Block) : Key := printed b ++ printed a

/-- The result is a next state with this property. -/
def goes (r : Result) (p : State → Bool) : Bool :=
  match r with
  | .next t => p t
  | .fault _ => false
  | .refused _ => false

theorem next_of_goes {r : Result} {p : State → Bool} (h : goes r p = true) : ∃ t, r = .next t := by
  cases r with
  | next t => exact ⟨t, rfl⟩
  | fault _ => exact absurd h (by simp [goes])
  | refused _ => exact absurd h (by simp [goes])

/-- A memory holding these bytes from offset `a` on. -/
def bytesFrom : (a : Nat) → List Byte → Memory
  | _, [] => []
  | a, b :: d => (a, b) :: bytesFrom (a + 1) d

/-- `KEY`, `NONCE` and both inputs of EX1. -/
def key1 : Key := printedKey 0x000102030405060708090a0b0c0d0e0f 0x101112131415161718191a1b1c1d1e1f
def nonce1 : Block := printed 0xa0a1a2a3a4a5a6a7a8a9aaabacadaeaf
def h1 : Block := printed 0xdc9f01fd76b87c0d0f4be8850b0bece0
def f1 : Block := printed 0x37dde2ce4d660028346bc84a81a1de35
def f2 : Block := printed 0x74e4933f4ff41f912f5f4340dbd8f1df
def tag1 : Block := printed 0xd207b68eaa7fbdbcf9d34fb9f2e2879c
def pretag1 : Block := printed 0xdb4e1104f6ce442648fd0b167c336803
def plain1 : List Byte :=
  [0x30, 0x31, 0x32, 0x33, 0x34, 0x35, 0x36, 0x37, 0x38, 0x39, 0x3a, 0x3b, 0x3c, 0x3d, 0x3e, 0x3f, 0x40, 0x41, 0x42, 0x43]
def crypt1 : List Byte :=
  [0x7d, 0xc6, 0x0d, 0x9b, 0x87, 0x4b, 0x69, 0xbc, 0xfe, 0xb9, 0xa0, 0x4f, 0x91, 0x11, 0xed, 0x85, 0xca, 0x09, 0xc1, 0xe4]

/-- The operands of EX1 (95_test_vectors.md, program P1), the output preset to `ee`. -/
def ex1 : State :=
  { State.reset with
    key := key1
    nonce := nonce1
    aadLen := 5
    msgLen := 20
    aadBuf := bytesFrom 0 [1, 2, 3, 4, 5]
    inBuf := bytesFrom 0 plain1
    outBuf := bytesFrom 0 (List.replicate 32 0xee) }

/-- The machine running a SEAL of nothing, right after its acceptance. -/
def running : State := { State.reset with opc := 1, phase := .deriveH, status := Status.accepted false false }

/-- The lengths of the threshold vectors. -/
def ofLengths (a m : BitVec 64) : State := { State.reset with aadLen := a, msgLen := m }

/-- The first `n` bytes of `OUT_BUF`. -/
def output (s : State) (n : Nat) : List Byte := (List.range n).map fun a => s.readByte .outBuf a

/-! ## WellFormed refuses -/

theorem test_wf_reserved_opcodes : (Code.cmd 0x0).wellFormed = false ∧ (Code.cmd 0x4).wellFormed = false ∧ (Code.cmd 0xf).wellFormed = false := by
  decide

theorem test_wf_mode_not_allowed : (Code.cmd 0x12).wellFormed = false ∧ (Code.cmd 0x23).wellFormed = false := by decide

theorem test_wf_reserved_mode : (Code.cmd 0x31).wellFormed = false := by decide

theorem test_wf_reserved_bits : (Code.cmd 0x41).wellFormed = false ∧ (Code.cmd 0x80000001).wellFormed = false := by decide

theorem test_wf_reserved_phases : (Code.phase 1 17).wellFormed = false ∧ (Code.phase 1 31).wellFormed = false := by decide

theorem test_wf_tag_enc_without_command : (Code.phase 0 9).wellFormed = false ∧ (Code.phase 3 9).wellFormed = false := by decide

theorem test_wf_accepts : (Code.cmd 0x21).wellFormed = true ∧ (Code.phase 0 16).wellFormed = true ∧ (Code.phase 2 9).wellFormed = true := by decide

theorem test_wf_capacities :
    { Config.default with aadCap := 0 }.wellFormed = false ∧ { Config.default with aadCap := 2 ^ 36 + 1 }.wellFormed = false ∧
    { Config.default with msgCap := 0 }.wellFormed = false ∧ { Config.default with msgCap := 2 ^ 36 + 1 }.wellFormed = false ∧
    { Config.default with aadCap := 1, msgCap := 2 ^ 36 }.wellFormed = true := by decide

/-! ## Decoding, words from the tables of R44 and R45 -/

theorem test_decode_commands :
    decode (.cmd 0b00000000000000000000000000000001) = .ok .sealAuto ∧
    decode (.cmd 0b00000000000000000000000000010001) = .ok .sealSeq ∧
    decode (.cmd 0b00000000000000000000000000100001) = .ok .sealTable ∧
    decode (.cmd 0b00000000000000000000000000000010) = .ok .openCmd ∧
    decode (.cmd 0b00000000000000000000000000000011) = .ok .clearContext :=
  ⟨rfl, rfl, rfl, rfl, rfl⟩

theorem test_decode_phases_0_to_8 :
    decode (.phase 1 0b00000) = .ok .idle ∧ decode (.phase 1 0b00001) = .ok .deriveH ∧
    decode (.phase 1 0b00010) = .ok .deriveK1 ∧ decode (.phase 1 0b00011) = .ok .deriveK2 ∧
    decode (.phase 1 0b00100) = .ok .htBuild ∧ decode (.phase 1 0b00101) = .ok .hashAad ∧
    decode (.phase 1 0b00110) = .ok .hashMsg ∧ decode (.phase 1 0b00111) = .ok .hashLen ∧
    decode (.phase 1 0b01000) = .ok .final :=
  ⟨rfl, rfl, rfl, rfl, rfl, rfl, rfl, rfl, rfl⟩

theorem test_decode_phases_9_to_16 :
    decode (.phase 1 0b01001) = .ok .tagEncSeal ∧ decode (.phase 2 0b01001) = .ok .tagEncOpen ∧
    decode (.phase 1 0b01010) = .ok .ctrEnc ∧ decode (.phase 2 0b01011) = .ok .ksRek ∧
    decode (.phase 2 0b01100) = .ok .decHash ∧ decode (.phase 2 0b01101) = .ok .tagCmp ∧
    decode (.phase 2 0b01110) = .ok .copyback ∧ decode (.phase 2 0b01111) = .ok .wipe ∧
    decode (.phase 3 0b10000) = .ok .clear :=
  ⟨rfl, rfl, rfl, rfl, rfl, rfl, rfl, rfl, rfl⟩

theorem test_decode_refuses :
    decode (.cmd 0x00000000) = .error .reservedOpcode ∧ decode (.cmd 0x0000000f) = .error .reservedOpcode ∧
    decode (.cmd 0x00000013) = .error .modeNotAllowed ∧ decode (.cmd 0x00000031) = .error .reservedMode ∧
    decode (.cmd 0x00000101) = .error .reservedBits ∧ decode (.phase 1 0b10001) = .error .reservedPhase ∧
    decode (.phase 3 0b01001) = .error .tagEncWithoutCommand :=
  ⟨rfl, rfl, rfl, rfl, rfl, rfl, rfl⟩

theorem test_table_words :
    decodeTableWord 32 0x21 = some .sealTable ∧ decodeTableWord 8 16 = some .clear ∧ decodeTableWord 8 9 = some .tagEncSeal ∧
    decodeTableWord 8 17 = none ∧ decodeTableWord 8 32 = none ∧ decodeTableWord 32 0x12 = none := by decide

theorem test_fetch_command : goes (step (State.reset.withFetchWord 32 0x21)) (fun t => t.phase == .deriveH && t.opc == 1) = true := by
  decide +kernel

theorem test_fetch_phase : goes (step (State.reset.withFetchWord 8 16)) (fun t => t.status == Status.cleared && t.phase == .idle) = true := by
  decide +kernel

/-! ## Primitives -/

/-- V-AES-1, V-AES-2. -/
theorem test_aes :
    cipherE Config.default key1 (printed 0x00112233445566778899aabbccddeeff) = printed 0x8ea2b7ca516745bfeafc49904b496089 ∧
    cipherE Config.default 0 0 = printed 0xdc95c078a2408989ad48a21492842087 := by decide +kernel

/-- V-AES-3: round key 14. -/
theorem test_key_expand : roundKey (aesKeyExpand key1) 14 = printed 0x24fc79ccbf0979e9371ac23c6d68de36 := by decide +kernel

/-- V-DOT-1, V-DOT-3. -/
theorem test_dot :
    polyvalDot (printed 0x4f4f95668c83dfb6401762bb2d01a262) (printed 0x25629347589242761d31f826ba4b757b) =
      printed 0xcedac64537ff50989c16011551086d77 ∧
    polyvalDot 1 1 = printed 0x01000000000000000000000000000492 := by decide +kernel

/-- V-CTR-1: the wrap, and the little-endian carry. -/
theorem test_increment :
    ctrNext Config.default (printed 0xffffffff0102030405060708090a0b0c) = printed 0x000000000102030405060708090a0b0c ∧
    ctrNext Config.default (printed 0xff0000000102030405060708090a0b0c) = printed 0x000100000102030405060708090a0b0c := by decide +kernel

/-- V-CTR-2. -/
theorem test_initial_counter :
    ctrInit { Config.default with ctrInitMsbSet := true } (printed 0xffffffff0102030405060708090a0b0c) =
      printed 0xffffffff0102030405060708090a0b8c := by decide +kernel

/-- V-LEN-1. -/
theorem test_length_block :
    lenblk 5 20 = printed 0x2800000000000000a000000000000000 ∧ lenblk 0 129 = printed 0x00000000000000000804000000000000 ∧
    lenblk (2 ^ 36) (2 ^ 36) = printed 0x00000000800000000000000080000000 := by decide +kernel

/-! ## Commands -/

/-- V-THR-1: a total of 128. -/
theorem test_seal_at_threshold : goes (exec .sealAuto (ofLengths 28 100)) (fun t => t.status.word == 0x01 && t.phase == .deriveH) = true := by
  decide +kernel

/-- V-THR-2: a total of 129. -/
theorem test_seal_above_threshold : goes (exec .sealAuto (ofLengths 28 101)) (fun t => t.status.word == 0x31 && t.opc == 1) = true := by
  decide +kernel

/-- V-THR-2s. -/
theorem test_seal_seq : goes (exec .sealSeq (ofLengths 28 101)) (fun t => t.status.word == 0x21) = true := by decide +kernel

/-- V-THR-1t. -/
theorem test_seal_table : goes (exec .sealTable (ofLengths 28 100)) (fun t => t.status.word == 0x11) = true := by decide +kernel

/-- V-OPEN-1: always table, always 8-way. -/
theorem test_open : goes (exec .openCmd ex1) (fun t => t.status.word == 0x31 && t.opc == 2 && t.phase == .deriveH) = true := by decide +kernel

/-- V-IF-3. -/
theorem test_clear_context :
    goes (exec .clearContext { State.reset with status := { Status.zero with cmdErr := true } })
      (fun t => t.status.word == 0x01 && t.opc == 3 && t.phase == .clear) = true := by decide +kernel

/-- V-IF-2. -/
theorem test_illegal_words :
    [0x00, 0x04, 0x0f, 0x12, 0x13, 0x31, 0x41, 0x101, 0x80000001].all (fun v =>
      goes (regWrite State.reset 0 v) (fun t => t.status.word == 0x40 && t.phase == .idle)) = true := by decide +kernel

/-! ## Phases, one step each -/

/-- R46, R148. -/
theorem test_idle : exec .idle ex1 = .next ex1 := rfl

/-- V-DER-1. -/
theorem test_derive_h : goes (exec .deriveH ex1) (fun t => t.h == h1 && t.phase == .deriveK1) = true := by decide +kernel

/-- V-DER-1: the first half, at bytes 16 to 31. -/
theorem test_derive_k1 :
    goes (exec .deriveK1 { State.reset with ks := aesKeyExpand key1, h := h1 }) (fun t => t.rek == f1 ++ 0#128) = true := by decide +kernel

/-- V-DER-1. -/
theorem test_derive_k2 :
    goes (exec .deriveK2 { State.reset with ks := aesKeyExpand key1, rek := f1 ++ 0#128, acc := 1 })
      (fun t => t.rek == printedKey 0x74e4933f4ff41f912f5f4340dbd8f1df 0x37dde2ce4d660028346bc84a81a1de35 && t.acc == 0 &&
        t.phase == .hashAad) = true := by decide +kernel

/-- V-DER-2: the other placement. -/
theorem test_derive_k2_low_first :
    goes (exec .deriveK2
        { State.reset with cfg := { Config.default with rekFirstAtHighBytes := false }, ks := aesKeyExpand key1, rek := 0#128 ++ f1 })
      (fun t => t.rek == printedKey 0x37dde2ce4d660028346bc84a81a1de35 0x74e4933f4ff41f912f5f4340dbd8f1df) = true := by decide +kernel

/-- V-PV-2. -/
theorem test_ht_build :
    goes (exec .htBuild { State.reset with h := h1 })
      (fun t => t.htable[0] == h1 && t.htable[1] == printed 0x5b076da341361602b49a7fd6d62c2d8d &&
        t.htable[7] == printed 0x8d7d5cca88974a038261ede43141a556) = true := by decide +kernel

/-- V-PV-1: block 0 of the associated data. -/
theorem test_hash_aad :
    goes (exec .hashAad { ex1 with h := h1 }) (fun t => t.acc == printed 0x76be63280f0a131b960e92e6951b4939 && t.blk == 1) = true := by
  decide +kernel

/-- R83: the exit by `OPC`. -/
theorem test_hash_aad_exit :
    goes (exec .hashAad { ex1 with opc := 2, blk := 1 }) (fun t => t.phase == .ksRek && t.blk == 0) = true ∧
    goes (exec .hashAad { ex1 with opc := 1, blk := 1 }) (fun t => t.phase == .hashMsg && t.blk == 0) = true := by decide +kernel

/-- V-PV-1: the partial block 1 of the message. -/
theorem test_hash_msg_sequential :
    goes (exec .hashMsg { ex1 with h := h1, blk := 1, acc := printed 0x56e2de640d5985148f742dbf68c15dae })
      (fun t => t.acc == printed 0x29ba2b7da5bf03c43c0841dd9f57338e && t.blk == 2) = true := by decide +kernel

/-- V-PV-2: the batch of two blocks. -/
theorem test_hash_msg_batch :
    goes (exec .hashMsg
        { ex1 with
          status := Status.accepted true false
          htable := buildTableWith polyvalDot h1 7 ex1.htable
          acc := printed 0x76be63280f0a131b960e92e6951b4939 })
      (fun t => t.acc == printed 0x29ba2b7da5bf03c43c0841dd9f57338e && t.blk == 2) = true := by decide +kernel

/-- V-PV-1, V-PV-2: the same under either strategy. -/
theorem test_hash_len :
    goes (exec .hashLen { ex1 with h := h1, acc := printed 0x29ba2b7da5bf03c43c0841dd9f57338e })
      (fun t => t.acc == printed 0x7befb3a7526be281e054a1bdd09ec6ac) = true ∧
    goes (exec .hashLen
        { ex1 with
          status := Status.accepted true true
          htable := buildTableWith polyvalDot h1 7 ex1.htable
          acc := printed 0x29ba2b7da5bf03c43c0841dd9f57338e })
      (fun t => t.acc == printed 0x7befb3a7526be281e054a1bdd09ec6ac && t.phase == .final) = true := by decide +kernel

/-- V-FIN-1. -/
theorem test_final : goes (exec .final { ex1 with acc := printed 0x7befb3a7526be281e054a1bdd09ec6ac }) (fun t => t.pretag == pretag1) = true := by
  decide +kernel

/-- V-FIN-2: bit 127 is cleared. -/
theorem test_final_mask : goes (exec .final ex1) (fun t => t.pretag == printed 0xa0a1a2a3a4a5a6a7a8a9aaabacadae2f) = true := by decide +kernel

/-- EX1. -/
theorem test_tag_enc_seal :
    goes (exec .tagEncSeal { ex1 with rek := f1 ++ f2, pretag := pretag1 })
      (fun t => t.tag == tag1 && t.tagc == tag1 && t.cb == tag1 && t.ks == aesKeyExpand (f1 ++ f2) && t.phase == .ctrEnc) = true := by
  decide +kernel

/-- V-OPEN-1. -/
theorem test_tag_enc_open :
    goes (exec .tagEncOpen { ex1 with ks := aesKeyExpand (f1 ++ f2), pretag := pretag1, tag := 7 })
      (fun t => t.tagc == tag1 && t.tag == 7 && t.phase == .tagCmp) = true := by decide +kernel

/-- V-CTR-4. -/
theorem test_ctr_enc :
    goes (exec .ctrEnc { ex1 with ks := aesKeyExpand (f1 ++ f2), cb := tag1 })
      (fun t => output t 22 == crypt1 ++ [0xee, 0xee] && t.scratch[0] == printed 0x4df73fa8b37e5f8bc6809a74ad2cd3ba &&
        t.scratch[1] == printed 0x8a4883a7b5e901ad3a04562c7b201625 && t.scratch[2] == 0 &&
        t.cb == printed 0xd407b68eaa7fbdbcf9d34fb9f2e2879c && t.blk == 2) = true := by decide +kernel

/-- V-EMPTY-1: the exit step only. -/
theorem test_ctr_enc_exit : goes (exec .ctrEnc { ex1 with msgLen := 0 }) (fun t => t.phase == .wipe && t.outBuf == ex1.outBuf) = true := by
  decide +kernel

/-- V-OPEN-1 and V-OPEN-3m. -/
theorem test_ks_rek :
    goes (exec .ksRek { ex1 with rek := f1 ++ f2, tag := tag1 })
      (fun t => t.cb == tag1 && t.ks == aesKeyExpand (f1 ++ f2) && t.phase == .decHash) = true ∧
    goes (exec .ksRek
        { ex1 with cfg := { Config.default with ctrInitMsbSet := true }, tag := printed 0xd207b68eaa7fbdbcf9d34fb9f2e2871c })
      (fun t => t.cb == tag1) = true := by decide +kernel

/-- V-OPEN-1: the recovered plaintext is what is absorbed. -/
theorem test_dec_hash :
    goes (exec .decHash
        { ex1 with
          inBuf := bytesFrom 0 crypt1
          ks := aesKeyExpand (f1 ++ f2)
          cb := tag1
          htable := buildTableWith polyvalDot h1 7 ex1.htable
          acc := printed 0x76be63280f0a131b960e92e6951b4939 })
      (fun t => output t 22 == plain1 ++ [0xee, 0xee] && t.acc == printed 0x29ba2b7da5bf03c43c0841dd9f57338e && t.blk == 2) = true := by
  decide +kernel

/-- `TAG_CMP` alone (95_test_vectors.md section 6). -/
theorem test_tag_cmp :
    goes (exec .tagCmp { State.reset with tag := tag1, tagc := tag1 }) (fun t => t.diff == 0 && t.phase == .wipe) = true ∧
    goes (exec .tagCmp { State.reset with tag := tag1, tagc := tag1 ^^^ printed 0x00000000000000100000000000000000 })
      (fun t => t.diff == 0x10 && t.phase == .copyback) = true := by decide +kernel

/-- `TAG_CMP` alone: differences in bytes 0 and 15. -/
theorem test_tag_cmp_two_bytes :
    goes (exec .tagCmp { State.reset with tag := tag1, tagc := tag1 ^^^ printed 0x01000000000000000000000000000080 })
      (fun t => t.diff == 0x81) = true := by decide +kernel

/-- V-OPEN-2: the partial block 1. -/
theorem test_copyback :
    goes (exec .copyback { ex1 with inBuf := bytesFrom 0 crypt1, blk := 1 })
      (fun t => output t 22 == List.replicate 16 0xee ++ [0xca, 0x09, 0xc1, 0xe4] ++ [0xee, 0xee] && t.blk == 2) = true := by
  decide +kernel

/-- V-OPEN-1: `STATUS` = 0x36. -/
theorem test_wipe_match :
    goes (exec .wipe { ex1 with opc := 2, status := Status.accepted true true })
      (fun t => t.status.word == 0x36 && t.key == 0 && t.phase == .idle && t.nonce == nonce1) = true := by decide +kernel

/-- V-OPEN-2: `STATUS` = 0x3a. -/
theorem test_wipe_differ :
    goes (exec .wipe { ex1 with opc := 2, diff := 0xff, status := Status.accepted true true })
      (fun t => t.status.word == 0x3a && t.diff == 0) = true := by decide +kernel

/-- V-CTX-1. -/
theorem test_clear :
    goes (exec .clear { ex1 with ks := 5, htable := Vector.replicate 8 1, scratch := Vector.replicate 8 1, tag := tag1 })
      (fun t => t.status.word == 0x02 && t.ks == 0 && t.htable[7] == 0 && t.scratch[7] == 0 && t.key == 0 && t.tag == tag1) = true := by
  decide +kernel

/-! ## The host port -/

/-- V-IF-4. -/
theorem test_read_only_and_unmapped :
    regWrite ex1 1 0xffffffff = .next ex1 ∧ regWrite ex1 6 1 = .next ex1 ∧ regWrite ex1 63 1 = .next ex1 ∧
    regRead ex1 0 = 0 ∧ regRead ex1 6 = 0 ∧ regRead ex1 16 = 0 :=
  ⟨rfl, rfl, rfl, rfl, rfl, rfl⟩

/-- V-IF-5. -/
theorem test_length_words :
    goes (regWrite { State.reset with aadLen := 0x500000000 } 2 0x11223344)
      (fun t => t.aadLen == 0x0000000511223344 && regRead t 2 == 0x11223344 && regRead t 3 == 5) = true := by decide +kernel

/-- V-IF-6: while busy. -/
theorem test_busy :
    regRead { ex1 with status := Status.accepted false false } 8 = 0 ∧ regRead { ex1 with status := Status.accepted false false } 1 = 1 ∧
    bufRead { ex1 with status := Status.accepted false false } .inBuf 0 = 0 ∧
    goes (regWrite { ex1 with status := Status.accepted false false } 8 0xdeadbeef) (fun t => t.nonce == nonce1) = true := by decide +kernel

/-- V-IF-7. -/
theorem test_rejected_after_failure :
    goes (regWrite { State.reset with status := { Status.accepted true true with busy := false, done := true, authFail := true } } 0 0)
      (fun t => t.status.word == 0x7a) = true := by decide +kernel

/-- V-IF-8. -/
theorem test_beyond_capacity :
    goes (bufWrite ex1 .outBuf (2 ^ 36) 0x55) (fun t => t.outBuf == ex1.outBuf) = true ∧ bufRead ex1 .outBuf (2 ^ 36) = 0 := by decide +kernel

/-- R49: the words of `LDNONCE` in program P1. -/
theorem test_ld_nonce :
    ldNonce nonce1 = [hostWR 8 0xa3a2a1a0, hostWR 9 0xa7a6a5a4, hostWR 10 0xabaaa9a8, hostWR 11 0xafaeadac] := by decide +kernel

/-- The refusal of R149, at the smallest length above the bound, and the acceptance at the bound. -/
theorem test_length_precondition :
    exec .openCmd (ofLengths (2 ^ 36 + 1) 0) = .refused .lengthPrecondition ∧
    goes (exec .openCmd (ofLengths (2 ^ 36) (2 ^ 36))) (fun t => t.phase == .deriveH) = true := by
  constructor
  · rfl
  · decide +kernel

/-! ## Witnesses: for every statement with hypotheses, states and operands that meet them all -/

/-- A machine in the middle of a SEAL whose message fills the buffer to the last legal byte. -/
def full : State :=
  { State.reset with
    aadLen := 2 ^ 36, msgLen := 2 ^ 36, opc := 1, phase := .hashAad, status := Status.accepted true true }

theorem witness_busy : running.status.busy = true ∧ full.status.busy = true := by decide

theorem witness_idle : State.reset.status.busy = false ∧ State.reset.phase = .idle ∧ State.reset.inputs = [] := by decide

theorem witness_StepRunsTheDecodedInstruction :
    (running.inputs = [] ∧ decode running.nextCode = .ok .deriveH) ∧
    ({ running with inputs := [.engine] }.inputs = [.engine] ∧ decode { running with inputs := [.engine] }.nextCode = .ok .deriveH) ∧
    ({ ex1 with inputs := [.host (.regWrite 0 1)] }.inputs = [.host (.regWrite 0 1)] ∧ ex1.status.busy = false ∧
      decode (.cmd 1) = .ok .sealAuto) := ⟨⟨rfl, rfl⟩, ⟨rfl, rfl⟩, rfl, rfl, rfl⟩

/-- Idle, with each of the four host operations as the next input. -/
theorem witness_StepRunsTheDecodedInstruction_host :
    ([.regWrite 8 5, .bufWrite .inBuf 0 7, .regRead 8, .bufRead .outBuf 0] : List HostOp).all (fun op =>
      let s := { ex1 with inputs := [.host op] }
      !s.status.busy && s.inputs == [.host op]) = true := by decide

/-- At the threshold, one above it, and at the largest legal lengths. -/
theorem witness_SealAcceptance :
    [((28 : BitVec 64), (100 : BitVec 64), false), (28, 101, true), (2 ^ 36, 2 ^ 36, true), (0, 0, false)].all (fun (a, m, b) =>
      let s := ofLengths a m
      !s.status.busy && decide (s.aadLen.toNat ≤ min (2 ^ 36) s.cfg.aadCap) && decide (s.msgLen.toNat ≤ min (2 ^ 36) s.cfg.msgCap) &&
        decide (b = true ↔ s.aadLen.toNat + s.msgLen.toNat > 128)) = true := by decide +kernel

theorem witness_OpenAcceptance :
    (ofLengths (2 ^ 36) (2 ^ 36)).status.busy = false ∧
    (ofLengths (2 ^ 36) (2 ^ 36)).aadLen.toNat ≤ min (2 ^ 36) (ofLengths (2 ^ 36) (2 ^ 36)).cfg.aadCap ∧
    (ofLengths (2 ^ 36) (2 ^ 36)).msgLen.toNat ≤ min (2 ^ 36) (ofLengths (2 ^ 36) (2 ^ 36)).cfg.msgCap := by decide +kernel

theorem witness_LaunchOutsideLengthsIsRefused :
    ((ofLengths (2 ^ 36 + 1) 0).status.busy = false ∧
      (ofLengths (2 ^ 36 + 1) 0).aadLen.toNat > min (2 ^ 36) (ofLengths (2 ^ 36 + 1) 0).cfg.aadCap) ∧
    ({ ex1 with cfg := { Config.default with msgCap := 19 } }.status.busy = false ∧
      { ex1 with cfg := { Config.default with msgCap := 19 } }.msgLen.toNat > min (2 ^ 36) 19) ∧
    Instr.openCmd ∈ [Instr.sealAuto, .sealSeq, .sealTable, .openCmd] := by decide +kernel

theorem witness_CommandsAreDroppedWhileBusy :
    full.status.busy = true ∧ Instr.clearContext ∈ [Instr.sealAuto, .sealSeq, .sealTable, .openCmd, .clearContext] := by decide

/-- The half that holds `F1`, under both placements. -/
theorem witness_DeriveK2WritesTheOtherHalf :
    (∀ i, i < 16 → byteAt f1 i = byteAt { ex1 with rek := f1 ++ 0#128 }.rek (16 + i)) ∧
    (∀ i, i < 16 → byteAt f1 i = byteAt { ex1 with rek := 0#128 ++ f1 }.rek i) := by decide +kernel

theorem witness_ThreeStepsDeriveTheRecordKeys : running.phase = .deriveH ∧ running.inputs = [] := by decide

/-- A looping step at the first block, at the last, and the exit; with both strategies. -/
theorem witness_HashAadStep_HashMsgStep :
    (ex1.aadLen.toNat ≤ ex1.cfg.aadCap ∧ ex1.blk.toNat < nblk ex1.aadLen ∧ ex1.status.stratTable = false) ∧
    (full.aadLen.toNat ≤ full.cfg.aadCap ∧ full.msgLen.toNat ≤ full.cfg.msgCap ∧
      { full with blk := 2 ^ 32 - 1 }.blk.toNat < nblk full.aadLen ∧ full.status.stratTable = true) ∧
    ¬ { full with blk := 2 ^ 32 }.blk.toNat < nblk full.aadLen := by decide +kernel

theorem witness_BatchIsTheSumOfProducts : ([1, 2, 3, 4, 5, 6, 7, 8] : List Block) ≠ [] := by decide

/-- PD2 of the default multiplication. -/
theorem witness_bilinear : Bilinear (dot Config.default) :=
  ⟨polyvalDot_xor_left, fun a b c => by
    show polyvalDot a (b ^^^ c) = polyvalDot a b ^^^ polyvalDot a c
    rw [polyvalDot_comm a, polyvalDot_xor_left, polyvalDot_comm b, polyvalDot_comm c]⟩

/-- PD3 of the default multiplication. -/
theorem witness_associative : Associative (dot Config.default) := polyvalDot_assoc

/-- A batch of eight blocks against the table of powers. -/
theorem witness_BatchEqualsSequential :
    Bilinear polyvalDot ∧ Associative polyvalDot ∧
    ∀ k, k < ([1, 2, 3, 4, 5, 6, 7, 8] : List Block).length →
      tableEntry (buildTableWith polyvalDot h1 7 (Vector.replicate 8 0)) k = power polyvalDot h1 k :=
  ⟨witness_bilinear, witness_associative, fun k hk => by
    have hk : k < 8 := hk
    rw [tableEntry_build _ _ _ _ _ (by decide), if_pos (by omega)]⟩

/-- The byte at offset 5, the first beyond `AAD_LEN`, changed; a step of `HASH_AAD` exists. -/
theorem witness_BytesBeyondTheLengthDoNotMatter :
    (∀ a, a < ex1.aadLen.toNat → (ex1.setMem .aadBuf (ex1.aadBuf.put 5 0xff)).readByte .aadBuf a = ex1.readByte .aadBuf a) ∧
    (∀ a, a < ex1.msgLen.toNat → (ex1.setMem .aadBuf (ex1.aadBuf.put 5 0xff)).readByte .inBuf a = ex1.readByte .inBuf a) ∧
    ∃ t, exec .hashAad ex1 = .next t := by
  refine ⟨?_, ?_, next_of_goes (p := fun _ => true) (by decide +kernel)⟩
  · have : (ex1.setMem .aadBuf (ex1.aadBuf.put 5 0xff)).aadBuf = bytesFrom 0 [1, 2, 3, 4, 5, 0xff] := by decide +kernel
    intro a ha
    have ha : a < 5 := ha
    simp only [State.readByte, State.mem, this]
    match a, ha with
    | 0, _ => rfl
    | 1, _ => rfl
    | 2, _ => rfl
    | 3, _ => rfl
    | 4, _ => rfl
  · intro a _; rfl

theorem witness_LengthBlockHoldsTheBitLengths : (2 ^ 36 : BitVec 64).toNat ≤ 2 ^ 36 ∧ (0 : BitVec 64).toNat ≤ 2 ^ 36 := by decide

theorem witness_CounterBlockRules :
    Config.default.increment = .le32 ∧ Config.default.ctrInitMsbSet = false ∧
    { Config.default with ctrInitMsbSet := true }.ctrInitMsbSet = true := by decide

/-- The first batch of a short message, and the last block of the longest, for `CTR_ENC`, `DEC_HASH` and `COPYBACK`. -/
theorem witness_batches :
    (ex1.blk.toNat < nblk ex1.msgLen ∧ ex1.msgLen.toNat ≤ ex1.cfg.msgCap) ∧
    ({ full with blk := 2 ^ 32 - 1 }.blk.toNat < nblk full.msgLen ∧ full.msgLen.toNat ≤ full.cfg.msgCap) := by decide +kernel

/-- The first index past the last block, and an empty message. -/
theorem witness_MessageLoopsExit :
    nblk full.msgLen ≤ { full with blk := 2 ^ 32 }.blk.toNat ∧ nblk State.reset.msgLen ≤ State.reset.blk.toNat := by decide +kernel

theorem witness_CounterModeIsItsOwnInverse :
    (ex1.writeByte .inBuf 19 (ctrByte ex1 key1 tag1 19)).readByte .inBuf 19 = ctrByte ex1 key1 tag1 19 ∧
    ex1.cfg = (ex1.writeByte .inBuf 19 (ctrByte ex1 key1 tag1 19)).cfg := ⟨readByte_writeByte_same _ _ _ _, rfl⟩

theorem witness_CopybackRestoresTheCiphertext :
    { ex1 with phase := .copyback }.phase = .copyback ∧ ex1.blk = 0 ∧ ex1.inputs = [] ∧ ex1.msgLen.toNat ≤ ex1.cfg.msgCap := by
  decide +kernel

/-- Every end of the two ranges of readable words. -/
theorem witness_RegisterWordReadsBack :
    ex1.status.busy = false ∧ ([2, 3, 4, 5, 8, 11, 12, 15] : List (BitVec 6)).all
      (fun w => decide ((2 ≤ w.toNat ∧ w.toNat ≤ 5) ∨ (8 ≤ w.toNat ∧ w.toNat ≤ 15))) = true ∧
    ([2, 3] : List (BitVec 6)).all (fun w => decide (2 ≤ w.toNat ∧ w.toNat ≤ 3)) = true ∧
    ([4, 5] : List (BitVec 6)).all (fun w => decide (4 ≤ w.toNat ∧ w.toNat ≤ 5)) = true ∧
    ([8, 11] : List (BitVec 6)).all (fun w => decide (8 ≤ w.toNat ∧ w.toNat ≤ 11)) = true ∧
    ([12, 15] : List (BitVec 6)).all (fun w => decide (12 ≤ w.toNat ∧ w.toNat ≤ 15)) = true := by decide

/-- Every end of the ranges of `KEY` and of the words without effect. -/
theorem witness_WriteOnlyAndUnmappedWords :
    ex1.status.busy = false ∧
    ([16, 23] : List (BitVec 6)).all (fun w => decide (16 ≤ w.toNat ∧ w.toNat ≤ 23)) = true ∧
    ([1, 6, 7, 24, 63] : List (BitVec 6)).all (fun w => decide (w.toNat = 1 ∨ w.toNat = 6 ∨ w.toNat = 7 ∨ 24 ≤ w.toNat)) = true ∧
    ([0, 6, 7, 16, 63] : List (BitVec 6)).all (fun w => decide (w.toNat = 0 ∨ w.toNat = 6 ∨ w.toNat = 7 ∨ 16 ≤ w.toNat)) = true := by
  decide

/-- The last offset inside a buffer and the first beyond it. -/
theorem witness_BufferByteReadsBack :
    ex1.status.busy = false ∧ (2 ^ 36 - 1 : BitVec 37).toNat < ex1.capacity .inBuf ∧ ex1.capacity .inBuf ≤ (2 ^ 36 : BitVec 37).toNat := by
  decide

theorem witness_BusyLockout :
    { running with inputs := [.host (.regRead 1)] }.status.busy = true ∧
    { running with inputs := [.host (.bufWrite .inBuf 0 1)] }.inputs = [.host (.bufWrite .inBuf 0 1)] := ⟨rfl, rfl⟩

theorem witness_SecretsHaveNoReadPath :
    { ex1 with key := 1, h := 2 } = { ex1 with
      key := { ex1 with key := 1, h := 2 }.key, h := { ex1 with key := 1, h := 2 }.h, rek := ex1.rek, acc := ex1.acc,
      pretag := ex1.pretag, tagc := ex1.tagc, cb := ex1.cb, diff := ex1.diff, ks := ex1.ks, htable := ex1.htable,
      scratch := ex1.scratch } ∧ { ex1 with key := 1, h := 2 } ≠ ex1 :=
  ⟨rfl, fun h => absurd (congrArg State.h h) (by decide)⟩

/-- Polling with `DONE` = 0 and with `DONE` = 1. -/
theorem witness_WaitPollsUntilDone :
    ({ running with inputs := [.wait] }.inputs = [.wait] ∧ running.status.done = false) ∧
    ({ State.reset with status := Status.cleared, inputs := [.wait] }.inputs = [.wait] ∧ Status.cleared.done = true) := by decide +kernel

theorem witness_RejectedWordKeepsTheOutcome :
    State.reset.status.busy = false ∧ (0x12 : RegWord) ∉ ([0x01, 0x11, 0x21, 0x02, 0x03] : List RegWord) := by decide

theorem witness_ResetEventZeroesEverything : { full with inputs := [.reset] }.inputs = .reset :: [] := rfl

/-- The invariant in the middle of a command, at the largest lengths. -/
theorem full_inv : full.Inv where
  config := by decide
  buffers := fun sp => by cases sp <;> exact ⟨rfl, rfl⟩
  status := by unfold State.statusLegal; decide
  idle := fun h => absurd h (by decide)
  opc := by decide
  lengths := by decide +kernel
  blk := by decide +kernel
  openMode := by decide
  table := by decide

theorem witness_EveryStepKeepsTheInvariant : full.Inv ∧ ∃ t, step full = .next t :=
  ⟨full_inv, next_of_goes (p := fun _ => true) (by decide +kernel)⟩

/-- A state whose next move is a launch outside the precondition. -/
def illegal : State := { ofLengths (2 ^ 36 + 1) 0 with inputs := [.host (.regWrite 0 0x02)] }

theorem witness_NoFaultAndOneRefusal_refused : illegal.Inv ∧ illegal.launchesIllegally :=
  ⟨{ config := by decide
     buffers := fun sp => by cases sp <;> exact ⟨rfl, rfl⟩
     status := by unfold State.statusLegal; decide
     idle := fun _ => by unfold State.secretsZero; decide
     opc := by decide
     lengths := by decide
     blk := by decide
     openMode := by decide
     table := by decide },
   by decide, by decide +kernel, 0x02, [], rfl, by decide⟩

theorem witness_NoFaultAndOneRefusal_runs : full.Inv ∧ ¬ full.launchesIllegally :=
  ⟨full_inv, fun h => absurd h.1 (by decide)⟩

/-- Two machines that differ in every secret, at a step of `TAG_CMP` that finds a difference in both. -/
theorem witness_ControlDoesNotDependOnData :
    let s := { running with phase := .tagCmp, opc := 2, tag := 1, tagc := 2, key := 3 }
    let u := { running with phase := .tagCmp, opc := 2, tag := 5, tagc := 4, key := 6 }
    sameControl s u ∧ s.inputs = [] ∧ u.inputs = [] ∧ (s.tag = s.tagc ↔ u.tag = u.tagc) ∧ (s.diff = 0 ↔ u.diff = 0) ∧
      ∃ t, step s = .next t :=
  ⟨⟨rfl, rfl, rfl, rfl, rfl, rfl, rfl⟩, rfl, rfl, by decide, by decide, next_of_goes (p := fun _ => true) (by decide +kernel)⟩

theorem witness_InstructionsLeaveTheOperands :
    (∃ t, exec .ctrEnc ex1 = .next t) ∧ Instr.ctrEnc ≠ .tagEncSeal ∧ Instr.ctrEnc ≠ .wipe ∧ Instr.ctrEnc ≠ .clear :=
  ⟨next_of_goes (p := fun _ => true) (by decide +kernel), by decide, by decide, by decide⟩

/-- EX1 with its SEAL accepted. -/
def sealing : State := { ex1 with opc := 1, phase := .deriveH, status := Status.accepted false false }

theorem sealing_accepted : sealing.SealAccepted :=
  { phase := rfl, opc := rfl, blk := rfl, status := rfl, lengths := by decide +kernel, inputs := rfl }

theorem witness_SealStatements : sealing.SealAccepted ∧ Bilinear (dot sealing.cfg) ∧ Associative (dot sealing.cfg) :=
  ⟨sealing_accepted, witness_bilinear, witness_associative⟩

/-- The steps of EX1 by R108: 14. -/
theorem test_seal_steps : sealSteps sealing = 14 := by decide +kernel

/-- EX1 with an OPEN accepted. -/
def opening : State := { ex1 with opc := 2, phase := .deriveH, status := Status.accepted true true, tag := tag1 }

theorem witness_OpenStatements : opening.OpenAccepted ∧ Bilinear (dot opening.cfg) ∧ Associative (dot opening.cfg) :=
  ⟨{ phase := rfl, opc := rfl, blk := rfl, status := rfl, lengths := by decide +kernel, inputs := rfl },
   witness_bilinear, witness_associative⟩

/-- The steps of an OPEN of these lengths by R115: 14 when the tags match, 17 when they differ. -/
theorem test_open_steps : openSteps opening false = 14 ∧ openSteps opening true = 17 := by decide +kernel

/-- One message byte sealed, and handed back. -/
def oneByte : State := { State.reset with key := key1, msgLen := 1, inBuf := [(0, 0x30)] }

def handedBack : State :=
  { oneByte with
    tag := sealTag oneByte
    inBuf := [(0, ctrByte oneByte (recordEncKey oneByte.cfg oneByte.key oneByte.nonce) (sealTag oneByte) 0)] }

theorem witness_RoundTripOfTheFunctions :
    sameOperands oneByte handedBack ∧ handedBack.tag = sealTag oneByte ∧
    ∀ a, a < oneByte.msgLen.toNat →
      handedBack.readByte .inBuf a = ctrByte oneByte (recordEncKey oneByte.cfg oneByte.key oneByte.nonce) (sealTag oneByte) a := by
  refine ⟨⟨rfl, rfl, rfl, rfl, rfl, fun a h => absurd h (Nat.not_lt_zero a)⟩, rfl, fun a ha => ?_⟩
  have ha : a < 1 := ha
  match a, ha with
  | 0, _ => rfl

/-- The SEAL of one byte, run to its end, and an OPEN accepted with what it left. -/
theorem witness_OpenAfterSealRoundTrips :
    ∃ s s' u : State, s.SealAccepted ∧ Bilinear (dot s.cfg) ∧ Associative (dot s.cfg) ∧
      Host.Core.run core (sealSteps s) s = .next s' ∧ u.OpenAccepted ∧ sameOperands s u ∧ u.tag = s'.tag ∧
      ∀ a, a < s.msgLen.toNat → u.readByte .inBuf a = s'.readByte .outBuf a := by
  obtain ⟨s', hs⟩ := next_of_goes
    (r := Host.Core.run core (sealSteps { oneByte with opc := 1, phase := .deriveH, status := Status.accepted false false })
      { oneByte with opc := 1, phase := .deriveH, status := Status.accepted false false })
    (p := fun _ => true) (by decide +kernel)
  refine ⟨_, s', { oneByte with
      opc := 2, phase := .deriveH, status := Status.accepted true true, tag := s'.tag, inBuf := [(0, s'.readByte .outBuf 0)] },
    { phase := rfl, opc := rfl, blk := rfl, status := rfl, lengths := by decide +kernel, inputs := rfl },
    witness_bilinear, witness_associative, hs,
    { phase := rfl, opc := rfl, blk := rfl, status := rfl
      lengths := (by decide +kernel : lengthsLegal oneByte = true), inputs := rfl },
    ⟨rfl, rfl, rfl, rfl, rfl, fun a h => absurd h (Nat.not_lt_zero a)⟩, rfl, fun a ha => ?_⟩
  have ha : a < 1 := ha
  match a, ha with
  | 0, _ => rfl

/-- A SEAL of nothing under both strategies. -/
theorem witness_StrategiesGiveTheSameResult :
    running.SealAccepted ∧ Bilinear (dot running.cfg) ∧ Associative (dot running.cfg) ∧
    (∃ s', Host.Core.run core (sealSteps running) running = .next s') ∧
    ∃ u', Host.Core.run core
      (sealSteps { running with status := { running.status with stratTable := !running.status.stratTable } })
      { running with status := { running.status with stratTable := !running.status.stratTable } } = .next u' :=
  ⟨{ phase := rfl, opc := rfl, blk := rfl, status := rfl, lengths := by decide +kernel, inputs := rfl },
   witness_bilinear, witness_associative,
   next_of_goes (p := fun _ => true) (by decide +kernel), next_of_goes (p := fun _ => true) (by decide +kernel)⟩

end Sys2Proof.Tests
end

/-! SUPPORT and CERTIFICATES. What the engine steps that write `OUT_BUF` can answer, and the invariant of the machine under every kind of
step (R13, R17, R23, R46). -/
namespace Sys2Proof.Machine

/-! ## What the steps that write `OUT_BUF` can answer (R105, R113, R122) -/

/-- Everything a step of `CTR_ENC` can answer: the exit, or a batch of `r` blocks inside the capacity (R105). -/
theorem execCtrEnc_next {s t : State} :
    execCtrEnc s = .next t ↔
      (nblk s.msgLen ≤ s.blk.toNat ∧ t = { s with blk := 0, phase := .wipe }) ∨
      (s.blk.toNat < nblk s.msgLen ∧ ∃ r, r = batchSize (batchWidth s) (nblk s.msgLen) s.blk.toNat ∧
        topOffset s.msgLen (s.blk.toNat + r) ≤ s.cfg.msgCap ∧
        t = { xorBlocks (keystreamBatch s r) s.blk.toNat r with blk := s.blk + BitVec.ofNat 64 r }) := by
  unfold execCtrEnc
  by_cases h : s.blk.toNat < nblk s.msgLen
  · simp [h, Nat.not_le.2 h, engineAccess_next, State.capacity, eq_comm (b := t)]
  · simp [h, Nat.not_lt.1 h, eq_comm (b := t)]

/-- Everything a step of `DEC_HASH` can answer: the exit, or a batch of `r` blocks inside the capacity (R113). -/
theorem execDecHash_next {s t : State} :
    execDecHash s = .next t ↔
      (nblk s.msgLen ≤ s.blk.toNat ∧ t = { s with blk := 0, phase := .hashLen }) ∨
      (s.blk.toNat < nblk s.msgLen ∧ ∃ r, r = batchSize Config.htEntries (nblk s.msgLen) s.blk.toNat ∧
        topOffset s.msgLen (s.blk.toNat + r) ≤ s.cfg.msgCap ∧
        t = { xorBlocks (keystreamBatch s r) s.blk.toNat r with
          acc := batchAbsorb (keystreamBatch s r) (plainBlocks (keystreamBatch s r) s.blk.toNat r 0)
          blk := s.blk + BitVec.ofNat 64 r }) := by
  unfold execDecHash
  by_cases h : s.blk.toNat < nblk s.msgLen
  · simp [h, Nat.not_le.2 h, engineAccess_next, State.capacity, eq_comm (b := t)]
  · simp [h, Nat.not_lt.1 h, eq_comm (b := t)]

/-- The state in which the valid bytes of message block `j` have been copied back (R122). -/
def copyBlock (s : State) (j : Nat) : State :=
  memWrite s .outBuf (16 * j) (memRead s .inBuf (16 * j) (validBytes s.msgLen j)) (validBytes s.msgLen j)

/-- Everything a step of `COPYBACK` can answer: the exit, or one block inside the capacity (R122). -/
theorem execCopyback_next {s t : State} :
    execCopyback s = .next t ↔
      (nblk s.msgLen ≤ s.blk.toNat ∧ t = { s with blk := 0, phase := .wipe }) ∨
      (s.blk.toNat < nblk s.msgLen ∧ topOffset s.msgLen (s.blk.toNat + 1) ≤ s.cfg.msgCap ∧
        t = { copyBlock s s.blk.toNat with blk := s.blk + 1 }) := by
  unfold execCopyback
  by_cases h : s.blk.toNat < nblk s.msgLen
  · simp [h, Nat.not_le.2 h, engineAccess_next, State.capacity, copyBlock, eq_comm (b := t)]
  · simp [h, Nat.not_lt.1 h, eq_comm (b := t)]

theorem validBytes_end_le {len : BitVec 64} {j : Nat} (hj : j < nblk len) :
    16 * j + validBytes len j ≤ topOffset len (j + 1) := by
  simp only [nblk, validBytes, topOffset] at hj ⊢
  omega

theorem batchSize_end_le (w : Nat) {n j : Nat} (hj : j < n) : j + batchSize w n j ≤ n := by
  simp only [batchSize]
  omega

/-- A batch inside the capacity keeps every buffer legal. -/
theorem batch_bufferLegal {s : State} (hs : ∀ sp, s.bufferLegal sp) {j r : Nat}
    (hcap : topOffset s.msgLen (j + r) ≤ s.cfg.msgCap) (sp : Space) :
    (xorBlocks (keystreamBatch s r) j r).bufferLegal sp := by
  obtain ⟨hwf, hin⟩ := hs sp
  refine ⟨xorBlocks_wf _ _ _ _ (by simpa using hwf), ?_⟩
  have hcapEq : (xorBlocks (keystreamBatch s r) j r).capacity sp = s.capacity sp := by cases sp <;> simp [State.capacity]
  rw [hcapEq]
  by_cases hsp : sp = .outBuf
  · subst hsp
    exact xorBlocks_within _ _ _ _ _ (by simpa [State.capacity] using hcap) (by simpa using hin)
  · rw [xorBlocks_mem_other _ _ _ hsp, keystreamBatch_mem]
    exact hin

/-- A block copied back inside the capacity keeps every buffer legal. -/
theorem copyBlock_bufferLegal {s : State} (hs : ∀ sp, s.bufferLegal sp) {j : Nat} (hj : j < nblk s.msgLen)
    (hcap : topOffset s.msgLen (j + 1) ≤ s.cfg.msgCap) (sp : Space) : (copyBlock s j).bufferLegal sp := by
  obtain ⟨hwf, hin⟩ := hs sp
  have hcapEq : (copyBlock s j).capacity sp = s.capacity sp := by cases sp <;> simp [copyBlock, State.capacity]
  refine ⟨memWrite_wf _ _ _ _ _ _ hwf, ?_⟩
  rw [hcapEq]
  refine memWrite_within _ _ _ _ _ _ _ (fun hsp => ?_) hin
  subst hsp
  exact Nat.le_trans (validBytes_end_le hj) hcap

/-! ## The invariant within a running command -/

/-- What an engine step of a running command keeps: the configuration, the lengths, `OPC` and `STATUS`. -/
structure SameCommand (s t : State) : Prop where
  cfg : t.cfg = s.cfg
  aadLen : t.aadLen = s.aadLen
  msgLen : t.msgLen = s.msgLen
  opc : t.opc = s.opc
  status : t.status = s.status

theorem SameCommand.lengthsLegal_eq {s t : State} (same : SameCommand s t) : lengthsLegal t = lengthsLegal s := by
  simp only [lengthsLegal, same.cfg, same.aadLen, same.msgLen]

theorem SameCommand.blkBound_eq {s t : State} (same : SameCommand s t) (hp : t.phase = s.phase) : blkBound t = blkBound s := by
  simp only [blkBound, hp, same.aadLen, same.msgLen]

theorem blkBound_le (s : State) : blkBound s ≤ 2 ^ 61 := by
  unfold blkBound
  split
  case h_6 => exact Nat.zero_le _
  all_goals exact nblk_le _

theorem State.Inv.blk_zero {s : State} (hs : s.Inv) (h : blkBound s = 0) : s.blk = 0 :=
  BitVec.eq_of_toNat_eq (Nat.le_zero.1 (h ▸ hs.blk))

/-- Within SEAL and OPEN the invariant asks of a next state that still runs: legal buffers, a phase of the same command, `BLK` within its
bound, and the table strategy in `HT_BUILD`. -/
theorem inv_of_sameCommand {s t : State} (hs : s.Inv) (same : SameCommand s t) (hrun : s.phase ≠ .idle ∧ s.phase ≠ .clear)
    (hbuf : ∀ sp, t.bufferLegal sp) (hidle : t.phase ≠ .idle) (hopc : opcAllows s.opc t.phase = true)
    (hblk : t.blk.toNat ≤ blkBound t) (htable : t.phase = .htBuild → s.status.stratTable = true) : t.Inv where
  config := same.cfg ▸ hs.config
  buffers := hbuf
  status := by
    obtain ⟨hbusy, hclear, hone, hdone⟩ := hs.status
    simp only [State.statusLegal, same.status]
    exact ⟨⟨fun _ => hidle, fun _ => hbusy.2 hrun.1⟩, hclear, hone, hdone⟩
  idle h := absurd h hidle
  opc := same.opc ▸ hopc
  lengths _ _ := same.lengthsLegal_eq ▸ hs.lengths hrun.1 hrun.2
  blk := hblk
  openMode h _ := same.status ▸ hs.openMode (same.opc ▸ h) hrun.1
  table h := same.status ▸ htable h

/-- A step of a looping phase that stays in it and takes `r` blocks. -/
theorem inv_of_loop {s t : State} {r : Nat} (hs : s.Inv) (same : SameCommand s t) (hrun : s.phase ≠ .idle ∧ s.phase ≠ .clear)
    (hbuf : ∀ sp, t.bufferLegal sp) (hphase : t.phase = s.phase) (hblk : t.blk = s.blk + BitVec.ofNat 64 r)
    (hend : s.blk.toNat + r ≤ blkBound s) : t.Inv := by
  refine inv_of_sameCommand hs same hrun hbuf (hphase ▸ hrun.1) (hphase ▸ hs.opc) ?_ (fun h => hs.table (hphase ▸ h))
  rw [same.blkBound_eq hphase, hblk, blk_advance _ (blkBound_le s) hend]
  exact hend

/-- A step that enters another phase of the same command with `BLK` = 0: it may write the registers, the context and `TAG`. -/
theorem inv_of_enter {s t : State} {p : Phase} (hs : s.Inv) (hrun : s.phase ≠ .idle ∧ s.phase ≠ .clear)
    (h : t = { s with
      tag := t.tag, h := t.h, rek := t.rek, acc := t.acc, pretag := t.pretag, tagc := t.tagc, cb := t.cb, diff := t.diff,
      ks := t.ks, htable := t.htable, blk := t.blk, phase := p })
    (hblk : t.blk = 0) (hidle : p ≠ .idle) (hopc : opcAllows s.opc p = true)
    (htable : p = .htBuild → s.status.stratTable = true) : t.Inv := by
  have hp : t.phase = p := by rw [h]
  exact inv_of_sameCommand hs (by rw [h]; exact ⟨rfl, rfl, rfl, rfl, rfl⟩) hrun (by rw [h]; exact hs.buffers) (hp ▸ hidle)
    (hp ▸ hopc) (by simp [hblk]) (hp ▸ htable)

/-- A looping phase that is left for another phase of the same command. -/
theorem inv_of_exit {s : State} (hs : s.Inv) (hrun : s.phase ≠ .idle ∧ s.phase ≠ .clear) {p : Phase}
    (hp : p ≠ .idle ∧ p ≠ .htBuild) (hopc : opcAllows s.opc p = true) : State.Inv { s with blk := 0, phase := p } :=
  inv_of_enter hs hrun rfl rfl hp.1 hopc (fun h => absurd h hp.2)

/-! ## The phases of one step each -/

/-- The phases of SEAL and OPEN that take one engine step and lead on to another phase. -/
def Phase.straight : Phase → Bool
  | .deriveH | .deriveK1 | .deriveK2 | .htBuild | .hashLen | .final | .tagEnc | .ksRek | .tagCmp => true
  | _ => false

theorem running_of_straight {s : State} (h : s.phase.straight = true) :
    (s.phase ≠ .idle ∧ s.phase ≠ .clear) ∧ blkBound s = 0 := by
  revert h
  unfold blkBound
  cases s.phase <;> simp [Phase.straight]

/-- The step of a phase of one step each. -/
theorem inv_of_straight {s t : State} {p q : Phase} (hs : s.Inv) (hp : s.phase = p) (hstraight : p.straight = true)
    (h : t = { s with
      tag := t.tag, h := t.h, rek := t.rek, acc := t.acc, pretag := t.pretag, tagc := t.tagc, cb := t.cb, diff := t.diff,
      ks := t.ks, htable := t.htable, phase := q })
    (hidle : q ≠ .idle) (hopc : opcAllows s.opc q = true) (htable : q = .htBuild → s.status.stratTable = true) : t.Inv := by
  obtain ⟨hrun, hbound⟩ := running_of_straight (hp ▸ hstraight)
  have hblk : t.blk = s.blk := by rw [h]
  exact inv_of_enter hs hrun (by rw [hblk]; exact h) (hblk.trans (hs.blk_zero hbound)) hidle hopc htable

theorem execDeriveK2_inv {s t : State} (hs : s.Inv) (hp : s.phase = .deriveK2) (h : execDeriveK2 s = .next t) : t.Inv := by
  obtain rfl := Host.Outcome.next.inj h
  have hopc : opcAllows s.opc .deriveK2 = true := hp ▸ hs.opc
  refine inv_of_straight hs hp rfl rfl ?_ ?_ (by simp)
  · split <;> decide
  · split <;> exact hopc

theorem execTagEncSeal_inv {s t : State} (hs : s.Inv) (hp : s.phase = .tagEnc) (ho : s.opc = 1)
    (h : execTagEncSeal s = .next t) : t.Inv := by
  obtain rfl := Host.Outcome.next.inj h
  exact inv_of_straight hs hp rfl rfl (by decide) (by rw [ho]; rfl) (by simp)

theorem execTagEncOpen_inv {s t : State} (hs : s.Inv) (hp : s.phase = .tagEnc) (ho : s.opc = 2)
    (h : execTagEncOpen s = .next t) : t.Inv := by
  obtain rfl := Host.Outcome.next.inj h
  exact inv_of_straight hs hp rfl rfl (by decide) (by rw [ho]; rfl) (by simp)

theorem execTagCmp_inv {s t : State} (hs : s.Inv) (hp : s.phase = .tagCmp) (h : execTagCmp s = .next t) : t.Inv := by
  obtain rfl := Host.Outcome.next.inj h
  have ho : s.opc = 2 := by simpa [hp, opcAllows] using hs.opc
  refine inv_of_straight hs hp rfl rfl ?_ ?_ ?_
  · split <;> decide
  · rw [ho]; split <;> rfl
  · split <;> simp

/-! ## The looping phases -/

theorem hashPass_inv {s t : State} {sp : Space} {len : BitVec 64} {exit : Phase} (hs : s.Inv)
    (hrun : s.phase ≠ .idle ∧ s.phase ≠ .clear) (hbound : blkBound s = nblk len) (hexit : exit ≠ .idle ∧ exit ≠ .htBuild)
    (hopc : opcAllows s.opc exit = true) (h : hashPass s sp len exit = .next t) : t.Inv := by
  obtain ⟨-, rfl⟩ | ⟨hlt, -, -, rfl⟩ | ⟨hlt, -, -, rfl⟩ := hashPass_next.1 h
  · exact inv_of_exit hs hrun hexit hopc
  · exact inv_of_loop hs ⟨rfl, rfl, rfl, rfl, rfl⟩ hrun hs.buffers rfl rfl (Nat.le_trans (batchSize_end_le _ hlt) (Nat.le_of_eq hbound.symm))
  · exact inv_of_loop (r := 1) hs ⟨rfl, rfl, rfl, rfl, rfl⟩ hrun hs.buffers rfl rfl (hbound ▸ hlt)

theorem execHashAad_inv {s t : State} (hs : s.Inv) (hp : s.phase = .hashAad) (h : execHashAad s = .next t) : t.Inv := by
  have hopc : s.opc = 1 ∨ s.opc = 2 := by simpa [hp, opcAllows] using hs.opc
  refine hashPass_inv hs (by simp [hp]) (by simp only [blkBound, hp]) ?_ ?_ h
  · split <;> decide
  · obtain ho | ho := hopc <;> simp [ho, opcAllows]

theorem execHashMsg_inv {s t : State} (hs : s.Inv) (hp : s.phase = .hashMsg) (h : execHashMsg s = .next t) : t.Inv := by
  have hopc : s.opc = 1 := by simpa [hp, opcAllows] using hs.opc
  exact hashPass_inv hs (by simp [hp]) (by simp only [blkBound, hp]) (by decide) (by rw [hopc]; rfl) h

theorem execCtrEnc_inv {s t : State} (hs : s.Inv) (hp : s.phase = .ctrEnc) (h : execCtrEnc s = .next t) : t.Inv := by
  have hrun : s.phase ≠ .idle ∧ s.phase ≠ .clear := by simp [hp]
  have hopc : s.opc = 1 := by simpa [hp, opcAllows] using hs.opc
  have hbound : blkBound s = nblk s.msgLen := by simp only [blkBound, hp]
  obtain ⟨-, rfl⟩ | ⟨hlt, r, rfl, hcap, rfl⟩ := execCtrEnc_next.1 h
  · exact inv_of_exit hs hrun (by decide) (by rw [hopc]; rfl)
  · exact inv_of_loop hs (by constructor <;> simp) hrun (batch_bufferLegal hs.buffers hcap) (by simp) rfl
      (Nat.le_trans (batchSize_end_le _ hlt) (Nat.le_of_eq hbound.symm))

theorem execDecHash_inv {s t : State} (hs : s.Inv) (hp : s.phase = .decHash) (h : execDecHash s = .next t) : t.Inv := by
  have hrun : s.phase ≠ .idle ∧ s.phase ≠ .clear := by simp [hp]
  have hopc : s.opc = 2 := by simpa [hp, opcAllows] using hs.opc
  have hbound : blkBound s = nblk s.msgLen := by simp only [blkBound, hp]
  obtain ⟨-, rfl⟩ | ⟨hlt, r, rfl, hcap, rfl⟩ := execDecHash_next.1 h
  · exact inv_of_exit hs hrun (by decide) (by rw [hopc]; rfl)
  · exact inv_of_loop hs (by constructor <;> simp) hrun (batch_bufferLegal hs.buffers hcap) (by simp) rfl
      (Nat.le_trans (batchSize_end_le _ hlt) (Nat.le_of_eq hbound.symm))

theorem execCopyback_inv {s t : State} (hs : s.Inv) (hp : s.phase = .copyback) (h : execCopyback s = .next t) : t.Inv := by
  have hrun : s.phase ≠ .idle ∧ s.phase ≠ .clear := by simp [hp]
  have hopc : s.opc = 2 := by simpa [hp, opcAllows] using hs.opc
  have hbound : blkBound s = nblk s.msgLen := by simp only [blkBound, hp]
  obtain ⟨-, rfl⟩ | ⟨hlt, hcap, rfl⟩ := execCopyback_next.1 h
  · exact inv_of_exit hs hrun (by decide) (by rw [hopc]; rfl)
  · exact inv_of_loop (r := 1) hs (by constructor <;> simp [copyBlock]) hrun (copyBlock_bufferLegal hs.buffers hlt hcap)
      (by simp [copyBlock]) rfl (hbound ▸ hlt)

/-! ## The invariant in `IDLE`, and at the two ends of a command -/

/-- In `IDLE` the invariant asks for legal parameters and buffers, zero internal registers, an idle `STATUS`, and a known `OPC`. -/
theorem inv_of_idle {s : State} (hcfg : s.cfg.wellFormed = true) (hbuf : ∀ sp, s.bufferLegal sp) (hphase : s.phase = .idle)
    (hzero : s.secretsZero) (hstatus : s.statusLegal) (hopc : s.opc.toNat ≤ 3) : s.Inv where
  config := hcfg
  buffers := hbuf
  status := hstatus
  idle _ := hzero
  opc := by simpa [hphase, opcAllows] using hopc
  lengths h := absurd hphase h
  blk := by
    obtain ⟨-, -, -, -, -, -, -, hblk⟩ := hzero
    simp [hblk]
  openMode _ h := absurd hphase h
  table h := by simp [hphase] at h

theorem State.Inv.opc_le {s : State} (hs : s.Inv) : s.opc.toNat ≤ 3 := by
  have hopc := hs.opc
  cases hp : s.phase <;> simp only [hp, opcAllows, Bool.or_eq_true, beq_iff_eq, decide_eq_true_eq] at hopc
  case idle => exact hopc
  case hashMsg | ctrEnc | ksRek | decHash | tagCmp | copyback | clear => simp [hopc]
  all_goals rcases hopc with h | h <;> simp [h]

theorem State.Inv.phase_idle {s : State} (hs : s.Inv) (hbusy : s.status.busy = false) : s.phase = .idle := by
  obtain ⟨hiff, -⟩ := hs.status
  exact Decidable.byContradiction fun h => Bool.false_ne_true (hbusy.symm.trans (hiff.2 h))

/-- The moves to come and the replies received play no part in the invariant. -/
theorem State.Inv.queues {s : State} (hs : s.Inv) (i : List Input) (r : List Reply) :
    State.Inv { s with inputs := i, replies := r } :=
  ⟨hs.config, hs.buffers, hs.status, hs.idle, hs.opc, hs.lengths, hs.blk, hs.openMode, hs.table⟩

theorem execWipe_inv {s t : State} (hs : s.Inv) (h : execWipe s = .next t) : t.Inv := by
  obtain rfl := Host.Outcome.next.inj h
  refine inv_of_idle hs.config hs.buffers rfl ⟨rfl, rfl, rfl, rfl, rfl, rfl, rfl, rfl⟩ ?_ hs.opc_le
  refine ⟨by simp [Status.wiped], by simp [Status.wiped], ?_, fun _ => rfl⟩
  simp only [Status.wiped, Bool.and_eq_true, beq_iff_eq, bne_iff_ne]
  exact fun ⟨hok, hfail⟩ => hfail.2 hok.2

theorem execClear_inv {s t : State} (hs : s.Inv) (h : execClear s = .next t) : t.Inv := by
  obtain rfl := Host.Outcome.next.inj h
  exact inv_of_idle hs.config hs.buffers rfl ⟨rfl, rfl, rfl, rfl, rfl, rfl, rfl, rfl⟩
    (by simp [State.statusLegal, Status.cleared, Status.zero]) hs.opc_le

/-- The acceptance of a command in its first phase. -/
theorem accept_inv {s : State} (hs : s.Inv) {o : BitVec 4} {a b : Bool} {p : Phase}
    (hp : p = .deriveH ∧ lengthsLegal s = true ∨ p = .clear) (hopc : opcAllows o p = true)
    (hmode : o = 2 → a = true ∧ b = true) : (accept s o a b p).Inv where
  config := hs.config
  buffers := hs.buffers
  status := by obtain ⟨rfl, -⟩ | rfl := hp <;> simp [State.statusLegal, Status.accepted]
  idle h := by obtain ⟨rfl, -⟩ | rfl := hp <;> cases h
  opc := hopc
  lengths _ hclear := hp.elim (fun h => h.2) (fun h => absurd h hclear)
  blk := Nat.zero_le _
  openMode h _ := hmode h
  table h := by obtain ⟨rfl, -⟩ | rfl := hp <;> cases h

theorem launchCommand_inv {s t : State} (hs : s.Inv) {o : BitVec 4} {a b : Bool} (hopc : o = 1 ∨ o = 2 ∧ a = true ∧ b = true)
    (h : launchCommand s o a b = .next t) : t.Inv := by
  obtain ⟨-, rfl⟩ | ⟨-, hlen, rfl⟩ := launchCommand_next.1 h
  · exact hs
  · obtain rfl | ⟨rfl, hmode⟩ := hopc
    · exact accept_inv hs (.inl ⟨rfl, hlen⟩) rfl (by simp)
    · exact accept_inv hs (.inl ⟨rfl, hlen⟩) rfl (fun _ => hmode)

theorem execClearContext_inv {s t : State} (hs : s.Inv) (h : execClearContext s = .next t) : t.Inv := by
  obtain ⟨-, rfl⟩ | ⟨-, h⟩ := unlessBusy_next.1 h
  · exact hs
  · obtain rfl := Host.Outcome.next.inj h
    exact accept_inv hs (.inr rfl) rfl (by simp)

/-! ## The invariant under every step -/

theorem engineStep_inv {s t : State} (hs : s.Inv) (h : engineStep s = .next t) : t.Inv := by
  have hopc := hs.opc
  rw [engineStep_eq] at h
  cases hp : s.phase <;> simp only [hp] at h hopc
  case idle => exact Host.Outcome.next.inj h ▸ hs
  case deriveH | deriveK1 | htBuild | hashLen | final | ksRek =>
    obtain rfl := Host.Outcome.next.inj h
    exact inv_of_straight hs hp rfl rfl (by decide) hopc (by simp)
  case deriveK2 => exact execDeriveK2_inv hs hp h
  case tagEnc =>
    split at h
    · exact execTagEncSeal_inv hs hp ‹_› h
    · split at h
      · exact execTagEncOpen_inv hs hp ‹_› h
      · cases h
  case tagCmp => exact execTagCmp_inv hs hp h
  case hashAad => exact execHashAad_inv hs hp h
  case hashMsg => exact execHashMsg_inv hs hp h
  case ctrEnc => exact execCtrEnc_inv hs hp h
  case decHash => exact execDecHash_inv hs hp h
  case copyback => exact execCopyback_inv hs hp h
  case wipe => exact execWipe_inv hs h
  case clear => exact execClear_inv hs h

/-- What a command word can decode to (R44). -/
theorem decodeCmd_ok {v : BitVec 32} {i : Instr} (h : decodeCmd v = .ok i) :
    i = .sealAuto ∨ i = .sealSeq ∨ i = .sealTable ∨ i = .openCmd ∨ i = .clearContext := by
  simp only [decodeCmd] at h
  (repeat' split at h) <;> cases h <;> simp

/-- Everything a command attempt can answer with a next state: the acceptance of a command, or `CMD_ERR` (R44). -/
theorem commandAttempt_next {s t : State} {v : RegWord} (h : commandAttempt s v = .next t) :
    (∃ o a b, (o = 1 ∨ o = 2 ∧ a = true ∧ b = true) ∧ launchCommand s o a b = .next t) ∨
    execClearContext s = .next t ∨
    t = { s with status := { s.status with cmdErr := true } } := by
  unfold commandAttempt at h
  split at h
  · rename_i i hi
    obtain rfl | rfl | rfl | rfl | rfl := decodeCmd_ok hi
    · exact .inl ⟨_, _, _, .inl rfl, h⟩
    · exact .inl ⟨_, _, _, .inl rfl, h⟩
    · exact .inl ⟨_, _, _, .inl rfl, h⟩
    · exact .inl ⟨_, _, _, .inr ⟨rfl, rfl, rfl⟩, h⟩
    · exact .inr (.inl h)
  · exact .inr (.inr (Host.Outcome.next.inj h).symm)

theorem commandAttempt_inv {s t : State} {v : RegWord} (hs : s.Inv) (hbusy : s.status.busy = false)
    (h : commandAttempt s v = .next t) : t.Inv := by
  obtain ⟨o, a, b, hopc, h⟩ | h | rfl := commandAttempt_next h
  · exact launchCommand_inv hs hopc h
  · exact execClearContext_inv hs h
  · have hp := hs.phase_idle hbusy
    obtain ⟨hiff, -, houtcome⟩ := hs.status
    exact inv_of_idle hs.config hs.buffers hp (hs.idle hp) ⟨hiff, by simp [hbusy], houtcome⟩ hs.opc_le

theorem regWrite_inv {s t : State} {w : BitVec 6} {v : RegWord} (hs : s.Inv) (h : regWrite s w v = .next t) : t.Inv := by
  obtain ⟨-, rfl⟩ | ⟨hbusy, -, h⟩ | ⟨hbusy, -, rfl⟩ := regWrite_next.1 h
  · exact hs
  · exact commandAttempt_inv hs hbusy h
  · have hp := hs.phase_idle hbusy
    exact inv_of_idle hs.config hs.buffers hp (hs.idle hp) hs.status hs.opc_le

/-- A byte written inside the capacity keeps every buffer legal. -/
theorem writeByte_bufferLegal {s : State} (hs : ∀ sp, s.bufferLegal sp) {sp : Space} {a : Nat} (b : Byte)
    (ha : a < s.capacity sp) (sp' : Space) : (s.writeByte sp a b).bufferLegal sp' := by
  obtain ⟨hwf, hin⟩ := hs sp'
  rw [State.bufferLegal, writeByte_capacity]
  by_cases hsp : sp' = sp
  · subst hsp
    rw [writeByte_mem_same]
    exact ⟨put_wf _ _ _ hwf, put_within _ _ _ _ ha hin⟩
  · rw [writeByte_mem_other _ _ _ hsp]
    exact ⟨hwf, hin⟩

theorem bufWrite_inv {s t : State} {sp : Space} {a : BitVec 37} {b : Byte} (hs : s.Inv)
    (h : bufWrite s sp a b = .next t) : t.Inv := by
  obtain ⟨-, rfl⟩ | ⟨-, -, rfl⟩ | ⟨hbusy, ha, rfl⟩ := bufWrite_next.1 h
  · exact hs
  · exact hs
  · have hp := hs.phase_idle hbusy
    refine inv_of_idle ?_ (writeByte_bufferLegal hs.buffers b ha) ?_ ?_ ?_ ?_
    · rw [writeByte_cfg]; exact hs.config
    · rw [writeByte_phase]; exact hp
    · simpa [State.secretsZero] using hs.idle hp
    · simpa [State.statusLegal] using hs.status
    · rw [writeByte_opc]; exact hs.opc_le

theorem hostOp_inv {s t : State} {op : HostOp} (hs : s.Inv) (h : hostOp s op = .next t) : t.Inv := by
  cases op with
  | regRead w => exact Host.Outcome.next.inj h ▸ hs.queues _ _
  | regWrite w v => exact regWrite_inv hs h
  | bufRead sp a => exact Host.Outcome.next.inj h ▸ hs.queues _ _
  | bufWrite sp a b => exact bufWrite_inv hs h

theorem hostWait_inv {s : State} (hs : s.Inv) : (hostWait s).Inv := by
  unfold hostWait
  split
  · exact hs.queues _ _
  · exact hs.queues _ _

/-- The reset values with any legal parameters, and whatever lies outside the block (R150, log 7). -/
theorem inv_of_reset {c : Config} (hc : c.wellFormed = true) (n : Nat) (i : List Input) (r : List Reply) :
    State.Inv { State.reset with cfg := c, launch := n, inputs := i, replies := r } :=
  inv_of_idle hc (fun sp => by cases sp <;> exact ⟨rfl, rfl⟩) rfl ⟨rfl, rfl, rfl, rfl, rfl, rfl, rfl, rfl⟩
    (by simp [State.statusLegal, State.reset, Status.zero]) (Nat.zero_le _)

theorem applyInput_inv {s t : State} {i : Input} (hs : s.Inv) (h : applyInput s i = .next t) : t.Inv := by
  cases i with
  | host op => exact hostOp_inv hs h
  | engine => exact engineStep_inv hs h
  | wait => exact Host.Outcome.next.inj h ▸ hostWait_inv hs
  | reset => exact Host.Outcome.next.inj h ▸ inv_of_reset hs.config _ _ _

theorem step_inv {s t : State} (hs : s.Inv) (h : step s = .next t) : t.Inv := by
  obtain ⟨-, h⟩ | ⟨i, rest, -, h⟩ := step_next.1 h
  · exact engineStep_inv hs h
  · exact applyInput_inv (hs.queues rest s.replies) h

/-- Settles O50: every kind of step keeps the invariant; the engine's by phase, the host's by operation. -/
theorem everyStepKeepsTheInvariant : Obligations.EveryStepKeepsTheInvariant :=
  fun _ _ hs h => step_inv hs h

/-- Settles O49. -/
theorem invariantAtReset : Obligations.InvariantAtReset :=
  inv_of_reset (by decide) _ _ _

end Sys2Proof.Machine
/-! SUPPORT and CERTIFICATES. The register words of the host port (R15, R17, R31) and what no host read depends on (R147). -/
namespace Sys2Proof.Machine

/-! ## The register words of the host port (R15, R18, R19, R31) -/

theorem regRead_idle {s : State} (hbusy : s.status.busy = false) {w : BitVec 6} (hw : w.toNat ≠ 1) :
    regRead s w = wordContents s w := by
  have h1 : w ≠ 1 := fun h => hw (by rw [h]; rfl)
  rw [regRead, if_neg h1, hbusy]
  rfl

theorem regWrite_idle {s : State} (hbusy : s.status.busy = false) {w : BitVec 6} (hw : w.toNat ≠ 0) (v : RegWord) :
    regWrite s w v = .next (storeWord s w v) :=
  regWrite_next.2 (.inr (.inr ⟨hbusy, fun h => hw (by rw [h]; rfl), rfl⟩))

theorem wordContents_aadLen (s : State) {w : BitVec 6} (h : 2 ≤ w.toNat ∧ w.toNat ≤ 3) :
    wordContents s w = wordAt s.aadLen (w.toNat - 2) := by
  simp only [wordContents]
  rw [if_pos (by omega)]

theorem wordContents_msgLen (s : State) {w : BitVec 6} (h : 4 ≤ w.toNat ∧ w.toNat ≤ 5) :
    wordContents s w = wordAt s.msgLen (w.toNat - 4) := by
  simp only [wordContents]
  rw [if_neg (by omega), if_pos (by omega)]

theorem wordContents_nonce (s : State) {w : BitVec 6} (h : 8 ≤ w.toNat ∧ w.toNat ≤ 11) :
    wordContents s w = wordAt s.nonce (w.toNat - 8) := by
  simp only [wordContents]
  rw [if_neg (by omega), if_neg (by omega), if_pos (by omega)]

theorem wordContents_tag (s : State) {w : BitVec 6} (h : 12 ≤ w.toNat ∧ w.toNat ≤ 15) :
    wordContents s w = wordAt s.tag (w.toNat - 12) := by
  simp only [wordContents]
  rw [if_neg (by omega), if_neg (by omega), if_neg (by omega), if_pos (by omega)]

/-- The words of `AAD_LEN`, `MSG_LEN`, `NONCE` and `TAG` (R15). -/
def readableWord (i : Nat) : Prop := (2 ≤ i ∧ i ≤ 5) ∨ (8 ≤ i ∧ i ≤ 15)

theorem wordContents_unreadable (s : State) {w : BitVec 6} (h : ¬ readableWord w.toNat) : wordContents s w = 0 := by
  simp only [readableWord] at h
  simp only [wordContents]
  rw [if_neg (by omega), if_neg (by omega), if_neg (by omega), if_neg (by omega)]

theorem storeInto_of_outside {m : Nat} (r : BitVec m) {base n i : Nat} (v : RegWord) (h : ¬ (base ≤ i ∧ i < base + n)) :
    storeInto r base n i v = r := if_neg h

/-- Word `j` of a register after a write to word index `i`: the value written if `i` is its index, else as it was (R18, R19). -/
theorem wordAt_storeInto {m : Nat} (r : BitVec m) {base n i j : Nat} (v : RegWord) (hj : j < n) (hm : 32 * n ≤ m) :
    wordAt (storeInto r base n i v) j = if i = base + j then v else wordAt r j := by
  by_cases h : base ≤ i ∧ i < base + n
  · rw [storeInto, if_pos h]
    by_cases hij : i = base + j
    · rw [if_pos hij, hij, Nat.add_sub_cancel_left]
      exact wordAt_putWord_same r j v (by omega)
    · rw [if_neg hij]
      exact wordAt_putWord_other r v (by omega)
  · rw [storeInto_of_outside r v h, if_neg (by omega)]

/-- The words of a register that holds word index `i`, after a write to that index. -/
theorem wordAt_storeInto_inside {m : Nat} (r : BitVec m) {base n i j : Nat} (v : RegWord) (hi : base ≤ i) (hj : j < n)
    (hm : 32 * n ≤ m) : wordAt (storeInto r base n i v) j = if j = i - base then v else wordAt r j := by
  rw [wordAt_storeInto r v hj hm]
  simp only [show i = base + j ↔ j = i - base by omega]

/-- Every readable word after a write to a register word (R15, R31). -/
theorem wordContents_storeWord (s : State) (w : BitVec 6) (v : RegWord) {w' : BitVec 6} (h : readableWord w'.toNat) :
    wordContents (storeWord s w v) w' = if w = w' then v else wordContents s w' := by
  have hread : ∀ {base : Nat}, base ≤ w'.toNat → (w = w' ↔ w.toNat = base + (w'.toNat - base)) := by
    intro base hbase
    rw [Nat.add_sub_cancel' hbase, BitVec.toNat_inj]
  by_cases hA : w'.toNat ≤ 3
  · have hr : 2 ≤ w'.toNat ∧ w'.toNat ≤ 3 := by simp only [readableWord] at h; omega
    simp only [wordContents_aadLen _ hr, hread hr.1]
    exact wordAt_storeInto s.aadLen v (by omega) (by decide)
  by_cases hM : w'.toNat ≤ 5
  · have hr : 4 ≤ w'.toNat ∧ w'.toNat ≤ 5 := by omega
    simp only [wordContents_msgLen _ hr, hread hr.1]
    exact wordAt_storeInto s.msgLen v (by omega) (by decide)
  by_cases hN : w'.toNat ≤ 11
  · have hr : 8 ≤ w'.toNat ∧ w'.toNat ≤ 11 := by simp only [readableWord] at h; omega
    simp only [wordContents_nonce _ hr, hread hr.1]
    exact wordAt_storeInto s.nonce v (by omega) (by decide)
  · have hr : 12 ≤ w'.toNat ∧ w'.toNat ≤ 15 := by simp only [readableWord] at h; omega
    simp only [wordContents_tag _ hr, hread hr.1]
    exact wordAt_storeInto s.tag v (by omega) (by decide)

theorem regRead_storeWord_same {s : State} (hbusy : s.status.busy = false) {w : BitVec 6} (h : readableWord w.toNat)
    (v : RegWord) : regRead (storeWord s w v) w = v := by
  rw [regRead_idle (s := storeWord s w v) hbusy (by simp only [readableWord] at h; omega), wordContents_storeWord s w v h, if_pos rfl]

theorem regRead_storeWord_other {s : State} (hbusy : s.status.busy = false) {w w' : BitVec 6} (hne : w' ≠ w) (v : RegWord) :
    regRead (storeWord s w v) w' = regRead s w' := by
  by_cases h1 : w' = 1
  · rw [regRead, regRead, if_pos h1, if_pos h1, storeWord_status]
  have hw1 : w'.toNat ≠ 1 := fun h => h1 (BitVec.eq_of_toNat_eq h)
  rw [regRead_idle hbusy hw1, regRead_idle (s := storeWord s w v) hbusy hw1]
  by_cases h : readableWord w'.toNat
  · rw [wordContents_storeWord s w v h, if_neg hne.symm]
  · rw [wordContents_unreadable _ h, wordContents_unreadable _ h]

/-- A write to a word of `AAD_LEN` changes nothing else; likewise below for the other registers. -/
theorem storeWord_of_aadLen (s : State) {w : BitVec 6} (v : RegWord) (h : 2 ≤ w.toNat ∧ w.toNat ≤ 3) :
    storeWord s w v = { s with aadLen := storeInto s.aadLen 2 2 w.toNat v } := by
  simp (disch := omega) only [storeWord, storeInto_of_outside]

theorem storeWord_of_msgLen (s : State) {w : BitVec 6} (v : RegWord) (h : 4 ≤ w.toNat ∧ w.toNat ≤ 5) :
    storeWord s w v = { s with msgLen := storeInto s.msgLen 4 2 w.toNat v } := by
  simp (disch := omega) only [storeWord, storeInto_of_outside]

theorem storeWord_of_nonce (s : State) {w : BitVec 6} (v : RegWord) (h : 8 ≤ w.toNat ∧ w.toNat ≤ 11) :
    storeWord s w v = { s with nonce := storeInto s.nonce 8 4 w.toNat v } := by
  simp (disch := omega) only [storeWord, storeInto_of_outside]

theorem storeWord_of_tag (s : State) {w : BitVec 6} (v : RegWord) (h : 12 ≤ w.toNat ∧ w.toNat ≤ 15) :
    storeWord s w v = { s with tag := storeInto s.tag 12 4 w.toNat v } := by
  simp (disch := omega) only [storeWord, storeInto_of_outside]

theorem storeWord_of_key (s : State) {w : BitVec 6} (v : RegWord) (h : 16 ≤ w.toNat ∧ w.toNat ≤ 23) :
    storeWord s w v = { s with key := storeInto s.key 16 8 w.toNat v } := by
  simp (disch := omega) only [storeWord, storeInto_of_outside]

theorem storeWord_of_unmapped (s : State) {w : BitVec 6} (v : RegWord)
    (h : w.toNat = 1 ∨ w.toNat = 6 ∨ w.toNat = 7 ∨ 24 ≤ w.toNat) : storeWord s w v = s := by
  simp (disch := omega) only [storeWord, storeInto_of_outside]

/-- Settles O40: the register of the index is found by the ranges of R15; its words follow from the store of one word. -/
theorem registerWordReadsBack : Obligations.RegisterWordReadsBack := by
  intro s w v hbusy hw
  have hread : regRead s w = wordContents s w := regRead_idle hbusy (by omega)
  refine ⟨fun h => ?_, fun h => ?_, fun h => ?_, fun h => ?_, storeWord s w v, regWrite_idle hbusy (by omega) v,
    regRead_storeWord_same hbusy hw v, fun w' hne => regRead_storeWord_other hbusy hne v,
    fun h => ⟨storeWord_of_aadLen s v h, fun i hi => ?_⟩, fun h => ⟨storeWord_of_msgLen s v h, fun i hi => ?_⟩,
    fun h => ⟨storeWord_of_nonce s v h, fun i hi => ?_⟩, fun h => ⟨storeWord_of_tag s v (by omega), fun i hi => ?_⟩⟩
  · rw [hread, wordContents_aadLen s h]
  · rw [hread, wordContents_msgLen s h]
  · rw [hread, wordContents_nonce s h]
  · rw [hread, wordContents_tag s (by omega)]
  · exact wordAt_storeInto_inside s.aadLen v h.1 hi (by decide)
  · exact wordAt_storeInto_inside s.msgLen v h.1 hi (by decide)
  · exact wordAt_storeInto_inside s.nonce v h.1 hi (by decide)
  · exact wordAt_storeInto_inside s.tag v h hi (by decide)

/-- Settles O41: a `KEY` word is stored and reads 0, the words without a writable register keep the state. -/
theorem writeOnlyAndUnmappedWords : Obligations.WriteOnlyAndUnmappedWords := by
  intro s w v hbusy
  refine ⟨fun h => ⟨storeWord s w v, regWrite_idle hbusy (by omega) v, storeWord_of_key s v h, fun i hi => ?_⟩,
    fun h => ?_, fun h => ?_⟩
  · exact wordAt_storeInto_inside s.key v h.1 hi (by decide)
  · rw [regWrite_idle hbusy (by omega), storeWord_of_unmapped s v h]
  · rw [regRead_idle hbusy (by omega), wordContents_unreadable s (by simp only [readableWord]; omega)]

/-! ## The `STATUS` word (R17) and what no read depends on (R147) -/

/-- The bits of `STATUS` appended one by one: bit 0 is the last one appended, the others move up. -/
theorem getLsbD_append_ofBool {n : Nat} (x : BitVec n) (b : Bool) (i : Nat) :
    (x ++ BitVec.ofBool b).getLsbD i = if i = 0 then b else x.getLsbD (i - 1) :=
  BitVec.getLsbD_concat x b i

/-- Every bit of the `STATUS` word (R17). -/
theorem getLsbD_statusWord (st : Status) (i : Nat) :
    st.word.getLsbD i =
      ([st.busy, st.done, st.authOk, st.authFail, st.stratTable, st.ways8, st.cmdErr][i]?).getD false := by
  simp only [Status.word, getLsbD_append_ofBool]
  match i with
  | 0 | 1 | 2 | 3 | 4 | 5 | 6 => rfl
  | i + 7 => simp

/-- Settles O39. -/
theorem statusWordBits : Obligations.StatusWordBits := by
  intro s
  simp only [getLsbD_statusWord]
  refine ⟨rfl, rfl, rfl, rfl, rfl, rfl, rfl, rfl, fun i hi => ?_⟩
  rw [List.getElem?_eq_none (by simpa using hi)]
  rfl

/-- A register read depends on `STATUS` and the readable registers alone. -/
theorem regRead_congr {s u : State} (hst : u.status = s.status) (ha : u.aadLen = s.aadLen) (hm : u.msgLen = s.msgLen)
    (hn : u.nonce = s.nonce) (ht : u.tag = s.tag) (w : BitVec 6) : regRead u w = regRead s w := by
  simp only [regRead, wordContents, hst, ha, hm, hn, ht]

/-- A buffer read depends on `STATUS`, the capacity and the byte alone. -/
theorem bufRead_congr {s u : State} (hst : u.status = s.status) (hc : ∀ sp, u.capacity sp = s.capacity sp)
    (hm : ∀ sp, u.mem sp = s.mem sp) (hl : u.launch = s.launch) (sp : Space) (a : BitVec 37) :
    bufRead u sp a = bufRead s sp a := by
  simp only [bufRead, hst, hc, readByte_congr (hm sp) hl]

/-- Settles O44: none of what a read depends on is among the secrets. -/
theorem secretsHaveNoReadPath : Obligations.SecretsHaveNoReadPath := by
  intro s u h
  rw [h]
  exact ⟨regRead_congr rfl rfl rfl rfl rfl, bufRead_congr rfl (fun _ => rfl) (fun _ => rfl) rfl⟩

end Sys2Proof.Machine
/-! SUPPORT and CERTIFICATES. The frame of every instruction: what no instruction changes (R11, R32, R53). -/
namespace Sys2Proof.Machine

/-- What instruction `i` leaves when it takes `s` to `t`: the operands, the parameters, the model's own fields and `OUT_BUF` from `MSG_LEN`
on; `TAG` and `KEY` but in the instructions that write them. -/
structure InstrFrame (i : Instr) (s t : State) : Prop where
  /-- The fields an instruction may write at all. -/
  written : t = { s with
    tag := t.tag, key := t.key, h := t.h, rek := t.rek, acc := t.acc, pretag := t.pretag, tagc := t.tagc, cb := t.cb,
    diff := t.diff, phase := t.phase, opc := t.opc, blk := t.blk, ks := t.ks, htable := t.htable, scratch := t.scratch,
    status := t.status, outBuf := t.outBuf }
  beyond : ∀ a, s.msgLen.toNat ≤ a → t.readByte .outBuf a = s.readByte .outBuf a
  tag : i ≠ .tagEncSeal → t.tag = s.tag
  key : i ≠ .wipe → i ≠ .clear → t.key = s.key

/-- An instruction that writes the internal registers, the sequencer, the context and `STATUS` only. -/
theorem frame_of_internal {i : Instr} {s t : State}
    (h : t = { s with
      h := t.h, rek := t.rek, acc := t.acc, pretag := t.pretag, tagc := t.tagc, cb := t.cb, diff := t.diff,
      phase := t.phase, opc := t.opc, blk := t.blk, ks := t.ks, htable := t.htable, scratch := t.scratch,
      status := t.status }) : InstrFrame i s t := by
  rw [h]
  exact ⟨rfl, fun _ _ => rfl, fun _ => rfl, fun _ _ => rfl⟩

theorem launchCommand_frame {i : Instr} {s t : State} {o : BitVec 4} {a b : Bool} (h : launchCommand s o a b = .next t) :
    InstrFrame i s t := by
  obtain ⟨-, rfl⟩ | ⟨-, -, rfl⟩ := launchCommand_next.1 h <;> exact frame_of_internal rfl

theorem execClearContext_frame {i : Instr} {s t : State} (h : execClearContext s = .next t) : InstrFrame i s t := by
  obtain ⟨-, rfl⟩ | ⟨-, h⟩ := unlessBusy_next.1 h
  · exact frame_of_internal rfl
  · obtain rfl := Host.Outcome.next.inj h
    exact frame_of_internal rfl

theorem hashPass_frame {i : Instr} {s t : State} {sp : Space} {len : BitVec 64} {exit : Phase}
    (h : hashPass s sp len exit = .next t) : InstrFrame i s t := by
  obtain ⟨-, rfl⟩ | ⟨-, -, -, rfl⟩ | ⟨-, -, -, rfl⟩ := hashPass_next.1 h <;> exact frame_of_internal rfl

/-- A batch of message blocks writes no byte of `OUT_BUF` at or beyond `MSG_LEN`. -/
theorem readByte_batch_beyond (s : State) (j r : Nat) {a : Nat} (ha : s.msgLen.toNat ≤ a) :
    (xorBlocks (keystreamBatch s r) j r).readByte .outBuf a = s.readByte .outBuf a := by
  rw [readByte_xorBlocks, if_neg (by rw [keystreamBatch_msgLen]; omega)]
  exact readByte_congr (keystreamBatch_mem s r _) (by simp) a

theorem execCtrEnc_frame {i : Instr} {s t : State} (h : execCtrEnc s = .next t) : InstrFrame i s t := by
  obtain ⟨-, rfl⟩ | ⟨-, r, -, -, rfl⟩ := execCtrEnc_next.1 h
  · exact frame_of_internal rfl
  · exact ⟨by apply state_ext <;> simp, fun _ ha => readByte_batch_beyond s _ r ha, fun _ => by simp, fun _ _ => by simp⟩

theorem execDecHash_frame {i : Instr} {s t : State} (h : execDecHash s = .next t) : InstrFrame i s t := by
  obtain ⟨-, rfl⟩ | ⟨-, r, -, -, rfl⟩ := execDecHash_next.1 h
  · exact frame_of_internal rfl
  · exact ⟨by apply state_ext <;> simp, fun _ ha => readByte_batch_beyond s _ r ha, fun _ => by simp, fun _ _ => by simp⟩

/-- A block copied back writes no byte of `OUT_BUF` at or beyond `MSG_LEN`. -/
theorem readByte_copyBlock_beyond {s : State} {j a : Nat} (hj : j < nblk s.msgLen) (ha : s.msgLen.toNat ≤ a) :
    (copyBlock s j).readByte .outBuf a = s.readByte .outBuf a := by
  have hend : 16 * j + validBytes s.msgLen j ≤ s.msgLen.toNat := Nat.le_trans (validBytes_end_le hj) (Nat.min_le_right _ _)
  rw [copyBlock, readByte_memWrite, if_neg (by omega)]

theorem execCopyback_frame {i : Instr} {s t : State} (h : execCopyback s = .next t) : InstrFrame i s t := by
  obtain ⟨-, rfl⟩ | ⟨hlt, -, rfl⟩ := execCopyback_next.1 h
  · exact frame_of_internal rfl
  · exact ⟨by apply state_ext <;> simp [copyBlock], fun _ ha => readByte_copyBlock_beyond hlt ha,
      fun _ => by simp [copyBlock], fun _ _ => by simp [copyBlock]⟩

theorem exec_frame {i : Instr} {s t : State} (h : exec i s = .next t) : InstrFrame i s t := by
  cases i with
  | sealAuto | sealSeq | sealTable | openCmd => exact launchCommand_frame h
  | clearContext => exact execClearContext_frame h
  | idle | deriveH | deriveK1 | deriveK2 | htBuild | hashLen | final | ksRek | tagEncOpen | tagCmp =>
    obtain rfl := Host.Outcome.next.inj h
    exact frame_of_internal rfl
  | hashAad | hashMsg => exact hashPass_frame h
  | tagEncSeal =>
    obtain rfl := Host.Outcome.next.inj h
    exact ⟨rfl, fun _ _ => rfl, fun hi => absurd rfl hi, fun _ _ => rfl⟩
  | wipe =>
    obtain rfl := Host.Outcome.next.inj h
    exact ⟨rfl, fun _ _ => rfl, fun _ => rfl, fun hi => absurd rfl hi⟩
  | clear =>
    obtain rfl := Host.Outcome.next.inj h
    exact ⟨rfl, fun _ _ => rfl, fun _ => rfl, fun _ hi => absurd rfl hi⟩
  | ctrEnc => exact execCtrEnc_frame h
  | decHash => exact execDecHash_frame h
  | copyback => exact execCopyback_frame h

/-- Settles O53: read off the frame of the instruction. -/
theorem instructionsLeaveTheOperands : Obligations.InstructionsLeaveTheOperands := by
  intro i s t h
  obtain ⟨written, beyond, tag, key⟩ := exec_frame h
  refine ⟨?_, ?_, ?_, ?_, ?_, beyond, tag, key, ?_, ?_, ?_, ?_⟩ <;> rw [written]

end Sys2Proof.Machine
/-! SUPPORT and CERTIFICATES. Which move a step makes (R44, R46, R50), the busy lockout of the host port (R36), the buffer bytes behind it
(R33), and which of them a hash step reads (R35). -/
namespace Sys2Proof.Machine

/-! ## Which bytes a hash step reads (R35, R83, R86, R88) -/

theorem batchAbsorb_setMem (s : State) (sp : Space) (m : Memory) (xs : List Block) :
    batchAbsorb (s.setMem sp m) xs = batchAbsorb s xs := by
  simp only [batchAbsorb, setMem_cfg, setMem_htable, setMem_acc]

theorem mac_setMem (s : State) (sp : Space) (m : Memory) (x : Block) : mac (s.setMem sp m) x = mac s x := by
  simp only [mac, setMem_cfg, setMem_acc, setMem_h]

/-- A buffer replaced by one whose valid bytes read alike makes no difference to a step of a hash pass. -/
theorem hashPass_setMem {s t : State} {sp sp' : Space} {m : Memory} {len : BitVec 64} {exit : Phase}
    (hread : ∀ a, a < len.toNat → (s.setMem sp' m).readByte sp a = s.readByte sp a)
    (h : hashPass s sp len exit = .next t) : hashPass (s.setMem sp' m) sp len exit = .next (t.setMem sp' m) := by
  rw [hashPass_next]
  simp only [setMem_blk, setMem_status, setMem_capacity, batchAbsorb_setMem, mac_setMem, blks_congr _ _ _ hread,
    blk_congr _ _ hread]
  obtain ⟨hge, rfl⟩ | ⟨hlt, htable, hcap, rfl⟩ | ⟨hlt, htable, hcap, rfl⟩ := hashPass_next.1 h
  · exact .inl ⟨hge, by cases sp' <;> rfl⟩
  · exact .inr (.inl ⟨hlt, htable, hcap, by cases sp' <;> rfl⟩)
  · exact .inr (.inr ⟨hlt, htable, hcap, by cases sp' <;> rfl⟩)

theorem execHashLen_setMem {s t : State} (sp : Space) (m : Memory) (h : execHashLen s = .next t) :
    execHashLen (s.setMem sp m) = .next (t.setMem sp m) := by
  obtain rfl := Host.Outcome.next.inj h
  cases sp <;> rfl

/-- Settles O21: the two passes read blocks, which end at the length; `HASH_LEN` reads no buffer. -/
theorem bytesBeyondTheLengthDoNotMatter : Obligations.BytesBeyondTheLengthDoNotMatter := by
  rintro s sp m _ rfl haad hmsg i hi t h
  simp only [List.mem_cons, List.not_mem_nil, or_false] at hi
  obtain rfl | rfl | rfl := hi
  · simp only [exec, execHashAad, setMem_aadLen, setMem_opc] at h ⊢
    exact hashPass_setMem haad h
  · simp only [exec, execHashMsg, setMem_msgLen] at h ⊢
    exact hashPass_setMem hmsg h
  · exact execHashLen_setMem sp m h

/-! ## The buffer bytes behind the host port (R33) -/

theorem bufRead_inside {s : State} (hbusy : s.status.busy = false) {sp : Space} {a : BitVec 37}
    (ha : a.toNat < s.capacity sp) : bufRead s sp a = s.readByte sp a.toNat := by
  rw [bufRead, hbusy, if_neg Bool.false_ne_true, if_neg (Nat.not_le.2 ha)]

theorem bufRead_beyond {s : State} {sp : Space} {a : BitVec 37} (ha : s.capacity sp ≤ a.toNat) : bufRead s sp a = 0 := by
  rw [bufRead, if_pos ha, ite_self]

theorem bufWrite_inside {s : State} (hbusy : s.status.busy = false) {sp : Space} {a : BitVec 37} (b : Byte)
    (ha : a.toNat < s.capacity sp) : bufWrite s sp a b = .next (s.writeByte sp a.toNat b) :=
  bufWrite_next.2 (.inr (.inr ⟨hbusy, ha, rfl⟩))

theorem bufWrite_beyond {s : State} (hbusy : s.status.busy = false) {sp : Space} {a : BitVec 37} (b : Byte)
    (ha : s.capacity sp ≤ a.toNat) : bufWrite s sp a b = .next s :=
  bufWrite_next.2 (.inr (.inl ⟨hbusy, ha, rfl⟩))

/-- Every byte of every space after one is written. -/
theorem readByte_writeByte (s : State) (sp sp' : Space) (a a' : Nat) (b : Byte) :
    (s.writeByte sp a b).readByte sp' a' = if sp' = sp ∧ a' = a then b else s.readByte sp' a' := by
  by_cases h : sp' = sp ∧ a' = a
  · obtain ⟨rfl, rfl⟩ := h
    rw [readByte_writeByte_same, if_pos ⟨rfl, rfl⟩]
  · rw [readByte_writeByte_other s b (Decidable.not_and_iff_or_not.1 h), if_neg h]

/-- A byte written is not seen by a host read of another offset or space. -/
theorem bufRead_writeByte_other (s : State) {sp sp' : Space} {a a' : BitVec 37} (b : Byte) (h : sp' ≠ sp ∨ a' ≠ a) :
    bufRead (s.writeByte sp a.toNat b) sp' a' = bufRead s sp' a' := by
  have h' : sp' ≠ sp ∨ a'.toNat ≠ a.toNat := h.imp_right fun hne heq => hne (BitVec.eq_of_toNat_eq heq)
  simp only [bufRead, writeByte_status, writeByte_capacity, readByte_writeByte_other s b h']

/-- Settles O42: inside the capacity a write is `writeByte` and a read is `readByte`. -/
theorem bufferByteReadsBack : Obligations.BufferByteReadsBack := by
  intro s sp a b hbusy
  refine ⟨bufRead_inside hbusy, fun ha => ?_, fun ha => ⟨bufWrite_beyond hbusy b ha, bufRead_beyond ha⟩⟩
  refine ⟨s.writeByte sp a.toNat b, bufWrite_inside hbusy b ha, ?_, fun sp' n => readByte_writeByte s sp sp' a.toNat n b,
    fun sp' a' h => bufRead_writeByte_other s b h, by cases sp <;> rfl⟩
  rw [bufRead_inside (by rwa [writeByte_status]) (by rwa [writeByte_capacity]), readByte_writeByte_same]

/-! ## The busy lockout (R36) -/

theorem unlessBusy_busy {s : State} (hbusy : s.status.busy = true) (r : Result) : unlessBusy s r = .next s := if_pos hbusy

theorem regRead_busy {s : State} (hbusy : s.status.busy = true) (w : BitVec 6) :
    regRead s w = if w = 1 then s.status.word else 0 := by
  rw [regRead, if_pos hbusy]

theorem bufRead_busy {s : State} (hbusy : s.status.busy = true) (sp : Space) (a : BitVec 37) : bufRead s sp a = 0 :=
  if_pos hbusy

/-- Settles O10: the acceptance of each command is guarded by the lockout. -/
theorem commandsAreDroppedWhileBusy : Obligations.CommandsAreDroppedWhileBusy := by
  intro s i hbusy hi
  simp only [List.mem_cons, List.not_mem_nil, or_false] at hi
  obtain rfl | rfl | rfl | rfl | rfl := hi <;> exact unlessBusy_busy hbusy _

/-! ## Which move a step makes (R44, R46, R50) -/

theorem step_of_no_input {s : State} (h : s.inputs = []) : step s = engineStep s := by rw [step, nextMove, h]

theorem step_of_input {s : State} {i : Input} {rest : List Input} (h : s.inputs = i :: rest) :
    step s = applyInput { s with inputs := rest } i := by rw [step, nextMove, h]

theorem engineStep_of_decode {s : State} {i : Instr} (h : decode s.nextCode = .ok i) : engineStep s = exec i s := by
  rw [engineStep, h]

/-- A legal word written to `CMD` while idle runs its command (R44). -/
theorem regWrite_of_decode {s : State} (hbusy : s.status.busy = false) {v : BitVec 32} {i : Instr}
    (h : decode (.cmd v) = .ok i) : regWrite s 0 v = exec i s := by
  rw [regWrite, unlessBusy, hbusy, if_neg Bool.false_ne_true, if_pos rfl, commandAttempt, h]

/-- Settles O43: with the operation used up the machine is still busy, and each of the four is locked out. -/
theorem busyLockout : Obligations.BusyLockout := by
  intro s op rest hbusy h
  rw [step_of_input h]
  cases op with
  | regRead w => rw [applyInput, hostOp, regRead_busy (s := { s with inputs := rest }) hbusy]; rfl
  | bufRead sp a => rw [applyInput, hostOp, bufRead_busy (s := { s with inputs := rest }) hbusy]; rfl
  | regWrite w v =>
    rw [List.append_nil]
    exact unlessBusy_busy (s := { s with inputs := rest }) hbusy _
  | bufWrite sp a b =>
    rw [List.append_nil]
    exact unlessBusy_busy (s := { s with inputs := rest }) hbusy _

/-- Settles O5: a step is the engine step or the next input; the engine step and a write to `CMD` run what they decode. -/
theorem stepRunsTheDecodedInstruction : Obligations.StepRunsTheDecodedInstruction := by
  refine ⟨fun s i h hi => ?_, fun s i rest h hi => ?_, fun s i v rest h hbusy hi => ?_, fun s w v rest h => step_of_input h,
    fun s sp a b rest h => step_of_input h, fun s w rest h => step_of_input h, fun s sp a rest h => step_of_input h⟩
  · rw [step_of_no_input h, engineStep_of_decode hi]
  · rw [step_of_input h]
    exact engineStep_of_decode hi
  · rw [step_of_input h]
    exact regWrite_of_decode (s := { s with inputs := rest }) hbusy hi

end Sys2Proof.Machine
/-! SUPPORT and CERTIFICATES. Decoding and encoding (30_encoding.md R40 to R47), the write to `CMD` (R44), `IDLE` (R46, R148) and the
spin-wait (R49). -/
namespace Sys2Proof.Machine

/-! ## The encoding of every instruction is read back (R44, R45) -/

theorem encoding_statement (i : Instr) : Laws.Encoding.Statement i := by
  cases i with
  | sealAuto => exact Laws.Encoding.sealAuto
  | sealSeq => exact Laws.Encoding.sealSeq
  | sealTable => exact Laws.Encoding.sealTable
  | openCmd => exact Laws.Encoding.openCmd
  | clearContext => exact Laws.Encoding.clearContext
  | idle => exact Laws.Encoding.idle
  | deriveH => exact Laws.Encoding.deriveH
  | deriveK1 => exact Laws.Encoding.deriveK1
  | deriveK2 => exact Laws.Encoding.deriveK2
  | htBuild => exact Laws.Encoding.htBuild
  | hashAad => exact Laws.Encoding.hashAad
  | hashMsg => exact Laws.Encoding.hashMsg
  | hashLen => exact Laws.Encoding.hashLen
  | final => exact Laws.Encoding.final
  | tagEncSeal => exact Laws.Encoding.tagEncSeal
  | tagEncOpen => exact Laws.Encoding.tagEncOpen
  | ctrEnc => exact Laws.Encoding.ctrEnc
  | ksRek => exact Laws.Encoding.ksRek
  | decHash => exact Laws.Encoding.decHash
  | tagCmp => exact Laws.Encoding.tagCmp
  | copyback => exact Laws.Encoding.copyback
  | wipe => exact Laws.Encoding.wipe
  | clear => exact Laws.Encoding.clear

@[simp] theorem decode_encode (i : Instr) : decode (encode i) = .ok i := (encoding_statement i rfl).2

@[simp] theorem wellFormed_encode (i : Instr) : (encode i).wellFormed = true := (encoding_statement i rfl).1

/-! ## Command words (R41 to R44) -/

/-- A word is its three fields (R41). -/
theorem word_eq_fields (v : BitVec 32) : v = v.extractLsb' 6 26 ++ v.extractLsb' 4 2 ++ v.extractLsb' 0 4 := by
  have hhigh : v.extractLsb' 6 26 ++ v.extractLsb' 4 2 = v.extractLsb' 4 28 :=
    BitVec.extractLsb'_append_extractLsb'_eq_extractLsb' rfl
  have hall : v.extractLsb' 4 28 ++ v.extractLsb' 0 4 = v.extractLsb' 0 32 :=
    BitVec.extractLsb'_append_extractLsb'_eq_extractLsb' rfl
  rw [hhigh, hall, BitVec.extractLsb'_eq_self]

/-- A word that decodes is the code of what it decodes to: no reserved bit is set (R41), the opcode is 1, 2 or 3 (R42), the mode is 0, 1
or 2 (R43), and of these nine words the decoder answers five. -/
theorem encode_of_decodeCmd {v : BitVec 32} {i : Instr} (h : decodeCmd v = .ok i) : encode i = .cmd v := by
  rw [word_eq_fields v]
  simp only [decodeCmd] at h
  generalize v.extractLsb' 0 4 = opc, v.extractLsb' 4 2 = hmode, v.extractLsb' 6 26 = rsvd at h ⊢
  split at h
  · cases h
  next hrsvd =>
  obtain rfl : rsvd = 0 := Decidable.not_not.1 hrsvd
  split at h
  · cases h
  split at h
  · cases h
  have hopc : opc = 1 ∨ opc = 2 ∨ opc = 3 := by bv_omega
  have hmode : hmode = 0 ∨ hmode = 1 ∨ hmode = 2 := by bv_omega
  obtain rfl | rfl | rfl := hopc <;> obtain rfl | rfl | rfl := hmode <;> cases h <;> rfl

/-! ## Phase codes (R45, R46) -/

/-- Only code 9 is read with `OPC` (R45). -/
theorem decodePhase_opc {o opc : BitVec 4} {code : BitVec 5} (h : code = 9 → o = opc) : decodePhase opc code = decodePhase o code := by
  by_cases hcode : code = 9
  · rw [h hcode]
  · have hne : code.toNat ≠ 9 := fun h9 => hcode (BitVec.eq_of_toNat_eq h9)
    simp only [decodePhase]
    split
    case h_10 h9 => exact absurd h9 hne
    all_goals rfl

/-- Only code 9 needs `OPC` to be well formed (R45). -/
theorem wellFormed_phase_opc {o opc : BitVec 4} {code : BitVec 5} (h : code = 9 → o = opc) :
    (Code.phase opc code).wellFormed = (Code.phase o code).wellFormed := by
  by_cases hcode : code = 9
  · rw [h hcode]
  · simp only [Code.wellFormed, bne_iff_ne.2 hcode, Bool.true_or]

/-- Code 9 is the code of `TAG_ENC` under the `OPC` it was read with (R102, R114). -/
theorem encode_of_decodeTagEnc {opc : BitVec 4} {i : Instr} (h : decodeTagEnc opc = .ok i) : encode i = .phase opc 9 := by
  unfold decodeTagEnc at h
  split at h
  · next hopc => subst hopc; cases h; rfl
  · split at h
    · next hopc => subst hopc; cases h; rfl
    · cases h

/-- A phase code that decodes is the code of what it decodes to; `OPC` stands in it for code 9 alone. -/
theorem encode_of_decodePhase {opc : BitVec 4} {code : BitVec 5} {i : Instr} (h : decodePhase opc code = .ok i) :
    encode i = .phase (if code = 9 then opc else 0) code := by
  have hnum : code = BitVec.ofNat 5 code.toNat := by simp
  rw [hnum]
  unfold decodePhase at h
  split at h
  case h_10 hcode => rw [hcode]; exact encode_of_decodeTagEnc h
  case h_18 => cases h
  all_goals
    rename_i hcode
    rw [hcode]
    cases h
    rfl

/-! ## Both directions (R44, R45) -/

theorem decode_cmd_eq_ok_iff {v : BitVec 32} {i : Instr} : decode (.cmd v) = .ok i ↔ encode i = .cmd v :=
  ⟨encode_of_decodeCmd, fun h => h ▸ decode_encode i⟩

theorem decode_phase_eq_ok_iff {opc : BitVec 4} {code : BitVec 5} {i : Instr} :
    decode (.phase opc code) = .ok i ↔ ∃ o, encode i = .phase o code ∧ (code = 9 → o = opc) := by
  constructor
  · exact fun h => ⟨_, encode_of_decodePhase h, fun h9 => if_pos h9⟩
  · rintro ⟨o, henc, ho⟩
    calc decode (.phase opc code) = decode (.phase o code) := decodePhase_opc ho
      _ = decode (encode i) := by rw [henc]
      _ = .ok i := decode_encode i

/-- Settles O2: an instruction's code decodes to it, and what decodes at all is a code so obtained, up to an `OPC` that is not read. -/
theorem decodeAndEncodeAgree : Obligations.DecodeAndEncodeAgree :=
  ⟨decode_encode, fun _ _ => decode_cmd_eq_ok_iff, fun _ _ _ => decode_phase_eq_ok_iff⟩

/-! ## The codes that decode (R44 to R47) -/

/-- What decodes is well formed: it is the code of an instruction, up to an `OPC` that is not read. -/
theorem wellFormed_of_decode {c : Code} {i : Instr} (h : decode c = .ok i) : c.wellFormed = true := by
  cases c with
  | cmd v => rw [← decode_cmd_eq_ok_iff.1 h]; exact wellFormed_encode i
  | phase opc code =>
    obtain ⟨o, henc, ho⟩ := decode_phase_eq_ok_iff.1 h
    rw [wellFormed_phase_opc ho, ← henc]
    exact wellFormed_encode i

theorem mem_legalCommandWords {v : BitVec 32} :
    v ∈ legalCommandWords ↔ v = 0x00000001 ∨ v = 0x00000011 ∨ v = 0x00000021 ∨ v = 0x00000002 ∨ v = 0x00000003 := by
  simp only [legalCommandWords, List.mem_cons, List.not_mem_nil, or_false]

/-- The five words of R44 decode. -/
theorem decodes_of_legalCommandWord {v : BitVec 32} (h : v ∈ legalCommandWords) : ∃ i, decode (.cmd v) = .ok i := by
  obtain rfl | rfl | rfl | rfl | rfl := mem_legalCommandWords.1 h
  · exact ⟨.sealAuto, rfl⟩
  · exact ⟨.sealSeq, rfl⟩
  · exact ⟨.sealTable, rfl⟩
  · exact ⟨.openCmd, rfl⟩
  · exact ⟨.clearContext, rfl⟩

/-- Every code up to 16 has a rule, code 9 under `OPC` 1 or 2 (R45, R46). -/
theorem decodes_of_wellFormed_phase {opc : BitVec 4} {code : BitVec 5} (h : (Code.phase opc code).wellFormed = true) :
    ∃ i, decode (.phase opc code) = .ok i := by
  simp only [Code.wellFormed, Bool.and_eq_true, Bool.or_eq_true, decide_eq_true_eq, bne_iff_ne, beq_iff_eq, or_assoc] at h
  obtain ⟨hle, h9⟩ := h
  simp only [decode, decodePhase]
  split
  case h_10 hcode =>
    obtain rfl | rfl := h9.resolve_left fun hne => hne (BitVec.eq_of_toNat_eq hcode)
    · exact ⟨.tagEncSeal, rfl⟩
    · exact ⟨.tagEncOpen, rfl⟩
  case h_18 => simp only [imp_false] at *; omega
  all_goals exact ⟨_, rfl⟩

/-- Settles O3. -/
theorem decoderAcceptsExactlyTheWellFormed : Obligations.DecoderAcceptsExactlyTheWellFormed := by
  refine fun c => ⟨fun ⟨_, h⟩ => wellFormed_of_decode h, fun h => ?_⟩
  cases c with
  | cmd v => exact decodes_of_legalCommandWord (List.contains_iff_mem.1 h)
  | phase opc code => exact decodes_of_wellFormed_phase h

/-- Settles O4. -/
theorem printedWordsDecode : Obligations.PrintedWordsDecode :=
  ⟨rfl, rfl, rfl, rfl, rfl, rfl, rfl, rfl, rfl, rfl, rfl, rfl, rfl, rfl⟩

/-! ## The write to `CMD` (R44, R47) -/

/-- A word that is none of the five is rejected. -/
theorem decode_cmd_rejects {v : BitVec 32} (h : v ∉ legalCommandWords) : ∃ e, decode (.cmd v) = .error e := by
  cases hv : decode (.cmd v) with
  | ok i => exact absurd (List.contains_iff_mem.1 (wellFormed_of_decode hv)) h
  | error e => exact ⟨e, rfl⟩

/-- A rejected word written to `CMD` while idle sets `CMD_ERR` and changes nothing else (R44, R47). -/
theorem regWrite_of_reject {s : State} (hbusy : s.status.busy = false) {v : BitVec 32} (h : v ∉ legalCommandWords) :
    regWrite s 0 v = .next { s with status := { s.status with cmdErr := true } } := by
  obtain ⟨e, he⟩ := decode_cmd_rejects h
  rw [regWrite, unlessBusy, hbusy, if_neg Bool.false_ne_true, if_pos rfl, commandAttempt, he]

/-- Settles O1: each of the five words runs what it decodes to, every other word is rejected, and the lockout guards them all. -/
theorem commandAttemptDecodesExactlyFiveWords : Obligations.CommandAttemptDecodesExactlyFiveWords := by
  refine fun s v => ⟨fun hbusy => ?_, fun hbusy => unlessBusy_busy hbusy _⟩
  by_cases hlegal : v ∈ legalCommandWords
  · obtain rfl | rfl | rfl | rfl | rfl := mem_legalCommandWords.1 hlegal
    · exact regWrite_of_decode (i := .sealAuto) hbusy rfl
    · exact regWrite_of_decode (i := .sealSeq) hbusy rfl
    · exact regWrite_of_decode (i := .sealTable) hbusy rfl
    · exact regWrite_of_decode (i := .openCmd) hbusy rfl
    · exact regWrite_of_decode (i := .clearContext) hbusy rfl
  · obtain ⟨h1, h2, h3, h4, h5⟩ : v ≠ 0x00000001 ∧ v ≠ 0x00000011 ∧ v ≠ 0x00000021 ∧ v ≠ 0x00000002 ∧ v ≠ 0x00000003 := by
      simpa only [mem_legalCommandWords, not_or] using hlegal
    rw [if_neg h1, if_neg h2, if_neg h3, if_neg h4, if_neg h5]
    exact regWrite_of_reject hbusy hlegal

/-! ## `IDLE` (R46, R148) -/

/-- Settles O11: the rule of `IDLE` is the stutter, and it is the rule an engine step runs in `IDLE`. -/
theorem idleChangesNothing : Obligations.IdleChangesNothing := by
  refine fun s => ⟨rfl, fun hphase hinputs => ?_⟩
  rw [step_of_no_input hinputs, engineStep_idle hphase, execIdle]

/-! ## The spin-wait (R49) -/

/-- `STATUS` is read at any time, busy or not (R31, R36). -/
theorem regRead_status (s : State) : regRead s 1 = s.status.word := if_pos rfl

/-- Settles O45: one poll, and by `DONE` the wait is over or an engine step and another poll are due. -/
theorem waitPollsUntilDone : Obligations.WaitPollsUntilDone := by
  intro s rest hinputs
  rw [step_of_input hinputs, applyInput, hostWait, regRead_status]
  cases s.status.done with
  | true => rfl
  | false => rfl

end Sys2Proof.Machine
/-! SUPPORT and CERTIFICATES. The record-key derivation: the halves of `REK`, each of its three steps, and the three together
(41_key_derivation.md R72 to R75). -/
namespace Sys2Proof.Machine

/-! ## The halves of a key, byte by byte (R73) -/

theorem byteAt_putHigh_high (k : Key) (b : Block) {i : Nat} (hi : i < 16) : byteAt (putHigh k b) (16 + i) = byteAt b i :=
  byteAt_append_high b (lowHalf k) i hi

theorem byteAt_putHigh_low (k : Key) (b : Block) {i : Nat} (hi : i < 16) : byteAt (putHigh k b) i = byteAt k i :=
  (byteAt_append_low b (lowHalf k) i hi).trans (byteAt_lowHalf k i hi)

theorem byteAt_putLow_low (k : Key) (b : Block) {i : Nat} (hi : i < 16) : byteAt (putLow k b) i = byteAt b i :=
  byteAt_append_low (highHalf k) b i hi

theorem byteAt_putLow_high (k : Key) (b : Block) {i : Nat} (hi : i < 16) : byteAt (putLow k b) (16 + i) = byteAt k (16 + i) :=
  (byteAt_append_high (highHalf k) b i hi).trans (byteAt_highHalf k i hi)

/-! ## The half of `REK` derived first, and the other, under both placements (R73, R74) -/

theorem firstHalf_high {c : Config} (hc : c.rekFirstAtHighBytes = true) (k : Key) : firstHalf c k = highHalf k := if_pos hc

theorem firstHalf_low {c : Config} (hc : ¬ c.rekFirstAtHighBytes = true) (k : Key) : firstHalf c k = lowHalf k := if_neg hc

theorem putFirstHalf_high {c : Config} (hc : c.rekFirstAtHighBytes = true) (k : Key) (b : Block) :
    putFirstHalf c k b = putHigh k b := if_pos hc

theorem putFirstHalf_low {c : Config} (hc : ¬ c.rekFirstAtHighBytes = true) (k : Key) (b : Block) :
    putFirstHalf c k b = putLow k b := if_neg hc

theorem putSecondHalf_high {c : Config} (hc : c.rekFirstAtHighBytes = true) (k : Key) (b : Block) :
    putSecondHalf c k b = putLow k b := if_pos hc

theorem putSecondHalf_low {c : Config} (hc : ¬ c.rekFirstAtHighBytes = true) (k : Key) (b : Block) :
    putSecondHalf c k b = putHigh k b := if_neg hc

theorem byteAt_firstHalf (c : Config) (k : Key) {i : Nat} (hi : i < 16) :
    byteAt (firstHalf c k) i = byteAt k (if c.rekFirstAtHighBytes then 16 + i else i) := by
  split
  next hc => rw [firstHalf_high hc, byteAt_highHalf k i hi]
  next hc => rw [firstHalf_low hc, byteAt_lowHalf k i hi]

/-- `DERIVE_K2` reads back the half that `DERIVE_K1` wrote (R74). -/
@[simp] theorem firstHalf_putFirstHalf (c : Config) (k : Key) (b : Block) : firstHalf c (putFirstHalf c k b) = b := by
  by_cases hc : c.rekFirstAtHighBytes = true
  · rw [firstHalf_high hc, putFirstHalf_high hc, putHigh, highHalf_append]
  · rw [firstHalf_low hc, putFirstHalf_low hc, putLow, lowHalf_append]

/-- With both halves written nothing of the old key is left (R75). -/
theorem putSecondHalf_putFirstHalf (c : Config) (k : Key) (f1 f2 : Block) :
    putSecondHalf c (putFirstHalf c k f1) f2 = if c.rekFirstAtHighBytes then f1 ++ f2 else f2 ++ f1 := by
  split
  next hc => rw [putFirstHalf_high hc, putSecondHalf_high hc, putHigh, putLow, highHalf_append]
  next hc => rw [putFirstHalf_low hc, putSecondHalf_low hc, putLow, putHigh, lowHalf_append]

/-! ## Each step (R72 to R74) -/

/-- Settles O12: the old schedule is overwritten before it is read, so the rule alone says it. -/
theorem deriveHResult : Obligations.DeriveHResult := fun _ => rfl

/-- Settles O13: one half of the key is replaced, the high one or the low one by the placement. -/
theorem deriveK1WritesOneHalf : Obligations.DeriveK1WritesOneHalf := by
  refine fun s => ⟨_, rfl, rfl, fun i hi => ?_⟩
  split
  next hc =>
    rw [putFirstHalf_high hc]
    exact ⟨byteAt_putHigh_high s.rek _ hi, byteAt_putHigh_low s.rek _ hi⟩
  next hc =>
    rw [putFirstHalf_low hc]
    exact ⟨byteAt_putLow_low s.rek _ hi, byteAt_putLow_high s.rek _ hi⟩

/-- Settles O14: the sixteen bytes given make `f1` the half that `DERIVE_K1` wrote; the other half is replaced. -/
theorem deriveK2WritesTheOtherHalf : Obligations.DeriveK2WritesTheOtherHalf := by
  intro s f1 hf1
  obtain rfl : f1 = firstHalf s.cfg s.rek := block_ext fun i hi => (hf1 i hi).trans (byteAt_firstHalf s.cfg s.rek hi).symm
  refine ⟨_, rfl, rfl, fun i hi => ?_⟩
  split
  next hc =>
    rw [putSecondHalf_high hc]
    exact ⟨byteAt_putLow_low s.rek _ hi, byteAt_putLow_high s.rek _ hi⟩
  next hc =>
    rw [putSecondHalf_low hc]
    exact ⟨byteAt_putHigh_high s.rek _ hi, byteAt_putHigh_low s.rek _ hi⟩

/-! ## The three steps together (R75) -/

/-- The state after `DERIVE_H`: the schedule of `KEY` and the record hash key (R72). -/
def State.hashKeyDerived (s : State) : State :=
  { s with ks := keyExpand s.cfg s.key, h := recordHashKey s.cfg s.key s.nonce, phase := .deriveK1 }

/-- The state after `DERIVE_K1`: besides, `F1` in its half of `REK` (R73). -/
def State.firstHalfDerived (s : State) : State :=
  { s.hashKeyDerived with
    rek := putFirstHalf s.cfg s.rek (cipherE s.cfg s.key (recordHashKey s.cfg s.key s.nonce))
    phase := .deriveK2 }

/-- The state after `DERIVE_K2`: both keys are R75's functions of `KEY` and `NONCE`, and the hash starts at 0 (R74). -/
def State.keysDerived (s : State) : State :=
  { s.hashKeyDerived with
    rek := recordEncKey s.cfg s.key s.nonce
    acc := 0
    phase := if s.status.stratTable then .htBuild else .hashAad }

theorem engineStep_to_hashKeyDerived {s : State} (hphase : s.phase = .deriveH) : engineStep s = .next s.hashKeyDerived :=
  engineStep_deriveH hphase

theorem engineStep_hashKeyDerived (s : State) : engineStep s.hashKeyDerived = .next s.firstHalfDerived :=
  engineStep_deriveK1 rfl

theorem engineStep_firstHalfDerived (s : State) : engineStep s.firstHalfDerived = .next s.keysDerived := by
  have hkey : putSecondHalf s.cfg s.firstHalfDerived.rek
      (cipherE s.cfg s.key (firstHalf s.cfg s.firstHalfDerived.rek)) = recordEncKey s.cfg s.key s.nonce := by
    simp only [State.firstHalfDerived, firstHalf_putFirstHalf, putSecondHalf_putFirstHalf, recordEncKey]
  rw [State.keysDerived, ← hkey]
  exact engineStep_deriveK2 rfl

theorem run_derivation {s : State} (hphase : s.phase = .deriveH) (hinputs : s.inputs = []) :
    Host.Core.run core 3 s = .next s.keysDerived := by
  have h1 : step s = .next s.hashKeyDerived :=
    (step_of_no_input hinputs).trans (engineStep_to_hashKeyDerived hphase)
  have h2 : step s.hashKeyDerived = .next s.firstHalfDerived :=
    (step_of_no_input (s := s.hashKeyDerived) hinputs).trans (engineStep_hashKeyDerived s)
  have h3 : step s.firstHalfDerived = .next s.keysDerived :=
    (step_of_no_input (s := s.firstHalfDerived) hinputs).trans (engineStep_firstHalfDerived s)
  calc Host.Core.run core 3 s
    _ = Host.Core.run core 2 s.hashKeyDerived := run_succ 2 h1
    _ = Host.Core.run core 1 s.firstHalfDerived := run_succ 1 h2
    _ = Host.Core.run core 0 s.keysDerived := run_succ 0 h3

/-- Settles O15: `State.keysDerived` holds R75's keys by definition, and the three steps reach it. -/
theorem threeStepsDeriveTheRecordKeys : Obligations.ThreeStepsDeriveTheRecordKeys :=
  fun s hphase hinputs => ⟨s.keysDerived, run_derivation hphase hinputs, rfl, rfl, rfl, rfl, rfl⟩

end Sys2Proof.Machine
/-! SUPPORT and CERTIFICATES. The acceptance of the three SEAL words (R92, R100, R106) and the POLYVAL engine (42_polyval.md R82 to R90):
the table of powers, the batch against the sequential rule, one step of each of its phases, the length block. -/
namespace Sys2Proof.Machine

/-! ## The acceptance of a launch (R92, R100, R106) -/

theorem lengthsLegal_iff {s : State} :
    lengthsLegal s = true ↔
      s.aadLen.toNat ≤ min Config.maxLen s.cfg.aadCap ∧ s.msgLen.toNat ≤ min Config.maxLen s.cfg.msgCap := by
  simp only [lengthsLegal, Bool.and_eq_true, decide_eq_true_eq]

theorem launchCommand_accepts {s : State} (hbusy : s.status.busy = false) (hlen : lengthsLegal s = true) (o : BitVec 4) (a b : Bool) :
    launchCommand s o a b = .next (accept s o a b .deriveH) :=
  launchCommand_next.2 (.inr ⟨hbusy, hlen, rfl⟩)

theorem big_eq {s : State} {isBig : Bool} (h : isBig = true ↔ s.aadLen.toNat + s.msgLen.toNat > Config.threshold) : big s = isBig :=
  Bool.eq_iff_iff.2 (decide_eq_true_iff.trans h.symm)

/-- Settles O6: inside the precondition a launch is accepted, and the size predicate is `isBig`. -/
theorem sealAcceptance : Obligations.SealAcceptance := by
  intro s isBig hbusy haad hmsg hbig
  obtain rfl := big_eq hbig
  have hlen : lengthsLegal s = true := lengthsLegal_iff.2 ⟨haad, hmsg⟩
  exact ⟨launchCommand_accepts hbusy hlen .., launchCommand_accepts hbusy hlen .., launchCommand_accepts hbusy hlen ..⟩

/-! ## The table of powers (R84) -/

theorem getElem_eq_tableEntry (ht : Vector Block 8) {k : Nat} (hk : k < 8) : ht[k] = tableEntry ht k := by
  rw [tableEntry, Vector.getElem?_eq_getElem hk, Option.getD_some]

/-- The table `HT_BUILD` leaves holds the eight powers, whatever it held before. -/
theorem tableEntry_build_power (mul : Block → Block → Block) (h : Block) (ht : Vector Block 8) {k : Nat} (hk : k < 8) :
    tableEntry (buildTableWith mul h (Config.htEntries - 1) ht) k = power mul h k :=
  (tableEntry_build _ _ _ _ _ (by decide)).trans (if_pos (Nat.le_pred_of_lt hk))

/-- Settles O16. -/
theorem tableHoldsThePowers : Obligations.TableHoldsThePowers :=
  fun _ => ⟨_, rfl, fun _ hk => (getElem_eq_tableEntry _ hk).trans (tableEntry_build_power _ _ _ hk), rfl⟩

/-! ## A batch as a sum of products (R85) -/

/-- The first term of an xor over `n + 1` indices, and the others. -/
theorem xorSum_succ (f : Nat → Block) (n : Nat) :
    ((List.range (n + 1)).map f).foldr (· ^^^ ·) 0 = f 0 ^^^ ((List.range n).map fun i => f (i + 1)).foldr (· ^^^ ·) 0 := by
  rw [List.range_succ_eq_map, List.map_cons, List.foldr_cons, List.map_map]
  rfl

/-- Block `i + 1` of `n + 1` has as many blocks behind it as block `i` of `n`. -/
theorem blocksBehind_succ (n i : Nat) : n + 1 - 1 - (i + 1) = n - 1 - i := by omega

theorem batchTail_eq_sum (mul : Block → Block → Block) (ht : Vector Block 8) (xs : List Block) :
    batchTail mul ht xs =
      ((List.range xs.length).map fun i => mul (xs.getD i 0) (tableEntry ht (xs.length - 1 - i))).foldr (· ^^^ ·) 0 := by
  induction xs with
  | nil => rfl
  | cons x xs ih =>
    rw [batchTail, ih, List.length_cons, xorSum_succ]
    simp only [List.getD_cons_succ, blocksBehind_succ]
    rfl

/-- Settles O19: the accumulator rides with block 0, and the blocks behind it are `batchTail`. -/
theorem batchIsTheSumOfProducts : Obligations.BatchIsTheSumOfProducts := by
  intro mul ht acc xs hxs
  cases xs with
  | nil => exact absurd rfl hxs
  | cons x xs =>
    rw [batchAbsorbWith, batchTail_eq_sum, List.length_cons, xorSum_succ]
    simp only [List.getD_cons_succ, blocksBehind_succ, if_neg (Nat.succ_ne_zero _)]
    rfl

/-! ## A batch against the sequential rule (R90) -/

/-- `H^1` times `H^(k+1)` is `H^(k+2)`: R84 multiplies by `H` on the right, PD3 lets it stand on the left. -/
theorem mul_power (mul : Block → Block → Block) (hassoc : Associative mul) (h : Block) (k : Nat) :
    mul h (power mul h k) = power mul h (k + 1) := by
  induction k with
  | zero => rfl
  | succ k ih =>
    calc mul h (power mul h (k + 1))
      _ = mul (mul h (power mul h k)) h := (hassoc h (power mul h k) h).symm
      _ = power mul h (k + 2) := by rw [ih]; rfl

/-- After a first product by `H`, absorbing the blocks `xs` raises it by as many powers and adds each block times the power of the blocks
behind it. -/
theorem macAll_mul {mul : Block → Block → Block} (hlin : Bilinear mul) (hassoc : Associative mul) {ht : Vector Block 8} {h : Block}
    (a : Block) (xs : List Block) (htable : ∀ k, k < xs.length → tableEntry ht k = power mul h k) :
    macAll mul h (mul a h) xs = mul a (power mul h xs.length) ^^^ batchTail mul ht xs := by
  induction xs generalizing a with
  | nil => exact (BitVec.xor_zero).symm
  | cons x xs ih =>
    have hraise : mul (mul a h) (power mul h xs.length) = mul a (power mul h (xs.length + 1)) := by
      rw [hassoc, mul_power mul hassoc]
    calc macAll mul h (mul a h) (x :: xs)
      _ = macAll mul h (mul (mul a h ^^^ x) h) xs := rfl
      _ = mul (mul a h ^^^ x) (power mul h xs.length) ^^^ batchTail mul ht xs :=
        ih _ fun k hk => htable k (Nat.lt_succ_of_lt hk)
      _ = mul a (power mul h (xs.length + 1)) ^^^ (mul x (power mul h xs.length) ^^^ batchTail mul ht xs) := by
        rw [hlin.1, hraise, BitVec.xor_assoc]
      _ = mul a (power mul h (x :: xs).length) ^^^ batchTail mul ht (x :: xs) := by
        rw [batchTail, htable xs.length (Nat.lt_succ_self _), List.length_cons]

/-- Settles O20: the first block is absorbed with the old accumulator, the others as `macAll_mul` says. -/
theorem batchEqualsSequential : Obligations.BatchEqualsSequential := by
  intro mul ht h acc xs hlin hassoc htable
  cases xs with
  | nil => rfl
  | cons x xs =>
    rw [batchAbsorbWith, htable xs.length (Nat.lt_succ_self _), BitVec.xor_comm x]
    exact (macAll_mul hlin hassoc _ xs fun k hk => htable k (Nat.lt_succ_of_lt hk)).symm

/-! ## One step of each phase (R83, R86, R88, R89) -/

/-- One step of a hash pass whose blocks are inside the buffer. -/
theorem hashPass_inside {s : State} {sp : Space} {len : BitVec 64} (exit : Phase) (hcap : len.toNat ≤ s.capacity sp) :
    hashPass s sp len exit = .next (
      if s.blk.toNat < nblk len then
        if s.status.stratTable then
          { s with
            acc := batchAbsorb s (blks s sp len s.blk.toNat (batchSize Config.htEntries (nblk len) s.blk.toNat))
            blk := s.blk + BitVec.ofNat 64 (batchSize Config.htEntries (nblk len) s.blk.toNat) }
        else { s with acc := mac s (blk s sp len s.blk.toNat), blk := s.blk + 1 }
      else { s with blk := 0, phase := exit }) := by
  have htop : ∀ j, topOffset len j ≤ s.capacity sp := fun j => Nat.le_trans (Nat.min_le_right _ _) hcap
  rw [hashPass_next]
  by_cases hlt : s.blk.toNat < nblk len
  · cases htable : s.status.stratTable with
    | true => exact .inr (.inl ⟨hlt, rfl, htop _, by rw [if_pos hlt, if_pos rfl]⟩)
    | false => exact .inr (.inr ⟨hlt, rfl, htop _, by rw [if_pos hlt, if_neg Bool.false_ne_true]⟩)
  · exact .inl ⟨Nat.le_of_not_lt hlt, if_neg hlt⟩

/-- Settles O17. -/
theorem hashAadStep : Obligations.HashAadStep := by
  intro s hcap
  simp only [map_range_blk]
  exact hashPass_inside _ hcap

/-- Settles O18. -/
theorem hashMsgStep : Obligations.HashMsgStep := by
  intro s hcap
  simp only [map_range_blk]
  exact hashPass_inside _ hcap

theorem batchAbsorbWith_singleton (mul : Block → Block → Block) (ht : Vector Block 8) (acc x : Block) :
    batchAbsorbWith mul ht acc [x] = mul (acc ^^^ x) (tableEntry ht 0) := by
  rw [BitVec.xor_comm acc]
  exact BitVec.xor_zero

/-- Settles O23: a batch of the one block is its product with entry 0. -/
theorem hashLenStep : Obligations.HashLenStep := by
  intro s
  rw [exec, execHashLen, batchAbsorb, batchAbsorbWith_singleton, apply_ite (dot s.cfg _)]
  rfl

theorem getLsbD_finalize (acc nonce : Block) (i : Nat) :
    (finalize acc nonce).getLsbD i = (decide (i < 127) && (acc.getLsbD i ^^ nonce.getLsbD i)) := by
  have hmask : (0x7fffffffffffffffffffffffffffffff : Block).getLsbD i = decide (i < 127) :=
    Nat.testBit_two_pow_sub_one 127 i
  rw [finalize, BitVec.getLsbD_and, BitVec.getLsbD_xor, hmask, Bool.and_comm]

/-- Settles O24. -/
theorem finalClearsOnlyTheTopBit : Obligations.FinalClearsOnlyTheTopBit := by
  refine fun s => ⟨_, rfl, rfl, getLsbD_finalize _ _ 127, fun i hi => ?_⟩
  rw [getLsbD_finalize, decide_eq_true hi, Bool.true_and]

/-! ## The length block (R87) -/

theorem toNat_byteAt {n : Nat} (v : BitVec n) (i : Nat) : (byteAt v i).toNat = v.toNat / 256 ^ i % 256 := by
  rw [byteAt, BitVec.extractLsb'_toNat, Nat.shiftRight_eq_div_pow, Nat.pow_mul]

theorem toNat_lenblk {a m : BitVec 64} (ha : a.toNat ≤ 2 ^ 36) (hm : m.toNat ≤ 2 ^ 36) :
    (lenblk a m).toNat = 8 * a.toNat + 2 ^ 64 * (8 * m.toNat) := by
  have hlow : 8 * a.toNat < 2 ^ 64 := by omega
  have hhigh : 8 * m.toNat < 2 ^ 64 := by omega
  rw [lenblk, BitVec.toNat_append, BitVec.toNat_ofNat, BitVec.toNat_ofNat, Nat.mod_eq_of_lt hlow, Nat.mod_eq_of_lt hhigh,
    Nat.shiftLeft_eq, Nat.mul_comm _ (2 ^ 64), ← Nat.two_pow_add_eq_or_of_lt hlow, Nat.add_comm]

/-- Byte `i` of the lower of two 64-bit numbers side by side. -/
theorem byte_of_low (x y : Nat) {i : Nat} (hi : i < 8) : (x + 2 ^ 64 * y) / 256 ^ i % 256 = x / 256 ^ i % 256 := by
  have hsplit : 256 ^ i * (256 * 256 ^ (7 - i)) = 2 ^ 64 :=
    calc 256 ^ i * (256 * 256 ^ (7 - i))
      _ = 256 ^ i * 256 ^ (7 - i + 1) := congrArg (256 ^ i * ·) Nat.pow_succ'.symm
      _ = 256 ^ (i + (7 - i + 1)) := (Nat.pow_add ..).symm
      _ = 2 ^ 64 := congrArg (256 ^ ·) (show i + (7 - i + 1) = 8 by omega)
  rw [← hsplit, Nat.mul_assoc, Nat.add_mul_div_left _ _ (Nat.pow_pos (by decide)), Nat.mul_assoc, Nat.add_mul_mod_self_left]

/-- Byte `i` of the upper of two 64-bit numbers side by side. -/
theorem byte_of_high {x : Nat} (hx : x < 2 ^ 64) (y i : Nat) : (x + 2 ^ 64 * y) / 256 ^ (8 + i) % 256 = y / 256 ^ i % 256 := by
  rw [Nat.pow_add, show (256 : Nat) ^ 8 = 2 ^ 64 by rfl, ← Nat.div_div_eq_div_mul, Nat.add_mul_div_left _ _ (by decide),
    Nat.div_eq_of_lt hx, Nat.zero_add]

/-- Settles O22. -/
theorem lengthBlockHoldsTheBitLengths : Obligations.LengthBlockHoldsTheBitLengths := by
  intro a m ha hm
  refine ⟨toNat_lenblk ha hm, fun i hi => ?_, fun i _ => ?_⟩
  · rw [toNat_byteAt, toNat_lenblk ha hm, byte_of_low _ _ hi]
  · rw [toNat_byteAt, toNat_lenblk ha hm, byte_of_high (by omega)]

end Sys2Proof.Machine
/-! SUPPORT and CERTIFICATES. A whole SEAL from its acceptance (43_seal.md R101 to R108), and its result under either strategy
(42_polyval.md R90, 30_encoding.md R43). -/
namespace Sys2Proof.Machine

/-! ## From the acceptance to the hash (R75, R84) -/

/-- A busy machine with no host move pending: its next step is the engine's. -/
structure State.EngineRuns (s : State) : Prop where
  inputs : s.inputs = []
  busy : s.status.busy = true

theorem Runs.engine {s t : State} (hrun : s.EngineRuns) (hphase : s.phase ≠ .idle) (h : engineStep s = .next t) : Runs 1 s t :=
  Runs.one hrun.inputs hphase hrun.busy h

/-- The hash has its keys, and in batch mode the table is rebuilt. -/
def State.hashReady (s : State) : State :=
  { s.keysDerived with
    htable := if s.status.stratTable then
        buildTableWith (dot s.cfg) (recordHashKey s.cfg s.key s.nonce) (Config.htEntries - 1) s.htable
      else s.htable
    phase := .hashAad }

theorem runs_keysDerived {s : State} (hrun : s.EngineRuns) (hphase : s.phase = .deriveH) : Runs 3 s s.keysDerived := by
  have h1 : Runs 1 s s.hashKeyDerived := .engine hrun (by simp [hphase]) (engineStep_to_hashKeyDerived hphase)
  have h2 : Runs 1 s.hashKeyDerived s.firstHalfDerived := .engine ⟨hrun.inputs, hrun.busy⟩ nofun (engineStep_hashKeyDerived s)
  have h3 : Runs 1 s.firstHalfDerived s.keysDerived := .engine ⟨hrun.inputs, hrun.busy⟩ nofun (engineStep_firstHalfDerived s)
  exact (h1.trans h2).trans h3

theorem runs_hashReady {s : State} (hrun : s.EngineRuns) (hphase : s.phase = .deriveH) :
    Runs (3 + if s.status.stratTable then 1 else 0) s s.hashReady := by
  refine (runs_keysDerived hrun hphase).trans ?_
  cases htable : s.status.stratTable with
  | false =>
    have hready : s.hashReady = s.keysDerived := by simp only [State.hashReady, State.keysDerived, htable]; rfl
    rw [hready]
    exact .refl _
  | true =>
    have hbuild : s.keysDerived.phase = .htBuild := by simp only [State.keysDerived, htable]; rfl
    have hready : engineStep s.keysDerived = .next s.hashReady := by
      rw [engineStep_htBuild hbuild, State.hashReady, htable]
      rfl
    exact .engine ⟨hrun.inputs, hrun.busy⟩ (by simp [hbuild]) hready

/-- Over a table of powers, PD2 and PD3 let a batch stand for the sequential rule (R90). -/
theorem State.tableOfPowers.batchIsSequential {s : State} (htable : s.tableOfPowers) (hlin : Bilinear (dot s.cfg))
    (hassoc : Associative (dot s.cfg)) : s.BatchIsSequential :=
  fun _ _ hlen => batchEqualsSequential _ _ _ _ _ hlin hassoc fun k hk => htable k (Nat.lt_of_lt_of_le hk hlen)

theorem hashReady_tableOfPowers {s : State} (htable : s.status.stratTable = true) : s.hashReady.tableOfPowers := by
  intro k hk
  simp only [State.hashReady, htable]
  exact tableEntry_build_power _ _ _ hk

theorem hashReady_batchIsSequential {s : State} (htable : s.status.stratTable = true) (hlin : Bilinear (dot s.cfg))
    (hassoc : Associative (dot s.cfg)) : s.hashReady.BatchIsSequential :=
  (hashReady_tableOfPowers htable).batchIsSequential hlin hassoc

/-! ## The hash of a SEAL, from `HASH_AAD` to `FINAL` (R83, R86, R88, R91) -/

/-- The blocks the hash of a SEAL absorbs (R91). -/
def hashedBlocks (s : State) : List Block := aadBlocks s ++ msgBlocks s ++ [lenblk s.aadLen s.msgLen]

/-- The accumulator after `HASH_LEN`, where a batch stands for the sequential rule (R88). -/
theorem hashLen_acc {s : State} (hseq : s.status.stratTable = true → s.BatchIsSequential) (x : Block) :
    (if s.status.stratTable then batchAbsorb s [x] else mac s x) = macAll (dot s.cfg) s.h s.acc [x] := by
  cases htable : s.status.stratTable with
  | false => rfl
  | true => exact hseq htable s.acc [x] (by decide : 1 ≤ 8)

theorem engineStep_hashAad_seal {s : State} (hphase : s.phase = .hashAad) (hopc : s.opc = 1) :
    engineStep s = hashPass s .aadBuf s.aadLen .hashMsg := by
  rw [engineStep_hashAad hphase, execHashAad, if_pos hopc]

/-- A SEAL's hash takes the steps of R108; where a batch stands for the sequential rule, it absorbs the blocks one after another. -/
theorem runs_hash {s : State} (hrun : s.EngineRuns) (hphase : s.phase = .hashAad) (hopc : s.opc = 1) (hblk : s.blk = 0)
    (hlen : lengthsLegal s = true) :
    ∃ acc, Runs (hashSteps s.status.stratTable (nblk s.aadLen) + hashSteps s.status.stratTable (nblk s.msgLen) + 1) s
        { s with acc := acc, blk := 0, phase := .final } ∧
      ((s.status.stratTable = true → s.BatchIsSequential) → acc = macAll (dot s.cfg) s.h s.acc (hashedBlocks s)) := by
  obtain ⟨haad, hmsg⟩ := lengthsLegal_iff.1 hlen
  obtain ⟨hi, hb⟩ := hrun
  obtain ⟨acc1, run1, hacc1⟩ := hashPass_runs (s := s) (sp := .aadBuf) (len := s.aadLen) (exit := .hashMsg)
    (fun _ _ => engineStep_hashAad_seal hphase hopc) hi (by simp [hphase]) hb (Nat.le_trans haad (Nat.min_le_right _ _)) hblk
  obtain ⟨acc2, run2, hacc2⟩ := hashPass_runs (s := { s with acc := acc1, blk := 0, phase := .hashMsg }) (sp := .inBuf)
    (len := s.msgLen) (exit := .hashLen) (fun _ _ => engineStep_hashMsg rfl)
    hi nofun hb (Nat.le_trans hmsg (Nat.min_le_right _ _)) rfl
  have run3 : Runs 1 { s with acc := acc2, blk := 0, phase := .hashLen } _ := .engine ⟨hi, hb⟩ nofun (engineStep_hashLen rfl)
  refine ⟨_, (run1.trans run2).trans run3, fun hseq => ?_⟩
  have hmsgBlocks : blks { s with acc := acc1, blk := 0, phase := .hashMsg } .inBuf s.msgLen 0 (nblk s.msgLen) = msgBlocks s :=
    blks_congr _ _ _ fun _ _ => rfl
  rw [hashedBlocks, macAll_append, macAll_append, aadBlocks, ← hacc1 hseq, ← hmsgBlocks, ← hacc2 hseq]
  exact hashLen_acc (s := { s with acc := acc2, blk := 0, phase := .hashLen }) hseq _

/-! ## From `FINAL` to the end (R89, R102, R105, R130) -/

/-- The state after `FINAL` and the `TAG_ENC` of a SEAL: the tag made, and the counter started from it (R89, R102). -/
def State.tagMade (s : State) : State :=
  let tag := cipherE s.cfg s.rek (finalize s.acc s.nonce)
  { s with
    pretag := finalize s.acc s.nonce, ks := keyExpand s.cfg s.rek, tagc := tag, tag := tag, cb := ctrInit s.cfg tag
    phase := .ctrEnc }

theorem runs_tagMade {s : State} (hrun : s.EngineRuns) (hphase : s.phase = .final) (hopc : s.opc = 1) : Runs 2 s s.tagMade := by
  have h1 : Runs 1 s { s with pretag := finalize s.acc s.nonce, phase := .tagEnc } :=
    .engine hrun (by simp [hphase]) (engineStep_final hphase)
  have h2 : Runs 1 { s with pretag := finalize s.acc s.nonce, phase := .tagEnc } s.tagMade :=
    .engine ⟨hrun.inputs, hrun.busy⟩ nofun (engineStep_tagEncSeal rfl hopc)
  exact h1.trans h2

theorem ctrFrom_ctrInit (c : Config) (tag : Block) (j : Nat) : ctrFrom c (ctrInit c tag) j = counterBlock c tag j := by
  induction j with
  | zero => rfl
  | succ j ih => rw [ctrFrom, ih, counterBlock]

/-- The encryption and the wipe that end a SEAL, for a schedule and a counter that stand as `TAG_ENC` leaves them. -/
theorem runs_ctrEnc_wipe {s : State} (hrun : s.EngineRuns) (hphase : s.phase = .ctrEnc) (hblk : s.blk = 0)
    (hcap : s.msgLen.toNat ≤ s.cfg.msgCap) {k : Key} (hks : s.ks = keyExpand s.cfg k) (hcb : s.cb = ctrInit s.cfg s.tag) :
    ∃ t, Runs ((nblk s.msgLen + batchWidth s - 1) / batchWidth s + 1 + 1) s t ∧
      t = { s.zeroSecrets with outBuf := t.outBuf, scratch := t.scratch, status := s.status.wiped s.opc s.diff } ∧
      (∀ a, t.readByte .outBuf a = if a < s.msgLen.toNat then ctrByte s k s.tag a else s.readByte .outBuf a) ∧
      (s.msgLen = 0 → t.scratch = s.scratch) := by
  have hblk0 : s.blk.toNat = 0 := by rw [hblk]; rfl
  obtain ⟨u, run, written, output, scratch⟩ :=
    ctrEnc_runs (nblk s.msgLen) s hphase hrun.inputs hrun.busy hcap (by rw [hblk0, Nat.zero_add])
  obtain ⟨out, scr, cb, rfl⟩ : ∃ out scr cb, u = { s with outBuf := out, scratch := scr, cb := cb, blk := 0, phase := .wipe } :=
    ⟨_, _, _, written⟩
  refine ⟨_, run.trans (.engine ⟨hrun.inputs, hrun.busy⟩ nofun (engineStep_wipe rfl)), rfl, fun a => ?_, fun hmsg => ?_⟩
  · refine (output a).trans ?_
    simp only [hblk0, Nat.mul_zero, Nat.zero_le, true_and, Nat.sub_zero, hks, hcb, ctrFrom_ctrInit]
    rfl
  · exact scratch (by rw [hmsg]; rfl)

/-! ## A whole SEAL (R101, R108) -/

/-- What a SEAL accepted in `s` leaves in `t` (R101); the tag is the spec's where PD2 and PD3 hold, or no batch is absorbed. -/
structure SealLeaves (s t : State) : Prop where
  /-- The fields a SEAL writes: the registers are wiped, the schedule is that of the record key. -/
  written : t = { s.zeroSecrets with
    tag := t.tag, ks := keyExpand s.cfg (recordEncKey s.cfg s.key s.nonce), htable := s.hashReady.htable, scratch := t.scratch,
    status := s.status.wiped 1 0, outBuf := t.outBuf }
  tag : (s.status.stratTable = true → Bilinear (dot s.cfg) ∧ Associative (dot s.cfg)) → t.tag = sealTag s
  output : ∀ a, t.readByte .outBuf a =
    if a < s.msgLen.toNat then ctrByte s (recordEncKey s.cfg s.key s.nonce) t.tag a else s.readByte .outBuf a
  scratch : s.msgLen = 0 → t.scratch = s.scratch

/-- The keys and the table leave the operands, so what a SEAL absorbs. -/
theorem hashedBlocks_hashReady (s : State) : hashedBlocks s.hashReady = hashedBlocks s := by
  have hread : ∀ sp a, s.hashReady.readByte sp a = s.readByte sp a := fun sp a => by cases sp <;> rfl
  rw [hashedBlocks, hashedBlocks, aadBlocks, aadBlocks, msgBlocks, msgBlocks]
  congr 2
  · exact blks_congr _ _ _ fun a _ => hread _ a
  · exact blks_congr _ _ _ fun a _ => hread _ a

theorem State.SealAccepted.engineRuns {s : State} (hs : s.SealAccepted) : s.EngineRuns :=
  ⟨hs.inputs, by rw [hs.status]; rfl⟩

theorem runs_seal {s : State} (hs : s.SealAccepted) : ∃ t, Runs (sealSteps s) s t ∧ SealLeaves s t := by
  obtain ⟨hi, hb⟩ := hs.engineRuns
  have run1 := runs_hashReady hs.engineRuns hs.phase
  obtain ⟨acc, run2, hacc⟩ := runs_hash (s := s.hashReady) ⟨hi, hb⟩ rfl hs.opc hs.blk hs.lengths
  have run3 := runs_tagMade (s := { s.hashReady with acc := acc, blk := 0, phase := .final }) ⟨hi, hb⟩ rfl hs.opc
  obtain ⟨t, run4, written, output, scratch⟩ :=
    runs_ctrEnc_wipe (s := State.tagMade { s.hashReady with acc := acc, blk := 0, phase := .final }) ⟨hi, hb⟩ rfl rfl
      (Nat.le_trans (lengthsLegal_iff.1 hs.lengths).2 (Nat.min_le_right _ _)) rfl rfl
  have hsteps : sealSteps s =
      3 + (if s.status.stratTable then 1 else 0) +
        (hashSteps s.status.stratTable (nblk s.aadLen) + hashSteps s.status.stratTable (nblk s.msgLen) + 1) + 2 +
        ((nblk s.msgLen + batchWidth s - 1) / batchWidth s + 1 + 1) := by
    simp only [sealSteps]
    omega
  have htag : t.tag = cipherE s.cfg (recordEncKey s.cfg s.key s.nonce) (finalize acc s.nonce) := by rw [written]; rfl
  have hacc : (s.status.stratTable = true → Bilinear (dot s.cfg) ∧ Associative (dot s.cfg)) →
      acc = polyvalHash (dot s.cfg) (recordHashKey s.cfg s.key s.nonce) (hashedBlocks s) := fun hlaws => by
    rw [← hashedBlocks_hashReady]
    exact hacc fun htable => hashReady_batchIsSequential htable (hlaws htable).1 (hlaws htable).2
  refine ⟨t, ?_, ?_, fun hlaws => ?_, fun a => ?_, scratch⟩
  · rw [hsteps]
    exact ((run1.trans run2).trans run3).trans run4
  · have hwiped : s.status.wiped s.opc s.diff = s.status.wiped 1 0 := by rw [hs.opc]; rfl
    rw [htag, ← hwiped]
    exact written
  · rw [htag, hacc hlaws]
    rfl
  · rw [htag]
    exact output a

/-! ## Either strategy (R90, R43) -/

/-- The tag is a function of the operands and the message blocks (R101). -/
theorem tagOf_congr {s u : State} (h : sameOperands s u) (msg : List Block) : tagOf s msg = tagOf u msg := by
  obtain ⟨hcfg, hkey, hnonce, haadLen, hmsgLen, haad⟩ := h
  have hblocks : aadBlocks s = aadBlocks u := by
    rw [aadBlocks, aadBlocks, ← haadLen]
    exact blks_congr _ _ _ haad
  rw [tagOf, tagOf, hcfg, hkey, hnonce, haadLen, hmsgLen, hblocks]

theorem sealTag_congr {s u : State} (h : sameOperands s u)
    (hmsg : ∀ a, a < s.msgLen.toNat → s.readByte .inBuf a = u.readByte .inBuf a) : sealTag s = sealTag u := by
  have ⟨_, _, _, _, hmsgLen, _⟩ := h
  have hblocks : msgBlocks s = msgBlocks u := by
    rw [msgBlocks, msgBlocks, ← hmsgLen]
    exact blks_congr _ _ _ hmsg
  rw [sealTag, sealTag, hblocks, tagOf_congr h]

/-- Settles O60: both SEALs compute R101's function, which does not read `STATUS`. -/
theorem strategiesGiveTheSameResult : Obligations.StrategiesGiveTheSameResult := by
  rintro s u s' u' hs hu hlin hassoc hrun hrun'
  have hu' : u.SealAccepted := by
    rw [hu]
    exact ⟨hs.phase, hs.opc, hs.blk, by rw [hs.status]; rfl, hs.lengths, hs.inputs⟩
  obtain ⟨t, run, left⟩ := runs_seal hs
  obtain ⟨v, run', left'⟩ := runs_seal hu'
  obtain rfl := Host.Outcome.next.inj (hrun.symm.trans run.1)
  obtain rfl := Host.Outcome.next.inj (hrun'.symm.trans run'.1)
  have htag : s'.tag = sealTag s := left.tag fun _ => ⟨hlin, hassoc⟩
  have htag' : u'.tag = sealTag u := left'.tag fun _ => by rw [hu]; exact ⟨hlin, hassoc⟩
  have hsame : sealTag s = sealTag u :=
    sealTag_congr (by rw [hu]; exact ⟨rfl, rfl, rfl, rfl, rfl, fun _ _ => rfl⟩) (by rw [hu]; exact fun _ _ => rfl)
  refine ⟨htag.trans (hsame.trans htag'.symm), fun a => ?_⟩
  rw [left.output, left'.output, htag, htag', ← hsame, hu]
  rfl

end Sys2Proof.Machine
/-! SUPPORT and CERTIFICATES. The counter-mode orchestrator: the counter block, one batch of `CTR_ENC` and of `DEC_HASH`, the exits of the
message loops, and what a whole SEAL takes and computes (43_seal.md R101 to R108, 44_open.md R113). -/
namespace Sys2Proof.Machine

/-! ## The counter block (R102, R103) -/

/-- Settles O25: `cipherE` is the encryption under the schedule that `TAG_ENC` expands. -/
theorem tagEncOfSealResult : Obligations.TagEncOfSealResult := fun _ => rfl

theorem ctrNext_of_le32 {c : Config} (hc : c.increment = .le32) (b : Block) : ctrNext c b = le32Increment b := by
  rw [ctrNext, hc]

/-- The number in bytes 0 to 3 wraps at 2^32 and carries into no other byte. -/
theorem toNat_le32Increment_mod (b : Block) : (le32Increment b).toNat % 2 ^ 32 = (b.toNat % 2 ^ 32 + 1) % 2 ^ 32 := by
  have hlow : (le32Increment b).setWidth 32 = b.extractLsb' 0 32 + 1#32 := BitVec.setWidth_append_eq_right
  have hnum := congrArg BitVec.toNat hlow
  rwa [BitVec.toNat_setWidth, BitVec.toNat_add, BitVec.extractLsb'_toNat, Nat.shiftRight_zero, BitVec.toNat_ofNat] at hnum

theorem byteAt_le32Increment (b : Block) {i : Nat} (hlo : 4 ≤ i) (hhi : i < 16) : byteAt (le32Increment b) i = byteAt b i := by
  apply BitVec.eq_of_getLsbD_eq
  intro k hk
  have habove : ¬ 8 * i + k < 32 := by omega
  have hinside : 8 * i + k - 32 < 96 := by omega
  have hback : 32 + (8 * i + k - 32) = 8 * i + k := by omega
  simp only [getLsbD_byteAt, le32Increment, BitVec.getLsbD_append, BitVec.getLsbD_extractLsb', habove, hinside, hback, if_false,
    decide_true, Bool.true_and]

theorem getLsbD_setTopBit (t : Block) (i : Nat) : (t ||| (1#128 <<< 127)).getLsbD i = (t.getLsbD i || decide (i = 127)) := by
  rw [BitVec.getLsbD_or, ← BitVec.twoPow_eq, BitVec.getLsbD_twoPow]
  simp [eq_comm]

/-- Settles O26. -/
theorem counterBlockRules : Obligations.CounterBlockRules := by
  refine fun c b => ⟨fun hc => ?_, fun hc => ?_, fun hc => ?_⟩
  · rw [ctrNext_of_le32 hc]
    exact ⟨toNat_le32Increment_mod b, fun i => byteAt_le32Increment b⟩
  · rw [ctrInit, hc, if_neg Bool.false_ne_true]
  · rw [ctrInit, if_pos hc]
    refine ⟨by rw [getLsbD_setTopBit, decide_eq_true rfl, Bool.or_true], fun i hi => ?_⟩
    rw [getLsbD_setTopBit, decide_eq_false (Nat.ne_of_lt hi), Bool.or_false]

/-- Settles O29: the same keystream byte is xored twice. -/
theorem counterModeIsItsOwnInverse : Obligations.CounterModeIsItsOwnInverse := by
  intro s u k tag a hcfg hin
  rw [ctrByte, hin, ctrByte, ← hcfg, BitVec.xor_assoc, BitVec.xor_self, BitVec.xor_zero]

/-! ## One batch of keystream into `OUT_BUF` (R104, R105, R113) -/

/-- `ctrFrom` is the iteration of `CtrNext`, written with the recursor as the statements about a batch write it. -/
theorem rec_eq_ctrFrom (c : Config) (b : Block) (i : Nat) :
    (Nat.rec b (fun _ x => ctrNext c x) i : Block) = ctrFrom c b i := by
  induction i with
  | zero => rfl
  | succ i ih => exact congrArg (ctrNext c) ih

theorem getElem_eq_keystreamBlock (s : State) {i : Nat} (hi : i < 8) : s.scratch[i] = keystreamBlock s i := by
  rw [keystreamBlock, Vector.getElem?_eq_getElem hi, Option.getD_some]

/-- The state after a batch of `r` blocks from `BLK` on, with what becomes of `ACC` (R105, R113). -/
def State.batchDone (s : State) (r : Nat) (acc : Block) : State :=
  { xorBlocks (keystreamBatch s r) s.blk.toNat r with acc := acc, blk := s.blk + BitVec.ofNat 64 r }

/-- What a batch of `r` blocks from `BLK` on leaves in `t` (R104, R105, R113). -/
structure BatchLeaves (s : State) (r : Nat) (acc : Block) (t : State) : Prop where
  output : ∀ a, t.readByte .outBuf a =
    if 16 * s.blk.toNat ≤ a ∧ a < min (16 * (s.blk.toNat + r)) s.msgLen.toNat then
      s.readByte .inBuf a ^^^ byteAt (encKS s.cfg s.ks (ctrFrom s.cfg s.cb (a / 16 - s.blk.toNat))) (a % 16)
    else s.readByte .outBuf a
  scratch : ∀ i (hi : i < 8), t.scratch[i] = if i < r then encKS s.cfg s.ks (ctrFrom s.cfg s.cb i) else s.scratch[i]
  cb : t.cb = ctrFrom s.cfg s.cb r
  blk : t.blk.toNat = s.blk.toNat + r
  /-- The fields a batch writes. -/
  written : t = { s with outBuf := t.outBuf, scratch := t.scratch, cb := t.cb, blk := t.blk, acc := acc }

theorem batchDone_leaves {s : State} {r : Nat} (hr : r ≤ 8) (hend : s.blk.toNat + r ≤ nblk s.msgLen) (acc : Block) :
    BatchLeaves s r acc (s.batchDone r acc) where
  output a := readByte_batch s s.blk.toNat r a hr
  scratch i hi := by
    rw [getElem_eq_keystreamBlock _ hi, getElem_eq_keystreamBlock _ hi, ← keystreamBlock_batch s r i hr]
    exact keystreamBlock_xorBlocks _ _ _ _
  cb := (xorBlocks_cb _ _ _).trans (keystreamBatch_cb s r)
  blk := blk_advance _ (nblk_le _) hend
  written := by rw [State.batchDone, batch_frame]

theorem topOffset_le (len : BitVec 64) (j : Nat) : topOffset len j ≤ len.toNat := Nat.min_le_right _ _

theorem execCtrEnc_batch {s : State} (hlt : s.blk.toNat < nblk s.msgLen) (hcap : s.msgLen.toNat ≤ s.cfg.msgCap) :
    execCtrEnc s = .next (s.batchDone (batchSize (batchWidth s) (nblk s.msgLen) s.blk.toNat) s.acc) := by
  refine execCtrEnc_next.2 (.inr ⟨hlt, _, rfl, Nat.le_trans (topOffset_le _ _) hcap, ?_⟩)
  rw [State.batchDone, batch_frame]

/-- The keystream batch touches nothing that an absorption reads. -/
theorem batchAbsorb_keystreamBatch (s : State) (r : Nat) (xs : List Block) :
    batchAbsorb (keystreamBatch s r) xs = batchAbsorb s xs := by
  rw [batchAbsorb, keystreamBatch_cfg, keystreamBatch_htable, keystreamBatch_acc, batchAbsorb]

/-- The blocks a batch of `DEC_HASH` absorbs are those an OPEN recovers from the counter on (R113). -/
theorem execDecHash_batch {s : State} (hlt : s.blk.toNat < nblk s.msgLen) (hcap : s.msgLen.toNat ≤ s.cfg.msgCap) :
    execDecHash s = .next (s.batchDone (batchSize Config.htEntries (nblk s.msgLen) s.blk.toNat)
      (batchAbsorb s (recoveredFrom s s.cb s.blk.toNat (batchSize Config.htEntries (nblk s.msgLen) s.blk.toNat)))) := by
  have hwidth : batchSize Config.htEntries (nblk s.msgLen) s.blk.toNat ≤ 8 := Nat.min_le_left _ _
  refine execDecHash_next.2 (.inr ⟨hlt, _, rfl, Nat.le_trans (topOffset_le _ _) hcap, ?_⟩)
  rw [plainBlocks_batch _ _ _ hwidth, batchAbsorb_keystreamBatch, State.batchDone]

/-- Settles O27: a batch is at most eight blocks, and `ACC` stays. -/
theorem ctrEncBatch : Obligations.CtrEncBatch := by
  intro s hlt hcap
  simp only [rec_eq_ctrFrom]
  have hwidth : batchWidth s ≤ 8 := by unfold batchWidth; split <;> decide
  have leaves := batchDone_leaves (Nat.le_trans (Nat.min_le_left _ _) hwidth) (batchSize_end_le (batchWidth s) hlt) s.acc
  exact ⟨_, execCtrEnc_batch hlt hcap, leaves.output, leaves.scratch, leaves.cb, leaves.blk, leaves.written⟩

/-- The blocks a batch of `DEC_HASH` absorbs, byte by byte: the bytes it has written to `OUT_BUF`, and zero from `MSG_LEN` on (R113). -/
theorem BatchLeaves.byteAt_recovered {s t : State} {r : Nat} {acc : Block} (leaves : BatchLeaves s r acc t)
    {i b : Nat} (hi : i < r) (hb : b < 16) :
    byteAt ((recoveredFrom s s.cb s.blk.toNat r).getD i 0) b =
      if 16 * (s.blk.toNat + i) + b < s.msgLen.toNat then t.readByte .outBuf (16 * (s.blk.toNat + i) + b) else 0 := by
  have hblock : (recoveredFrom s s.cb s.blk.toNat r).getD i 0 =
      xorBlock s (s.blk.toNat + i) (encKS s.cfg s.ks (ctrFrom s.cfg s.cb i)) := by
    simp [recoveredFrom, hi]
  rw [hblock, byteAt_xorBlock _ _ _ _ hb]
  split
  next hvalid =>
    rw [leaves.output, if_pos (by omega), show (16 * (s.blk.toNat + i) + b) / 16 - s.blk.toNat = i by omega,
      show (16 * (s.blk.toNat + i) + b) % 16 = b by omega]
  next => rfl

theorem length_recoveredFrom (s : State) (cb : Block) (j d : Nat) : (recoveredFrom s cb j d).length = d := by
  rw [recoveredFrom, List.length_map, List.length_range]

/-- Settles O31: the blocks absorbed are those `recoveredFrom` names. -/
theorem decHashBatch : Obligations.DecHashBatch := by
  intro s hlt hcap
  simp only [rec_eq_ctrFrom]
  have leaves := batchDone_leaves (Nat.min_le_left _ _) (batchSize_end_le Config.htEntries hlt)
    (batchAbsorb s (recoveredFrom s s.cb s.blk.toNat (batchSize Config.htEntries (nblk s.msgLen) s.blk.toNat)))
  exact ⟨_, _, execDecHash_batch hlt hcap, leaves.output, length_recoveredFrom _ _ _ _, fun _ _ => leaves.byteAt_recovered, rfl,
    leaves.scratch, leaves.cb, leaves.blk, leaves.written⟩

/-- Settles O28. -/
theorem messageLoopsExit : Obligations.MessageLoopsExit := fun _ hle =>
  ⟨execCtrEnc_next.2 (.inl ⟨hle, rfl⟩), execDecHash_next.2 (.inl ⟨hle, rfl⟩), execCopyback_next.2 (.inl ⟨hle, rfl⟩)⟩

/-! ## A whole SEAL (R101, R108) -/

/-- Settles O54: `runs_seal` counts the steps, and `WIPE` is the last of them. -/
theorem sealTakesExactlyItsSteps : Obligations.SealTakesExactlyItsSteps := by
  intro s hs
  obtain ⟨t, ⟨run, busyBefore⟩, left⟩ := runs_seal hs
  exact ⟨⟨t, run, by rw [left.written]; rfl, by rw [left.written]; rfl, by rw [left.written]; rfl⟩, busyBefore⟩

theorem hashReady_htable_sequential {s : State} (htable : s.status.stratTable = false) : s.hashReady.htable = s.htable := by
  rw [State.hashReady, htable]
  rfl

/-- An accepted SEAL leaves no outcome of an OPEN and no `CMD_ERR` (R130). -/
theorem State.SealAccepted.status_wiped {s : State} (hs : s.SealAccepted) :
    s.status.wiped 1 0 = { s.status with busy := false, done := true, authOk := false, authFail := false, cmdErr := false } := by
  rw [hs.status]
  rfl

/-- Settles O56: what `SealLeaves` names, and every other field as the wipe leaves it. -/
theorem sealComputesItsFunction : Obligations.SealComputesItsFunction := by
  intro s hs hlin hassoc
  obtain ⟨t, run, left⟩ := runs_seal hs
  have htag : t.tag = sealTag s := left.tag fun _ => ⟨hlin, hassoc⟩
  have houtput := left.output
  rw [htag] at houtput
  have hscratch := left.scratch
  obtain ⟨tag, scratch, out, rfl⟩ : ∃ tag scratch out, t = { s.zeroSecrets with
      tag := tag, ks := keyExpand s.cfg (recordEncKey s.cfg s.key s.nonce), htable := s.hashReady.htable, scratch := scratch,
      status := s.status.wiped 1 0, outBuf := out } := ⟨_, _, _, left.written⟩
  exact ⟨_, run.1, htag, houtput, hs.status_wiped, rfl, hashReady_htable_sequential,
    fun htable k hk => (getElem_eq_tableEntry _ hk).trans (hashReady_tableOfPowers htable k hk), hscratch,
    rfl, ⟨rfl, rfl, rfl, rfl, rfl, rfl, rfl, rfl⟩, rfl, rfl, rfl, rfl, rfl⟩

end Sys2Proof.Machine
/-! SUPPORT and CERTIFICATES. A whole OPEN from its acceptance (44_open.md R110 to R125): the comparison, the copy-back, the steps it
takes and what it computes, and the round trip with a SEAL. -/
namespace Sys2Proof.Machine

/-! ## The acceptance, `KS_REK` and `TAG_ENC` (R110, R112, R114) -/

/-- Settles O7: inside the precondition a launch is accepted. -/
theorem openAcceptance : Obligations.OpenAcceptance :=
  fun _ hbusy haad hmsg => launchCommand_accepts hbusy (lengthsLegal_iff.2 ⟨haad, hmsg⟩) ..

/-- Settles O30: the statement is the rule itself. -/
theorem ksRekResult : Obligations.KsRekResult := fun _ => rfl

/-- Settles O32: the statement is the rule itself. -/
theorem tagEncOfOpenResult : Obligations.TagEncOfOpenResult := fun _ => rfl

/-! ## The comparison (R120) -/

/-- No bit of `DIFF` is set exactly when the tags agree in every bit. -/
theorem tagDiff_eq_zero {a b : Block} : tagDiff a b 16 = 0 ↔ a = b := by
  constructor
  · intro hzero
    refine block_ext fun i hi => BitVec.eq_of_getLsbD_eq fun k _ => Decidable.byContradiction fun hne => ?_
    have hset : (tagDiff a b 16).getLsbD k = true := (getLsbD_tagDiff a b 16 k).2 ⟨i, hi, hne⟩
    rw [hzero, BitVec.ofNat_eq_ofNat, BitVec.getLsbD_zero] at hset
    exact Bool.false_ne_true hset
  · rintro rfl
    refine BitVec.eq_of_getLsbD_eq fun k _ => ?_
    have hclear : ¬ (tagDiff a a 16).getLsbD k = true := fun hset =>
      have ⟨_, _, hne⟩ := (getLsbD_tagDiff a a 16 k).1 hset
      hne rfl
    rw [Bool.eq_false_iff.2 hclear, BitVec.ofNat_eq_ofNat, BitVec.getLsbD_zero]

/-- Settles O33: bit by bit by `getLsbD_tagDiff`, and the branch follows `tagDiff_eq_zero`. -/
theorem tagCompareSeesEveryBit : Obligations.TagCompareSeesEveryBit :=
  fun s => ⟨_, rfl, fun k _ => getLsbD_tagDiff s.tag s.tagc 16 k, tagDiff_eq_zero, by simp only [tagDiff_eq_zero], rfl⟩

/-! ## The copy-back (R122, R125) -/

theorem copyBlock_frame (s : State) (j : Nat) : copyBlock s j = { s with outBuf := (copyBlock s j).outBuf } := by
  apply state_ext <;> simp [copyBlock]

/-- Everything the copy of block `j` does to `OUT_BUF`. -/
theorem readByte_copyBlock (s : State) (j a : Nat) :
    (copyBlock s j).readByte .outBuf a =
      if 16 * j ≤ a ∧ a < min (16 * (j + 1)) s.msgLen.toNat then s.readByte .inBuf a else s.readByte .outBuf a := by
  have hvalid : 16 * j ≤ a ∧ a < 16 * j + validBytes s.msgLen j ↔ 16 * j ≤ a ∧ a < min (16 * (j + 1)) s.msgLen.toNat := by
    simp only [validBytes]
    omega
  rw [copyBlock, readByte_memWrite]
  simp only [true_and, hvalid]
  split
  next hin =>
    have hbyte : a - 16 * j < validBytes s.msgLen j := by omega
    rw [byteAt_memRead _ _ _ _ _ (validBytes_le _ _), if_pos hbyte, Nat.add_sub_cancel' hin.1]
  next => rfl

/-- One block of `COPYBACK` inside the capacity. -/
theorem execCopyback_block {s : State} (hlt : s.blk.toNat < nblk s.msgLen) (hcap : s.msgLen.toNat ≤ s.cfg.msgCap) :
    ∃ out, execCopyback s = .next { s with outBuf := out, blk := s.blk + 1 } ∧
      ∀ a, State.readByte { s with outBuf := out } .outBuf a =
        if 16 * s.blk.toNat ≤ a ∧ a < min (16 * (s.blk.toNat + 1)) s.msgLen.toNat then s.readByte .inBuf a
        else s.readByte .outBuf a := by
  refine ⟨(copyBlock s s.blk.toNat).outBuf, execCopyback_next.2 (.inr ⟨hlt, Nat.le_trans (topOffset_le _ _) hcap, ?_⟩), fun a => ?_⟩
  · rw [copyBlock_frame]
  · rw [← copyBlock_frame]
    exact readByte_copyBlock s _ a

/-- Settles O34: the step is `execCopyback_block`. -/
theorem copybackBlock : Obligations.CopybackBlock := by
  intro s hlt hcap
  obtain ⟨out, hexec, hout⟩ := execCopyback_block hlt hcap
  exact ⟨_, hexec, hout, rfl⟩

theorem step_copyback {s : State} (hphase : s.phase = .copyback) (hinputs : s.inputs = []) : step s = execCopyback s :=
  (step_of_no_input hinputs).trans (engineStep_copyback hphase)

/-- The `d` blocks left of a copy-back, one step each, and the exit step; a machine that is busy at its entry is busy all the way. -/
theorem copyback_runs (d : Nat) (s : State) (hphase : s.phase = .copyback) (hinputs : s.inputs = [])
    (hcap : s.msgLen.toNat ≤ s.cfg.msgCap) (hd : s.blk.toNat + d = nblk s.msgLen) :
    ∃ out, Host.Core.run core (d + 1) s = .next { s with outBuf := out, blk := 0, phase := .wipe } ∧
      (s.status.busy = true → Runs (d + 1) s { s with outBuf := out, blk := 0, phase := .wipe }) ∧
      ∀ a, State.readByte { s with outBuf := out } .outBuf a =
        if 16 * s.blk.toNat ≤ a ∧ a < s.msgLen.toNat then s.readByte .inBuf a else s.readByte .outBuf a := by
  have hidle : s.phase ≠ .idle := by simp [hphase]
  induction d generalizing s with
  | zero =>
    have hexit : step s = .next { s with blk := 0, phase := .wipe } :=
      (step_copyback hphase hinputs).trans (execCopyback_next.2 (.inl ⟨Nat.le_of_eq hd.symm, rfl⟩))
    have hlast : s.msgLen.toNat ≤ 16 * nblk s.msgLen := by unfold nblk; omega
    refine ⟨s.outBuf, run_succ 0 hexit, fun hbusy => .cons hexit hidle hbusy (.refl _), fun a => ?_⟩
    rw [if_neg (by omega)]
  | succ d ih =>
    obtain ⟨out, hexec, hout⟩ := execCopyback_block (s := s) (by omega) hcap
    have hblock := (step_copyback hphase hinputs).trans hexec
    have hblk : (s.blk + 1).toNat = s.blk.toNat + 1 := blk_advance s.blk (r := 1) (nblk_le s.msgLen) (by omega)
    obtain ⟨out', hrun, hruns, hout'⟩ :=
      ih { s with outBuf := out, blk := s.blk + 1 } hphase hinputs hcap (by rw [hblk, ← hd]; omega) hidle
    refine ⟨out', (run_succ _ hblock).trans hrun, fun hbusy => .cons hblock hidle hbusy (hruns hbusy), fun a => ?_⟩
    by_cases hlater : 16 * (s.blk + 1).toNat ≤ a ∧ a < s.msgLen.toNat
    · exact ((hout' a).trans (if_pos hlater)).trans (if_pos ⟨by omega, hlater.2⟩).symm
    · exact ((hout' a).trans (if_neg hlater)).trans ((hout a).trans (ite_congr (propext (by omega)) (fun _ => rfl) fun _ => rfl))

/-- A whole copy-back, from its entry. -/
theorem copyback_runs_whole {s : State} (hphase : s.phase = .copyback) (hblk : s.blk = 0) (hinputs : s.inputs = [])
    (hcap : s.msgLen.toNat ≤ s.cfg.msgCap) :
    ∃ out, Host.Core.run core (nblk s.msgLen + 1) s = .next { s with outBuf := out, phase := .wipe } ∧
      (s.status.busy = true → Runs (nblk s.msgLen + 1) s { s with outBuf := out, phase := .wipe }) ∧
      ∀ a, State.readByte { s with outBuf := out } .outBuf a =
        if a < s.msgLen.toNat then s.readByte .inBuf a else s.readByte .outBuf a := by
  have hblk0 : s.blk.toNat = 0 := by rw [hblk]; rfl
  obtain ⟨out, hrun, hruns, hout⟩ := copyback_runs (nblk s.msgLen) s hphase hinputs hcap (by rw [hblk0, Nat.zero_add])
  rw [← hblk] at hrun hruns
  exact ⟨out, hrun, hruns, fun a => (hout a).trans (ite_congr (propext (by omega)) (fun _ => rfl) fun _ => rfl)⟩

/-- Settles O35: the run is `copyback_runs_whole`, which needs no `BUSY`. -/
theorem copybackRestoresTheCiphertext : Obligations.CopybackRestoresTheCiphertext := by
  intro s hphase hblk hinputs hcap
  obtain ⟨out, hrun, -, hout⟩ := copyback_runs_whole hphase hblk hinputs hcap
  exact ⟨_, hrun, hout, rfl⟩

/-! ## The hash of an OPEN, from `HASH_AAD` to `HASH_LEN` (R83, R112, R113, R88) -/

theorem ctrBlock_eq_xorBlock (s : State) (k : Key) (tag : Block) (j : Nat) :
    ctrBlock s k tag j = xorBlock s j (cipherE s.cfg k (counterBlock s.cfg tag j)) := rfl

theorem ctrBlocks_eq_map (s : State) (k : Key) (tag : Block) (j r : Nat) :
    ctrBlocks s k tag j r = (List.range r).map fun i => ctrBlock s k tag (j + i) := by
  induction r generalizing j with
  | zero => rfl
  | succ r ih =>
    rw [ctrBlocks, ih, List.range_succ_eq_map, List.map_cons, List.map_map]
    simp only [Function.comp_def, Nat.succ_eq_add_one, Nat.add_assoc, Nat.add_comm 1]
    rfl

/-- Counter mode reads the configuration and the message, and nothing else of the state. -/
theorem ctrBlocks_congr {s u : State} (hcfg : s.cfg = u.cfg) (hlen : s.msgLen = u.msgLen)
    (hin : ∀ a, a < s.msgLen.toNat → s.readByte .inBuf a = u.readByte .inBuf a) {k : Key} {tag : Block} {j r : Nat} :
    ctrBlocks s k tag j r = ctrBlocks u k tag j r := by
  rw [ctrBlocks_eq_map, ctrBlocks_eq_map]
  refine List.map_congr_left fun i _ => ?_
  rw [ctrBlock_eq_xorBlock, ctrBlock_eq_xorBlock, xorBlock_congr hlen hin, hcfg]

/-- Under the schedule of `k` and the counter of `tag` the blocks `DEC_HASH` recovers are those of R107. -/
theorem recoveredFrom_eq_ctrBlocks {s : State} {k : Key} {tag : Block} (hks : s.ks = keyExpand s.cfg k) (d : Nat) :
    recoveredFrom s (ctrInit s.cfg tag) 0 d = ctrBlocks s k tag 0 d := by
  rw [recoveredFrom, ctrBlocks_eq_map]
  refine List.map_congr_left fun i _ => ?_
  rw [ctrBlock_eq_xorBlock, cipherE, ctrFrom_ctrInit, hks, Nat.zero_add]

/-- The pass of `DEC_HASH`, for a schedule and a counter that stand as `KS_REK` leaves them: `OUT_BUF` gets the bytes of R107, and
where a batch stands for the sequential rule, the accumulator absorbs their blocks one after another. -/
theorem runs_decHash {s : State} (hrun : s.EngineRuns) (hphase : s.phase = .decHash) (hblk : s.blk = 0)
    (hcap : s.msgLen.toNat ≤ s.cfg.msgCap) {k : Key} (hks : s.ks = keyExpand s.cfg k) (hcb : s.cb = ctrInit s.cfg s.tag) :
    ∃ acc cb scratch out, Runs ((nblk s.msgLen + 7) / 8 + 1) s
        { s with acc := acc, cb := cb, scratch := scratch, outBuf := out, blk := 0, phase := .hashLen } ∧
      (s.BatchIsSequential → acc = macAll (dot s.cfg) s.h s.acc (ctrBlocks s k s.tag 0 (nblk s.msgLen))) ∧
      ∀ a, State.readByte { s with outBuf := out } .outBuf a =
        if a < s.msgLen.toNat then ctrByte s k s.tag a else s.readByte .outBuf a := by
  have hblk0 : s.blk.toNat = 0 := by rw [hblk]; rfl
  obtain ⟨u, run, written, hacc, hout⟩ :=
    decHash_runs (nblk s.msgLen) s hphase hrun.inputs hrun.busy hcap (by rw [hblk0, Nat.zero_add])
  obtain ⟨acc, cb, scratch, out, rfl⟩ : ∃ acc cb scratch out, u = { s with
      acc := acc, cb := cb, scratch := scratch, outBuf := out, blk := 0, phase := .hashLen } := ⟨_, _, _, _, written⟩
  refine ⟨acc, cb, scratch, out, run, fun hseq => ?_, fun a => ?_⟩
  · rw [← recoveredFrom_eq_ctrBlocks hks, ← hcb, ← hblk0]
    exact hacc hseq
  · refine (hout a).trans ?_
    simp only [hblk0, Nat.mul_zero, Nat.zero_le, true_and, Nat.sub_zero, hks, hcb, ctrFrom_ctrInit]
    rfl

/-- The state after `KS_REK` (R112). -/
def State.counterStarted (s : State) : State :=
  { s with ks := keyExpand s.cfg s.rek, cb := ctrInit s.cfg s.tag, phase := .decHash }

theorem engineStep_hashAad_open {s : State} (hphase : s.phase = .hashAad) (hopc : s.opc = 2) :
    engineStep s = hashPass s .aadBuf s.aadLen .ksRek := by
  rw [engineStep_hashAad hphase, execHashAad, if_neg (by rw [hopc]; decide)]

/-- The blocks the hash of an OPEN absorbs when `REK` stands (R91, R111). -/
def openedBlocks (s : State) : List Block :=
  aadBlocks s ++ ctrBlocks s s.rek s.tag 0 (nblk s.msgLen) ++ [lenblk s.aadLen s.msgLen]

/-- The state at `FINAL` of an OPEN, with what its hash has written. -/
def State.messageRecovered (s : State) (acc cb : Block) (scratch : Vector Block 8) (out : Memory) : State :=
  { s with
    ks := keyExpand s.cfg s.rek, acc := acc, cb := cb, scratch := scratch, outBuf := out, blk := 0, phase := .final }

/-- An OPEN's hash takes the steps of R115; where a batch stands for the sequential rule, it absorbs the blocks one after another. -/
theorem runs_openHash {s : State} (hrun : s.EngineRuns) (hphase : s.phase = .hashAad) (hopc : s.opc = 2) (hblk : s.blk = 0)
    (hlen : lengthsLegal s = true) :
    ∃ acc cb scratch out,
      Runs (hashSteps s.status.stratTable (nblk s.aadLen) + 1 + ((nblk s.msgLen + 7) / 8 + 1) + 1) s
        (s.messageRecovered acc cb scratch out) ∧
      (s.BatchIsSequential → acc = macAll (dot s.cfg) s.h s.acc (openedBlocks s)) ∧
      ∀ a, State.readByte { s with outBuf := out } .outBuf a =
        if a < s.msgLen.toNat then ctrByte s s.rek s.tag a else s.readByte .outBuf a := by
  obtain ⟨haad, hmsg⟩ := lengthsLegal_iff.1 hlen
  obtain ⟨hi, hb⟩ := hrun
  obtain ⟨acc1, run1, hacc1⟩ := hashPass_runs (s := s) (sp := .aadBuf) (len := s.aadLen) (exit := .ksRek)
    (fun _ _ => engineStep_hashAad_open hphase hopc) hi (by simp [hphase]) hb (Nat.le_trans haad (Nat.min_le_right _ _)) hblk
  have run2 : Runs 1 { s with acc := acc1, blk := 0, phase := .ksRek } (State.counterStarted { s with acc := acc1, blk := 0 }) :=
    .engine ⟨hi, hb⟩ nofun (engineStep_ksRek rfl)
  obtain ⟨acc2, cb, scratch, out, run3, hacc2, hout⟩ := runs_decHash (s := State.counterStarted { s with acc := acc1, blk := 0 })
    ⟨hi, hb⟩ rfl rfl (Nat.le_trans hmsg (Nat.min_le_right _ _)) rfl rfl
  have run4 : Runs 1 { s.messageRecovered acc2 cb scratch out with phase := .hashLen } _ :=
    .engine ⟨hi, hb⟩ nofun (engineStep_hashLen rfl)
  refine ⟨_, cb, scratch, out, ((run1.trans run2).trans run3).trans run4, fun hseq => ?_, hout⟩
  have hblocks : ctrBlocks (State.counterStarted { s with acc := acc1, blk := 0 }) s.rek s.tag 0 (nblk s.msgLen) =
      ctrBlocks s s.rek s.tag 0 (nblk s.msgLen) := ctrBlocks_congr (by rfl) (by rfl) fun _ _ => by rfl
  have habsorbed : acc2 = macAll (dot s.cfg) s.h acc1 (ctrBlocks s s.rek s.tag 0 (nblk s.msgLen)) := by
    rw [← hblocks]
    exact hacc2 hseq
  rw [openedBlocks, macAll_append, macAll_append, aadBlocks, ← hacc1 fun _ => hseq, ← habsorbed]
  exact hashLen_acc (s := { s.messageRecovered acc2 cb scratch out with phase := .hashLen }) (fun _ => hseq) _

/-! ## From `FINAL` to the end (R89, R114, R120, R122, R130) -/

/-- The tag that `FINAL` and the `TAG_ENC` of an OPEN make of the accumulator (R89, R114). -/
def State.recomputedTag (s : State) : Block := encKS s.cfg s.ks (finalize s.acc s.nonce)

/-- The state after `FINAL` and the `TAG_ENC` of an OPEN. -/
def State.tagRecomputed (s : State) : State :=
  { s with pretag := finalize s.acc s.nonce, tagc := s.recomputedTag, phase := .tagCmp }

/-- The state after `TAG_CMP` (R120). -/
def State.tagCompared (s : State) : State :=
  { s with diff := tagDiff s.tag s.tagc 16, phase := if s.tagc = s.tag then .wipe else .copyback }

theorem runs_tagRecomputed {s : State} (hrun : s.EngineRuns) (hphase : s.phase = .final) (hopc : s.opc = 2) :
    Runs 2 s s.tagRecomputed := by
  have h1 : Runs 1 s { s with pretag := finalize s.acc s.nonce, phase := .tagEnc } :=
    .engine hrun (by simp [hphase]) (engineStep_final hphase)
  have h2 : Runs 1 { s with pretag := finalize s.acc s.nonce, phase := .tagEnc } s.tagRecomputed :=
    .engine ⟨hrun.inputs, hrun.busy⟩ nofun (engineStep_tagEncOpen rfl hopc)
  exact h1.trans h2

theorem runs_tagCompared {s : State} (hrun : s.EngineRuns) (hphase : s.phase = .tagCmp) : Runs 1 s s.tagCompared := by
  refine .engine hrun (by simp [hphase]) ((engineStep_tagCmp hphase).trans ?_)
  simp only [execTagCmp, State.tagCompared, tagDiff_eq_zero, eq_comm (a := s.tag)]

/-- After the comparison the ciphertext is copied back if the tags differ, and `WIPE` is next. -/
theorem runs_copyback_if_differ {s : State} (hrun : s.EngineRuns) (hblk : s.blk = 0) (hcap : s.msgLen.toNat ≤ s.cfg.msgCap) :
    ∃ out, Runs (if s.tagc = s.tag then 0 else nblk s.msgLen + 1) s.tagCompared { s.tagCompared with outBuf := out, phase := .wipe } ∧
      ∀ a, State.readByte { s with outBuf := out } .outBuf a =
        if s.tagc ≠ s.tag ∧ a < s.msgLen.toNat then s.readByte .inBuf a else s.readByte .outBuf a := by
  by_cases htag : s.tagc = s.tag
  · have hnext : s.tagCompared = { s.tagCompared with outBuf := s.outBuf, phase := .wipe } := by
      simp only [State.tagCompared, if_pos htag]
    refine ⟨s.outBuf, ?_, fun a => (if_neg fun h => h.1 htag).symm⟩
    rw [if_pos htag, ← hnext]
    exact .refl _
  · have hphase : s.tagCompared.phase = .copyback := if_neg htag
    obtain ⟨out, -, hruns, hout⟩ := copyback_runs_whole (s := s.tagCompared) hphase hblk hrun.inputs hcap
    rw [if_neg htag]
    refine ⟨out, hruns hrun.busy, fun a => (hout a).trans (ite_congr (propext ?_) (fun _ => rfl) fun _ => rfl)⟩
    exact (and_iff_right htag).symm

/-- The outcome of an OPEN (R123, R130): `DONE` and one of `AUTH_OK`, `AUTH_FAIL`. -/
def Status.opened (st : Status) (ok : Bool) : Status := { st with authOk := ok, authFail := !ok, done := true, busy := false }

theorem wiped_tagDiff (st : Status) (a b : Block) : st.wiped 2 (tagDiff a b 16) = st.opened (decide (b = a)) := by
  have hzero : (tagDiff a b 16 == 0) = decide (b = a) :=
    Bool.eq_iff_iff.2 (beq_iff_eq.trans (tagDiff_eq_zero.trans (eq_comm.trans decide_eq_true_iff.symm)))
  rw [Status.wiped, bne, hzero]
  rfl

/-- The end of an OPEN, from `FINAL` on. -/
theorem runs_openEnd {s : State} (hrun : s.EngineRuns) (hphase : s.phase = .final) (hopc : s.opc = 2) (hblk : s.blk = 0)
    (hcap : s.msgLen.toNat ≤ s.cfg.msgCap) :
    ∃ out, Runs (2 + 1 + (if s.recomputedTag = s.tag then 0 else nblk s.msgLen + 1) + 1) s
        { s.zeroSecrets with outBuf := out, status := s.status.opened (decide (s.recomputedTag = s.tag)) } ∧
      ∀ a, State.readByte { s with outBuf := out } .outBuf a =
        if s.recomputedTag ≠ s.tag ∧ a < s.msgLen.toNat then s.readByte .inBuf a else s.readByte .outBuf a := by
  obtain ⟨hi, hb⟩ := hrun
  have run1 := runs_tagRecomputed ⟨hi, hb⟩ hphase hopc
  have run2 := runs_tagCompared (s := s.tagRecomputed) ⟨hi, hb⟩ rfl
  obtain ⟨out, run3, hout⟩ := runs_copyback_if_differ (s := s.tagRecomputed) ⟨hi, hb⟩ hblk hcap
  have run4 : Runs 1 { s.tagRecomputed.tagCompared with outBuf := out, phase := .wipe } _ :=
    .engine ⟨hi, hb⟩ nofun (engineStep_wipe rfl)
  refine ⟨out, ?_, hout⟩
  rw [← wiped_tagDiff, ← hopc]
  exact ((run1.trans run2).trans run3).trans run4

/-! ## A whole OPEN (R111, R115, R123, R125) -/

/-- What an OPEN accepted in `s` leaves in `t` when `tag` is the tag it recomputed (R111); that tag is the spec's where PD2 and PD3
hold. -/
structure OpenLeaves (s : State) (tag : Block) (t : State) : Prop where
  /-- The fields an OPEN writes: the registers are wiped, the schedule is that of the record key. -/
  written : t = { s.zeroSecrets with
    ks := keyExpand s.cfg (recordEncKey s.cfg s.key s.nonce), htable := s.hashReady.htable, scratch := t.scratch,
    status := (Status.accepted true true).opened (decide (tag = s.tag)), outBuf := t.outBuf }
  recomputed : Bilinear (dot s.cfg) → Associative (dot s.cfg) → tag = openTag s
  output : ∀ a, t.readByte .outBuf a =
    if a < s.msgLen.toNat then
      if tag = s.tag then ctrByte s (recordEncKey s.cfg s.key s.nonce) s.tag a else s.readByte .inBuf a
    else s.readByte .outBuf a

theorem OpenLeaves.phase {s t : State} {tag : Block} (left : OpenLeaves s tag t) : t.phase = .idle := by
  rw [left.written]
  rfl

theorem OpenLeaves.status {s t : State} {tag : Block} (left : OpenLeaves s tag t) :
    t.status = (Status.accepted true true).opened (decide (tag = s.tag)) := by
  rw [left.written]

/-- The keys and the table leave the operands, so what an OPEN absorbs. -/
theorem openedBlocks_hashReady (s : State) :
    openedBlocks s.hashReady = aadBlocks s ++ recovered s ++ [lenblk s.aadLen s.msgLen] := by
  rw [openedBlocks, recovered, aadBlocks, aadBlocks]
  congr 2
  · exact blks_congr _ _ _ fun _ _ => rfl
  · exact ctrBlocks_congr (by rfl) (by rfl) fun _ _ => by rfl

theorem State.OpenAccepted.engineRuns {s : State} (hs : s.OpenAccepted) : s.EngineRuns :=
  ⟨hs.inputs, by rw [hs.status]; rfl⟩

theorem State.OpenAccepted.stratTable {s : State} (hs : s.OpenAccepted) : s.status.stratTable = true := by
  rw [hs.status]
  rfl

/-- The steps of R115, part by part. -/
theorem openSteps_eq (s : State) (tag : Block) :
    openSteps s (decide (tag ≠ s.tag)) =
      3 + 1 + (hashSteps true (nblk s.aadLen) + 1 + ((nblk s.msgLen + 7) / 8 + 1) + 1) +
        (2 + 1 + (if tag = s.tag then 0 else nblk s.msgLen + 1) + 1) := by
  simp only [openSteps, hashSteps, ne_eq, decide_eq_true_eq, ite_not, if_true]
  omega

theorem runs_open {s : State} (hs : s.OpenAccepted) :
    ∃ tag t, Runs (openSteps s (decide (tag ≠ s.tag))) s t ∧ OpenLeaves s tag t := by
  have ⟨hi, hb⟩ := hs.engineRuns
  have hstrat := hs.stratTable
  have hcap : s.msgLen.toNat ≤ s.cfg.msgCap := Nat.le_trans (lengthsLegal_iff.1 hs.lengths).2 (Nat.min_le_right _ _)
  have run1 := runs_hashReady hs.engineRuns hs.phase
  rw [hstrat] at run1
  obtain ⟨acc, cb, scratch, plain, run2, hacc, hplain⟩ := runs_openHash (s := s.hashReady) ⟨hi, hb⟩ rfl hs.opc hs.blk hs.lengths
  obtain ⟨out, run3, hout⟩ :=
    runs_openEnd (s := s.hashReady.messageRecovered acc cb scratch plain) ⟨hi, hb⟩ rfl hs.opc rfl hcap
  generalize htag : (s.hashReady.messageRecovered acc cb scratch plain).recomputedTag = tag at run3 hout
  have hcomputed : tag = cipherE s.cfg (recordEncKey s.cfg s.key s.nonce) (finalize acc s.nonce) := htag.symm
  refine ⟨tag, { s.zeroSecrets with
      ks := keyExpand s.cfg (recordEncKey s.cfg s.key s.nonce), htable := s.hashReady.htable, scratch := scratch,
      status := (Status.accepted true true).opened (decide (tag = s.tag)), outBuf := out }, ?_, rfl, fun hlin hassoc => ?_,
    fun a => ?_⟩
  · rw [openSteps_eq, ← hs.status, ← hstrat]
    exact (run1.trans run2).trans run3
  · rw [hcomputed, hacc (hashReady_batchIsSequential hstrat hlin hassoc), openedBlocks_hashReady]
    rfl
  · refine (hout a).trans ?_
    have hplain : State.readByte (s.hashReady.messageRecovered acc cb scratch plain) .outBuf a =
      if a < s.msgLen.toNat then ctrByte s (recordEncKey s.cfg s.key s.nonce) s.tag a else s.readByte .outBuf a := hplain a
    rw [hplain]
    by_cases hmatch : tag = s.tag
    · rw [if_neg fun h => h.1 hmatch, if_pos hmatch]
    · by_cases hin : a < s.msgLen.toNat
      · rw [if_pos ⟨hmatch, hin⟩, if_pos hin, if_neg hmatch]
        rfl
      · rw [if_neg fun h => hin h.2, if_neg hin, if_neg hin]

/-- Settles O55: the outcome follows the tag `runs_open` names, and `WIPE` is the last step. -/
theorem openTakesExactlyItsSteps : Obligations.OpenTakesExactlyItsSteps := by
  intro s hs
  obtain ⟨tag, t, ⟨run, busyBefore⟩, left⟩ := runs_open hs
  have hfail : t.status.authFail = decide (tag ≠ s.tag) := by rw [left.status, decide_not]; rfl
  rw [← hfail] at run busyBefore
  have hone : t.status.authOk = !t.status.authFail := by rw [left.status]; exact (Bool.not_not _).symm
  exact ⟨t, run, left.phase, by rw [left.status]; rfl, by rw [left.status]; rfl, hone, busyBefore⟩

/-- Settles O57: what `OpenLeaves` names, and every other field as the wipe leaves it. -/
theorem openComputesItsFunction : Obligations.OpenComputesItsFunction := by
  intro s hs hlin hassoc
  obtain ⟨tag, t, run, left⟩ := runs_open hs
  obtain rfl : tag = openTag s := left.recomputed hlin hassoc
  have houtput := left.output
  obtain ⟨scratch, out, rfl⟩ : ∃ scratch out, t = { s.zeroSecrets with
      ks := keyExpand s.cfg (recordEncKey s.cfg s.key s.nonce), htable := s.hashReady.htable, scratch := scratch,
      status := (Status.accepted true true).opened (decide (openTag s = s.tag)), outBuf := out } := ⟨_, _, left.written⟩
  exact ⟨_, run.1, by rw [decide_not]; rfl, houtput, rfl,
    fun k hk => (getElem_eq_tableEntry _ hk).trans (hashReady_tableOfPowers hs.stratTable k hk),
    rfl, ⟨rfl, rfl, rfl, rfl, rfl, rfl, rfl, rfl⟩, rfl, rfl, rfl, rfl, rfl, rfl⟩

/-! ## The round trip with a SEAL (R124, R107) -/

/-- A block of counter mode, byte by byte: the bytes of R107, and zero from `MSG_LEN` on. -/
theorem byteAt_ctrBlock (s : State) (k : Key) (tag : Block) (j : Nat) {i : Nat} (hi : i < 16) :
    byteAt (ctrBlock s k tag j) i = if 16 * j + i < s.msgLen.toNat then ctrByte s k tag (16 * j + i) else 0 := by
  rw [ctrBlock_eq_xorBlock, byteAt_xorBlock _ _ _ _ hi, ctrByte, show (16 * j + i) / 16 = j by omega,
    show (16 * j + i) % 16 = i by omega]

/-- Where counter mode over the one message gives the bytes of the other, its blocks are that message's padded blocks. -/
theorem ctrBlocks_eq_blks {s u : State} {k : Key} {tag : Block} (hlen : u.msgLen = s.msgLen)
    (hplain : ∀ a, a < s.msgLen.toNat → ctrByte u k tag a = s.readByte .inBuf a) (j r : Nat) :
    ctrBlocks u k tag j r = blks s .inBuf s.msgLen j r := by
  rw [ctrBlocks_eq_map, ← map_range_blk]
  refine List.map_congr_left fun i _ => block_ext fun b hb => ?_
  rw [byteAt_ctrBlock _ _ _ _ hb, byteAt_blk _ _ _ _ _ hb, hlen]
  split
  next hin => exact hplain _ hin
  next => rfl

/-- Settles O58: the plaintext comes back byte by byte (O29), so both tags are of the same blocks. -/
theorem roundTripOfTheFunctions : Obligations.RoundTripOfTheFunctions := by
  intro s u hsame htag hin
  have ⟨hcfg, hkey, hnonce, _, hlen, _⟩ := hsame
  have hplain : ∀ a, a < s.msgLen.toNat → ctrByte u (recordEncKey u.cfg u.key u.nonce) u.tag a = s.readByte .inBuf a := by
    intro a ha
    rw [← hcfg, ← hkey, ← hnonce, htag]
    exact counterModeIsItsOwnInverse s u _ _ a hcfg (hin a ha)
  refine ⟨?_, hplain⟩
  have hblocks : recovered u = msgBlocks s := by
    rw [recovered, ctrBlocks_eq_blks hlen.symm hplain, msgBlocks, hlen]
  rw [openTag, hblocks, ← tagOf_congr hsame, htag, sealTag]

/-- Settles O59: the SEAL left its function's tag and bytes (O56), so the OPEN finds the tags equal and the plaintext (O58). -/
theorem openAfterSealRoundTrips : Obligations.OpenAfterSealRoundTrips := by
  intro s s' u hs hlin hassoc hrun hu hsame htag hin
  have ⟨hcfg, _, _, _, hlen, _⟩ := hsame
  obtain ⟨t, run, left⟩ := runs_seal hs
  obtain rfl := Host.Outcome.next.inj (hrun.symm.trans run.1)
  have hseal : s'.tag = sealTag s := left.tag fun _ => ⟨hlin, hassoc⟩
  obtain ⟨hopen, hplain⟩ := roundTripOfTheFunctions s u hsame (htag.trans hseal) fun a ha => by
    rw [hin a ha, left.output, if_pos ha, hseal]
  obtain ⟨tag, u', run', left'⟩ := runs_open hu
  obtain rfl : tag = u.tag := (left'.recomputed (hcfg ▸ hlin) (hcfg ▸ hassoc)).trans hopen
  rw [decide_eq_false (not_not_intro rfl)] at run'
  refine ⟨u', run'.1, left'.phase, ?_, fun a ha => ?_⟩
  · rw [left'.status, decide_eq_true rfl]
    decide
  · rw [left'.output, if_pos (hlen ▸ ha), if_pos rfl, hplain a ha]

end Sys2Proof.Machine
/-! SUPPORT and CERTIFICATES. Key hygiene (45_context.md R130 to R133): what `WIPE` leaves, the acceptance of CLEAR_CONTEXT and its one
step `CLEAR`, and the idempotence of the two together. -/
namespace Sys2Proof.Machine

/-! ## `WIPE` (R130) -/

/-- The outcome bits, each as the one condition of R130 that sets it. -/
theorem wiped_eq (st : Status) (opc : BitVec 4) (diff : Byte) :
    st.wiped opc diff = { st with
      busy := false, done := true
      authOk := decide (opc = 2 ∧ diff = 0), authFail := decide (opc = 2 ∧ diff ≠ 0) } := by
  simp only [Status.wiped, bne, Bool.beq_eq_decide_eq, Bool.decide_and, ne_eq, decide_not]

/-- Settles O36: the secrets are zero by the rule itself, the outcome bits by `wiped_eq`. -/
theorem wipeResult : Obligations.WipeResult := by
  intro s
  rw [← wiped_eq]
  rfl

/-! ## CLEAR_CONTEXT and its step `CLEAR` (R131, R132) -/

theorem execClearContext_accepts {s : State} (hbusy : s.status.busy = false) :
    execClearContext s = .next (accept s 3 false false .clear) :=
  unlessBusy_next.2 (.inr ⟨hbusy, rfl⟩)

/-- Settles O8: nothing but the lockout guards the acceptance. -/
theorem clearContextAcceptance : Obligations.ClearContextAcceptance := fun _ hbusy => execClearContext_accepts hbusy

theorem word_cleared : Status.cleared.word = 0x00000002 := by decide

/-- Settles O37: every entry of the two cleared arrays is one of eight zeros, and `STATUS` is `DONE` alone. -/
theorem clearResult : Obligations.ClearResult :=
  fun _ => ⟨_, rfl, rfl, fun _ hk => ⟨Vector.getElem_replicate hk, Vector.getElem_replicate hk⟩, word_cleared, rfl⟩

/-! ## Idempotence (R133) -/

/-- What a whole CLEAR_CONTEXT, its acceptance and its one step, makes of a state. -/
def State.contextCleared (s : State) : State :=
  { s.zeroSecrets with
    opc := 3, ks := 0, htable := Vector.replicate 8 0, scratch := Vector.replicate 8 0, status := Status.cleared }

theorem step_accepted_clearContext {s : State} (hinputs : s.inputs = []) :
    step (accept s 3 false false .clear) = .next s.contextCleared :=
  (step_of_no_input (s := accept s 3 false false .clear) hinputs).trans (engineStep_clear rfl)

/-- Nothing that `State.contextCleared` writes depends on what it overwrites. -/
theorem contextCleared_contextCleared (s : State) : s.contextCleared.contextCleared = s.contextCleared := rfl

/-- At reset all that CLEAR_CONTEXT zeroes is zero already (R150). -/
theorem contextCleared_reset :
    State.reset.contextCleared = { State.reset with opc := 3, status := { State.reset.status with done := true } } := rfl

/-- Settles O38: CLEAR_CONTEXT leaves an idle state with no input pending, so the second runs as the first did and clears a cleared
state. -/
theorem clearContextIsIdempotent : Obligations.ClearContextIsIdempotent := by
  refine ⟨fun s hbusy hinputs => ?_, _, execClearContext_accepts rfl, ?_⟩
  · have hsecond : step (accept s.contextCleared 3 false false .clear) = .next s.contextCleared.contextCleared :=
      step_accepted_clearContext (s := s.contextCleared) hinputs
    rw [contextCleared_contextCleared] at hsecond
    exact ⟨_, _, _, execClearContext_accepts hbusy, step_accepted_clearContext hinputs, execClearContext_accepts rfl, hsecond⟩
  · rw [← contextCleared_reset]
    exact step_accepted_clearContext rfl

end Sys2Proof.Machine
/-! SUPPORT and CERTIFICATES. Refusals and errors (60_exceptions.md R140, R143, R149): a launch outside the length precondition, a rejected
command word, and that every other step has a next state. -/
namespace Sys2Proof.Machine

/-! ## The refused launch (R100, R110, R149) -/

theorem lengthsLegal_eq_false_iff {s : State} :
    lengthsLegal s = false ↔
      s.aadLen.toNat > min Config.maxLen s.cfg.aadCap ∨ s.msgLen.toNat > min Config.maxLen s.cfg.msgCap := by
  rw [← Bool.not_eq_true, lengthsLegal_iff, Decidable.not_and_iff_or_not, Nat.not_le, Nat.not_le]

/-- The four words that start SEAL or OPEN run one operation, `launchCommand`. -/
theorem exec_launch {i : Instr} (hi : i ∈ [Instr.sealAuto, .sealSeq, .sealTable, .openCmd]) (s : State) :
    ∃ o a b, exec i s = launchCommand s o a b := by
  simp only [List.mem_cons, List.not_mem_nil, or_false] at hi
  obtain rfl | rfl | rfl | rfl := hi <;> exact ⟨_, _, _, rfl⟩

/-- Settles O9: the four launches are one operation, and it refuses illegal lengths. -/
theorem launchOutsideLengthsIsRefused : Obligations.LaunchOutsideLengthsIsRefused := by
  intro s i hbusy hlen hi
  obtain ⟨o, a, b, hexec⟩ := exec_launch hi s
  exact hexec.trans (launchCommand_refused.2 ⟨hbusy, lengthsLegal_eq_false_iff.2 hlen, rfl⟩)

/-! ## The rejected word (R44, R143) -/

theorem getLsbD_cmdErrMask (i : Nat) : (0x40 : RegWord).getLsbD i = decide (i = 6) := by
  rw [show (0x40 : RegWord) = BitVec.twoPow 32 6 from rfl, BitVec.getLsbD_twoPow]
  simp [eq_comm]

/-- `CMD_ERR` is bit 6 of the `STATUS` word (R17). -/
theorem word_setCmdErr (st : Status) : { st with cmdErr := true }.word = st.word ||| 0x40 := by
  refine BitVec.eq_of_getLsbD_eq fun i _ => ?_
  rw [BitVec.getLsbD_or, getLsbD_cmdErrMask, getLsbD_statusWord, getLsbD_statusWord]
  match i with
  | 0 | 1 | 2 | 3 | 4 | 5 | 6 | i + 7 => simp

/-- Settles O46: a rejected word sets `CMD_ERR`, which is bit 6. -/
theorem rejectedWordKeepsTheOutcome : Obligations.RejectedWordKeepsTheOutcome :=
  fun s _ hbusy hv => ⟨_, regWrite_of_reject hbusy hv, word_setCmdErr s.status, rfl⟩

/-! ## The engine step of a state that meets the invariant (R39, R46, R140) -/

/-- Outside `IDLE` and `CLEAR` both lengths are inside the capacities. -/
theorem State.Inv.lengths_le_capacity {s : State} (hs : s.Inv) (hrun : s.phase ≠ .idle ∧ s.phase ≠ .clear) :
    s.aadLen.toNat ≤ s.cfg.aadCap ∧ s.msgLen.toNat ≤ s.cfg.msgCap := by
  obtain ⟨haad, hmsg⟩ := lengthsLegal_iff.1 (hs.lengths hrun.1 hrun.2)
  exact ⟨Nat.le_trans haad (Nat.min_le_right _ _), Nat.le_trans hmsg (Nat.min_le_right _ _)⟩

/-- A step of a message loop inside the capacity is its exit or one batch. -/
theorem messageLoops_run {s : State} (hcap : s.msgLen.toNat ≤ s.cfg.msgCap) :
    (∃ t, execCtrEnc s = .next t) ∧ (∃ t, execDecHash s = .next t) ∧ ∃ t, execCopyback s = .next t := by
  by_cases hlt : s.blk.toNat < nblk s.msgLen
  · obtain ⟨_, hcopy, -⟩ := execCopyback_block hlt hcap
    exact ⟨⟨_, execCtrEnc_batch hlt hcap⟩, ⟨_, execDecHash_batch hlt hcap⟩, ⟨_, hcopy⟩⟩
  · obtain ⟨henc, hdec, hcopy⟩ := messageLoopsExit s (Nat.le_of_not_lt hlt)
    exact ⟨⟨_, henc⟩, ⟨_, hdec⟩, ⟨_, hcopy⟩⟩

/-- The guards of an engine step are the buffer accesses of the looping phases and the `OPC` of `TAG_ENC`; the invariant meets both. -/
theorem engineStep_runs {s : State} (hs : s.Inv) : ∃ t, engineStep s = .next t := by
  have hopc := hs.opc
  have hcaps := hs.lengths_le_capacity
  rw [engineStep_eq]
  cases hp : s.phase <;> rw [hp] at hopc hcaps
  case hashAad =>
    obtain ⟨haad, -⟩ := hcaps (by decide)
    exact ⟨_, hashPass_inside _ haad⟩
  case hashMsg =>
    obtain ⟨-, hmsg⟩ := hcaps (by decide)
    exact ⟨_, hashPass_inside _ hmsg⟩
  case ctrEnc | decHash | copyback =>
    obtain ⟨-, hmsg⟩ := hcaps (by decide)
    obtain ⟨henc, hdec, hcopy⟩ := messageLoops_run hmsg
    assumption
  case tagEnc =>
    obtain ho | ho : s.opc = 1 ∨ s.opc = 2 := by simpa [opcAllows] using hopc
    · exact ⟨_, if_pos ho⟩
    · exact ⟨_, (if_neg (by rw [ho]; decide)).trans (if_pos ho)⟩
  all_goals exact ⟨_, rfl⟩

/-! ## The write to `CMD` (R44, R149) -/

/-- The words that start SEAL or OPEN (R44). -/
def launchWord (v : RegWord) : Prop := v = 0x01 ∨ v = 0x11 ∨ v = 0x21 ∨ v = 0x02

/-- The legal words are those and CLEAR_CONTEXT. -/
theorem mem_legalCommandWords_iff_launchWord {v : RegWord} : v ∈ legalCommandWords ↔ launchWord v ∨ v = 0x03 := by
  simp only [mem_legalCommandWords, launchWord, or_assoc]

/-- A write of `v` to `CMD` launches SEAL or OPEN outside the length precondition. -/
def State.launchIsIllegal (s : State) (v : RegWord) : Prop :=
  s.status.busy = false ∧ lengthsLegal s = false ∧ launchWord v

theorem launchesIllegally_iff {s : State} :
    s.launchesIllegally ↔ ∃ v rest, s.inputs = .host (.regWrite 0 v) :: rest ∧ s.launchIsIllegal v :=
  ⟨fun ⟨hbusy, hlen, v, rest, hin, hv⟩ => ⟨v, rest, hin, hbusy, hlen, hv⟩,
    fun ⟨v, rest, hin, hbusy, hlen, hv⟩ => ⟨hbusy, hlen, v, rest, hin, hv⟩⟩

theorem decode_launchWord {v : RegWord} (hv : launchWord v) :
    ∃ i ∈ [Instr.sealAuto, .sealSeq, .sealTable, .openCmd], decode (.cmd v) = .ok i := by
  obtain rfl | rfl | rfl | rfl := hv
  · exact ⟨.sealAuto, by decide, rfl⟩
  · exact ⟨.sealSeq, by decide, rfl⟩
  · exact ⟨.sealTable, by decide, rfl⟩
  · exact ⟨.openCmd, by decide, rfl⟩

/-- The write of a launch word while idle is the operation `launchCommand`. -/
theorem regWrite_launchWord {s : State} (hbusy : s.status.busy = false) {v : RegWord} (hv : launchWord v) :
    ∃ o a b, regWrite s 0 v = launchCommand s o a b := by
  obtain ⟨i, hi, hdecode⟩ := decode_launchWord hv
  obtain ⟨o, a, b, hexec⟩ := exec_launch hi s
  exact ⟨o, a, b, (regWrite_of_decode hbusy hdecode).trans hexec⟩

theorem regWrite_illegalLaunch {s : State} {v : RegWord} (h : s.launchIsIllegal v) :
    regWrite s 0 v = .refused .lengthPrecondition := by
  obtain ⟨hbusy, hlen, hv⟩ := h
  obtain ⟨o, a, b, hwrite⟩ := regWrite_launchWord hbusy hv
  exact hwrite.trans (launchCommand_refused.2 ⟨hbusy, hlen, rfl⟩)

/-- Any other word written to `CMD` while idle is a legal launch, CLEAR_CONTEXT, or rejected. -/
theorem regWrite_cmd_runs {s : State} (hbusy : s.status.busy = false) {v : RegWord} (h : ¬ s.launchIsIllegal v) :
    ∃ t, regWrite s 0 v = .next t := by
  by_cases hlegal : v ∈ legalCommandWords
  · obtain hv | rfl := mem_legalCommandWords_iff_launchWord.1 hlegal
    · obtain ⟨o, a, b, hwrite⟩ := regWrite_launchWord hbusy hv
      have hlen : lengthsLegal s = true := eq_true_of_ne_false fun hlen => h ⟨hbusy, hlen, hv⟩
      exact ⟨_, hwrite.trans (launchCommand_accepts hbusy hlen o a b)⟩
    · exact ⟨_, (regWrite_of_decode (i := .clearContext) hbusy rfl).trans (execClearContext_accepts hbusy)⟩
  · exact ⟨_, regWrite_of_reject hbusy hlegal⟩

/-! ## Every step but the illegal launch (R140, R149) -/

theorem regWrite_runs {s : State} {w : BitVec 6} {v : RegWord} (h : w = 0 → ¬ s.launchIsIllegal v) :
    ∃ t, regWrite s w v = .next t := by
  cases hbusy : s.status.busy with
  | true => exact ⟨_, unlessBusy_busy hbusy _⟩
  | false =>
    by_cases hw : w = 0
    · subst hw
      exact regWrite_cmd_runs hbusy (h rfl)
    · exact ⟨_, regWrite_next.2 (.inr (.inr ⟨hbusy, hw, rfl⟩))⟩

theorem bufWrite_runs (s : State) (sp : Space) (a : BitVec 37) (b : Byte) : ∃ t, bufWrite s sp a b = .next t := by
  cases hbusy : s.status.busy with
  | true => exact ⟨_, unlessBusy_busy hbusy _⟩
  | false => exact ⟨_, unlessBusy_next.2 (.inr ⟨hbusy, rfl⟩)⟩

theorem applyInput_runs {s : State} (hs : s.Inv) {i : Input}
    (h : ∀ v, i = .host (.regWrite 0 v) → ¬ s.launchIsIllegal v) : ∃ t, applyInput s i = .next t := by
  cases i with
  | host op =>
    cases op with
    | regWrite w v => exact regWrite_runs fun hw => h v (by rw [hw])
    | bufWrite sp a b => exact bufWrite_runs s sp a b
    | regRead w => exact ⟨_, rfl⟩
    | bufRead sp a => exact ⟨_, rfl⟩
  | engine => exact engineStep_runs hs
  | wait => exact ⟨_, rfl⟩
  | reset => exact ⟨_, rfl⟩

theorem step_illegalLaunch {s : State} (h : s.launchesIllegally) : step s = .refused .lengthPrecondition := by
  obtain ⟨v, rest, hin, hillegal⟩ := launchesIllegally_iff.1 h
  exact (step_of_input hin).trans (regWrite_illegalLaunch (s := { s with inputs := rest }) hillegal)

theorem step_runs {s : State} (hs : s.Inv) (h : ¬ s.launchesIllegally) : ∃ t, step s = .next t := by
  cases hin : s.inputs with
  | nil =>
    rw [step_of_no_input hin]
    exact engineStep_runs hs
  | cons i rest =>
    rw [step_of_input hin]
    refine applyInput_runs (hs.queues rest s.replies) fun v hi hillegal => h ?_
    exact launchesIllegally_iff.2 ⟨v, rest, by rw [hin, hi], hillegal⟩

/-- Settles O51: only the write of a launch word can be refused, and no engine step meets a guard that the invariant does not. -/
theorem noFaultAndOneRefusal : Obligations.NoFaultAndOneRefusal :=
  fun _ hs => ⟨step_illegalLaunch, step_runs hs⟩

end Sys2Proof.Machine

/-! SUPPORT and CERTIFICATES. Reset (70_reset_and_hazards.md R150) and what the control flow depends on (R158). -/
namespace Sys2Proof.Machine

/-! ## Reset (R150) -/

theorem word_zero : Status.zero.word = 0 := by decide

/-- Settles O48: each value is the one `State.reset` names, and the `STATUS` word is `word_zero`. -/
theorem stateAfterReset : Obligations.StateAfterReset :=
  ⟨word_zero, rfl, rfl, rfl, rfl, rfl, rfl, rfl, ⟨rfl, rfl, rfl, rfl, rfl, rfl, rfl, rfl⟩, rfl, rfl, rfl⟩

theorem step_reset {s : State} {rest : List Input} (h : s.inputs = .reset :: rest) :
    step s = .next { State.reset with cfg := s.cfg, launch := s.launch + 1, inputs := rest, replies := s.replies } :=
  step_of_input h

/-- Settles O47: the step gives the values of `State.reset`, which are those of `stateAfterReset`, and keeps what lies outside. -/
theorem resetEventZeroesEverything : Obligations.ResetEventZeroesEverything := by
  intro s rest h
  obtain ⟨hword, hphase, hopc, haad, hmsg, hnonce, htag, hkey, hsecrets, hcontext⟩ := stateAfterReset
  exact ⟨_, step_reset h, hword, hphase, hopc, haad, hmsg, hnonce, htag, hkey, hsecrets, hcontext, rfl, rfl⟩

/-! ## Two states of one control state (R158) -/

/-- The data of `u` under the control state of `s`: every guard of an engine step reads the same in it as in `s`. -/
def State.withControlOf (u s : State) : State :=
  { u with
    cfg := s.cfg, phase := s.phase, opc := s.opc, blk := s.blk, status := s.status, aadLen := s.aadLen, msgLen := s.msgLen }

theorem eq_withControlOf {s u : State} (h : sameControl s u) : u = u.withControlOf s := by
  obtain ⟨hcfg, hphase, hopc, hblk, hstatus, haad, hmsg⟩ := h
  rw [State.withControlOf, hcfg, hphase, hopc, hblk, hstatus, haad, hmsg]

theorem sameControl_withControlOf (s u : State) : sameControl s (u.withControlOf s) := ⟨rfl, rfl, rfl, rfl, rfl, rfl, rfl⟩

/-! ## The looping phases (R83, R86, R105, R113, R122) -/

theorem hashPass_control {s s' : State} (u : State) {sp : Space} {len : BitVec 64} {exit : Phase}
    (h : hashPass s sp len exit = .next s') :
    ∃ u', hashPass (u.withControlOf s) sp len exit = .next u' ∧ sameControl s' u' := by
  have hcapacity : (u.withControlOf s).capacity sp = s.capacity sp := by cases sp <;> rfl
  obtain ⟨hge, rfl⟩ | ⟨hlt, htable, hcap, rfl⟩ | ⟨hlt, htable, hcap, rfl⟩ := hashPass_next.1 h
  · exact ⟨_, hashPass_next.2 (.inl ⟨hge, rfl⟩), rfl, rfl, rfl, rfl, rfl, rfl, rfl⟩
  · exact ⟨_, hashPass_next.2 (.inr (.inl ⟨hlt, htable, hcapacity ▸ hcap, rfl⟩)), rfl, rfl, rfl, rfl, rfl, rfl, rfl⟩
  · exact ⟨_, hashPass_next.2 (.inr (.inr ⟨hlt, htable, hcapacity ▸ hcap, rfl⟩)), rfl, rfl, rfl, rfl, rfl, rfl, rfl⟩

theorem execCtrEnc_control {s s' : State} (u : State) (h : execCtrEnc s = .next s') :
    ∃ u', execCtrEnc (u.withControlOf s) = .next u' ∧ sameControl s' u' := by
  obtain ⟨hge, rfl⟩ | ⟨hlt, r, hr, hcap, rfl⟩ := execCtrEnc_next.1 h
  · exact ⟨_, execCtrEnc_next.2 (.inl ⟨hge, rfl⟩), rfl, rfl, rfl, rfl, rfl, rfl, rfl⟩
  · exact ⟨_, execCtrEnc_next.2 (.inr ⟨hlt, r, hr, hcap, rfl⟩), by simp [sameControl, State.withControlOf]⟩

theorem execDecHash_control {s s' : State} (u : State) (h : execDecHash s = .next s') :
    ∃ u', execDecHash (u.withControlOf s) = .next u' ∧ sameControl s' u' := by
  obtain ⟨hge, rfl⟩ | ⟨hlt, r, hr, hcap, rfl⟩ := execDecHash_next.1 h
  · exact ⟨_, execDecHash_next.2 (.inl ⟨hge, rfl⟩), rfl, rfl, rfl, rfl, rfl, rfl, rfl⟩
  · exact ⟨_, execDecHash_next.2 (.inr ⟨hlt, r, hr, hcap, rfl⟩), by simp [sameControl, State.withControlOf]⟩

theorem execCopyback_control {s s' : State} (u : State) (h : execCopyback s = .next s') :
    ∃ u', execCopyback (u.withControlOf s) = .next u' ∧ sameControl s' u' := by
  obtain ⟨hge, rfl⟩ | ⟨hlt, hcap, rfl⟩ := execCopyback_next.1 h
  · exact ⟨_, execCopyback_next.2 (.inl ⟨hge, rfl⟩), rfl, rfl, rfl, rfl, rfl, rfl, rfl⟩
  · exact ⟨_, execCopyback_next.2 (.inr ⟨hlt, hcap, rfl⟩), by simp [sameControl, State.withControlOf, copyBlock]⟩

/-! ## The two phases that read the comparison (R120, R130) -/

/-- The branch of `TAG_CMP` is the outcome of the comparison. -/
theorem execTagCmp_control {s s' : State} (u : State) (hcompare : s.tag = s.tagc ↔ u.tag = u.tagc)
    (h : execTagCmp s = .next s') : ∃ u', execTagCmp (u.withControlOf s) = .next u' ∧ sameControl s' u' := by
  obtain rfl := Host.Outcome.next.inj h
  have hzero : tagDiff s.tag s.tagc 16 = 0 ↔ tagDiff u.tag u.tagc 16 = 0 := by rw [tagDiff_eq_zero, tagDiff_eq_zero, hcompare]
  have hbranch : (if tagDiff s.tag s.tagc 16 = 0 then Phase.wipe else .copyback) =
      if tagDiff u.tag u.tagc 16 = 0 then Phase.wipe else .copyback := by simp only [hzero]
  exact ⟨_, rfl, rfl, hbranch, rfl, rfl, rfl, rfl, rfl⟩

theorem wiped_congr (st : Status) (opc : BitVec 4) {d e : Byte} (h : d = 0 ↔ e = 0) : st.wiped opc d = st.wiped opc e := by
  simp only [wiped_eq, ne_eq, h]

/-- The outcome `WIPE` publishes is whether `DIFF` is zero. -/
theorem execWipe_control {s s' : State} (u : State) (hdiff : s.diff = 0 ↔ u.diff = 0)
    (h : execWipe s = .next s') : ∃ u', execWipe (u.withControlOf s) = .next u' ∧ sameControl s' u' := by
  obtain rfl := Host.Outcome.next.inj h
  exact ⟨_, rfl, rfl, rfl, rfl, rfl, wiped_congr s.status s.opc hdiff, rfl, rfl⟩

/-! ## Every phase (R158) -/

theorem engineStep_control {s s' : State} (u : State) (hcompare : s.phase = .tagCmp → (s.tag = s.tagc ↔ u.tag = u.tagc))
    (hdiff : s.phase = .wipe → (s.diff = 0 ↔ u.diff = 0)) (h : engineStep s = .next s') :
    ∃ u', engineStep (u.withControlOf s) = .next u' ∧ sameControl s' u' := by
  have hphase : (u.withControlOf s).phase = s.phase := rfl
  rw [engineStep_eq] at h ⊢
  rw [hphase]
  cases hp : s.phase <;> simp only [hp] at h ⊢
  case idle =>
    obtain rfl := Host.Outcome.next.inj h
    exact ⟨_, rfl, sameControl_withControlOf s u⟩
  case deriveH | deriveK1 | deriveK2 | htBuild | hashLen | final | ksRek | clear =>
    obtain rfl := Host.Outcome.next.inj h
    exact ⟨_, rfl, rfl, rfl, rfl, rfl, rfl, rfl, rfl⟩
  case tagEnc =>
    have hopc : (u.withControlOf s).opc = s.opc := rfl
    rw [hopc]
    split at h
    · obtain rfl := Host.Outcome.next.inj h
      exact ⟨_, if_pos ‹_›, rfl, rfl, rfl, rfl, rfl, rfl, rfl⟩
    · split at h
      · obtain rfl := Host.Outcome.next.inj h
        exact ⟨_, (if_neg ‹_›).trans (if_pos ‹_›), rfl, rfl, rfl, rfl, rfl, rfl, rfl⟩
      · cases h
  case hashAad | hashMsg => exact hashPass_control u h
  case ctrEnc => exact execCtrEnc_control u h
  case decHash => exact execDecHash_control u h
  case copyback => exact execCopyback_control u h
  case tagCmp => exact execTagCmp_control u (hcompare hp) h
  case wipe => exact execWipe_control u (hdiff hp) h

/-- Settles O52: the second state is its own data under the first one's control state, and no rule's control reads other data. -/
theorem controlDoesNotDependOnData : Obligations.ControlDoesNotDependOnData := by
  intro s u s' hsame hs hu hcompare hdiff h
  rw [step_of_no_input hs] at h
  rw [step_of_no_input hu, eq_withControlOf hsame]
  exact engineStep_control u hcompare hdiff h

end Sys2Proof.Machine
